-- ==== Sys2Proof/Word.lean ====
section
/-! DEFINITION. The machine's word types (spec/00_scope.md R7): the addressable unit is the 8-bit byte,
addresses and the program counter are 16 bits. -/

namespace Sys2Proof

/-- A byte, the unit of every access (20_memory R74). -/
abbrev Byte := BitVec 8

/-- A 16-bit address or pointer (00_scope R7). -/
abbrev Word := BitVec 16

/-- A sparse array of w-bit cells in canonical form: indices strictly rising, no cell equal to 0, which
is what an unlisted index reads as (log 4). -/
abbrev Cells (w : Nat) := List (Nat × BitVec w)

/-- A sparse array of bytes, that is a `List Host.Cell`. -/
abbrev Memory := Cells 8

end Sys2Proof
end

