-- ==== Sys2Proof/Config.lean ====
section
/-! DEFINITION. The parameters of spec/00_scope.md R9 with the values the spec takes, and the free
values: what the spec leaves open stands here as an `opaque` constant without a body, so that nothing
can be proved of it beyond its type. -/

namespace Sys2Proof

/-- The five mirroring modes (20_memory R122). -/
inductive Mirroring where
  | horizontal | vertical | singleLow | singleHigh | fourScreen
  deriving DecidableEq, Repr, Inhabited

/-- The four mapper variants A, B, C, D (20_memory R107, R108, R110, R111). -/
inductive Variant where
  | fixed | shiftRegister | switchable | scanlineIrq
  deriving DecidableEq, Repr

/-- The rendering flags of the graphics core (60_exceptions R350). -/
structure RenderFlags where
  showBackground     : Bool
  showSprites        : Bool
  hideLeftBackground : Bool
  hideLeftSprites    : Bool
  grayscale          : Bool
  tint               : BitVec 3
  deriving DecidableEq, Repr, Inhabited

/-- What the fifth write of variant B selects (20_memory R108). -/
inductive ShiftTarget where
  | control | chrBank0 | chrBank1 | progBank
  deriving DecidableEq, Repr, Inhabited

/-- Variant B's bank modes and fixed flags (20_memory R108, R109). -/
structure ShiftBanking where
  prog8k    : Bool
  chr8k     : Bool
  lowFixed  : Bool
  highFixed : Bool
  deriving DecidableEq, Repr, Inhabited

/-- A `switchBank` request in pages: first page, number of pages, bank index (20_memory R102). -/
structure BankWindow where
  firstPage : Nat
  pages     : Nat
  index     : Nat
  deriving DecidableEq, Repr, Inhabited

/-- The registers variant D must have by its description (20_memory R111, R116). -/
inductive ScanlineRegister where
  | latch | reload | irqDisable | irqEnable | bankSelect | bankData | mirroring | none
  deriving DecidableEq, Repr, Inhabited

/-- A bank switch of variant D: which Bank Memory, and the window (20_memory R111). -/
structure ScanlineBank where
  onProgram : Bool
  window    : BankWindow
  deriving DecidableEq, Repr, Inhabited

/-- A sprite selected for the coming scanline: its slot and its four OAM bytes (20_memory R124,
60_exceptions R359). -/
structure SpriteEntry where
  slot       : Nat
  y          : Byte
  tile       : Byte
  attributes : Byte
  x          : Byte
  deriving DecidableEq, Repr

/-- What an IRQ in the slot does while I is 1 (60_exceptions R322). -/
inductive MaskedIrqPolicy where
  | drop7Cycles | holdPending
  deriving DecidableEq, Repr

/-- What a request does to an occupied slot (60_exceptions R342). -/
inductive IntSlotPolicy where
  | lastWins | nmiWins
  deriving DecidableEq, Repr

namespace Config

/-! ### Parameters with the value the spec takes (00_scope R8, R9) -/

/-- 20_memory R87. -/
def nmiVector : Word := 0xFFFA#16
/-- 20_memory R87. -/
def irqVector : Word := 0xFFFE#16
/-- `RESET_VECTOR` (92_eei_decisions D13; log 3). -/
def resetVector : Word := 0xFFFC#16
/-- `RESET_A` (D13; log 3). -/
def resetA : Byte := 0#8
/-- `RESET_X` (D13; log 3). -/
def resetX : Byte := 0#8
/-- `RESET_Y` (D13; log 3). -/
def resetY : Byte := 0#8
/-- `RESET_SP` (D13; log 3). -/
def resetSp : Byte := 0xFD#8
/-- `SBC_ALIAS_OPCODE` (D2; log 8). -/
def sbcAliasOpcode : Byte := 0xEB#8
/-- `BRK_SIZE` (D10; log 9). -/
def brkSize : Nat := 1
/-- `MASKED_IRQ_POLICY` (D8; log 5). -/
def maskedIrqPolicy : MaskedIrqPolicy := .drop7Cycles
/-- `INT_SLOT_POLICY` (D9; log 6). -/
def intSlotPolicy : IntSlotPolicy := .lastWins
/-- `UNMAPPED_READ` (D15; log 7): the byte read from 0x4018 to 0x5FFF. -/
def unmappedRead (_addr : Word) : Byte := 0#8
/-- `MAPPER_ID` (D29; log 8). -/
def mapperId : Variant → Nat
  | .fixed => 0
  | .shiftRegister => 1
  | .switchable => 2
  | .scanlineIrq => 4
/-- `PAGE_SIZE` (20_memory R100; log 22). -/
def pageSize : Nat := 0x400
/-- `PRE_RENDER_SCANLINE` (D28; log 31). -/
def preRenderScanline : Nat := 261
/-- `ODD_SKIP_AT`: the cycle of the pre-render scanline at which the skip is applied (D37; log 31). -/
def oddSkipCycle : Nat := 340

/-! ### Free values -/

/-- The audio unit's answer to a read of 0x4015 (20_memory R84; log 10). -/
opaque audioStatus : Nat → Byte
/-- Controller 1's answer to a read of 0x4016 (20_memory R85; log 10). -/
opaque controllerRead : Nat → Byte
/-- The unstated low five bits of the graphics status byte (60_exceptions R373; log 11). -/
opaque statusLowBits : Nat → BitVec 5
/-- What a read of a write-only graphics register returns (60_exceptions R372, R346; log 12). -/
opaque writeOnlyRead : Nat → Byte
/-- What the read buffer receives on a palette read (60_exceptions R375; log 16). -/
opaque paletteReadBuffer : Nat → Byte

/-- The rendering flags a mask write sets (60_exceptions R376; log 13). -/
opaque maskFlags : Byte → RenderFlags
/-- Whether the control byte selects the increment 32 (60_exceptions R374; log 14). -/
opaque incrementBy32 : Byte → Bool
/-- The bits of the temporary address a scroll write of a phase fills; the Bool is the write-toggle (60_exceptions
R376; log 13). -/
opaque scrollBits : Bool → BitVec 15
/-- What a scroll write of a phase puts there (60_exceptions R376; log 13). -/
opaque scrollTemp : Bool → Byte → BitVec 15
/-- The bits of fine-X a scroll write of a phase fills (60_exceptions R376; log 13). -/
opaque scrollFineXBits : Bool → BitVec 3
/-- What a scroll write of a phase puts there (60_exceptions R376; log 13). -/
opaque scrollFineX : Bool → Byte → BitVec 3
/-- The bits of the temporary address an address write of a phase fills (60_exceptions R376; log 13). -/
opaque addressBits : Bool → BitVec 15
/-- What an address write of a phase puts there (60_exceptions R376; log 13). -/
opaque addressTemp : Bool → Byte → BitVec 15
/-- Fine-Y after the second address write or a vertical copy (60_exceptions R358, R376; log 18). -/
opaque fineYOf : BitVec 15 → BitVec 3

/-- Which residue of the cycle mod 8 fetches a tile (60_exceptions R357; log 17). -/
opaque prefetchPhase : Nat
/-- The eight pixels of a fetched tile (60_exceptions R357; log 17). -/
opaque tilePixels : Nat → Vector (BitVec 4) 8
/-- Which entry of the tile queue a pixel takes (60_exceptions R360; log 17). -/
opaque queueIndex : BitVec 3 → Nat
/-- The bits of the address registers that scroll horizontally (60_exceptions R358; log 17). -/
opaque horizontalBits : BitVec 15
/-- The bits of the address registers that scroll vertically (60_exceptions R358; log 17). -/
opaque verticalBits : BitVec 15
/-- The coarse-X field of the address registers (60_exceptions R357; log 17). -/
opaque coarseXBits : BitVec 15
/-- The nametable-select bit that a wrap of coarse-X toggles (60_exceptions R357; log 17). -/
opaque nametableSelectX : Fin 15
/-- The coarse-Y field of the address registers (60_exceptions R358; log 17). -/
opaque coarseYBits : BitVec 15
/-- Whether coarse-Y does not simply go up by 1 from this address (60_exceptions R358; log 17). -/
opaque coarseYWraps : BitVec 15 → Bool
/-- The vertical bits after such a step of coarse-Y (60_exceptions R358; log 17). -/
opaque coarseYWrap : BitVec 15 → BitVec 15
/-- Whether a sprite with this Y byte intersects the coming scanline (60_exceptions R359; log 17). -/
opaque spriteInRange : Byte → Nat → Byte → Bool
/-- How many sprites a scanline holds (60_exceptions R359; log 17). -/
opaque spriteLimit : Nat
/-- Whether so many sprites in range set sprite-overflow (60_exceptions R359; log 17). -/
opaque spriteOverflows : Nat → Bool
/-- A sprite's 4-bit colour at a pixel (60_exceptions R361; log 17). -/
opaque spriteColour : SpriteEntry → Nat → Nat → Nat → BitVec 4
/-- The priority bit: whether a sprite with this attribute byte lies behind the background
(60_exceptions R361; log 17). -/
opaque spriteBehind : Byte → Bool
/-- The column a visible cycle paints (60_exceptions R360; log 17). -/
opaque pixelColumn : Nat → Fin 256
/-- The RGB table: grayscale flag and 6-bit colour to an RGBA value (60_exceptions R362; log 17). -/
opaque rgba : Bool → BitVec 6 → BitVec 32

/-- Variant B: which bit of the written value is shifted in (20_memory R108; log 23). -/
opaque shiftBit : Fin 8
/-- Variant B: the shift direction, whether the new bit enters at the most significant end (20_memory R108;
log 23). -/
opaque shiftFromTop : Bool
/-- Variant B: which register the address of the fifth write selects (20_memory R108; log 23). -/
opaque shiftTarget : Word → ShiftTarget
/-- Variant B: the entry of the mirroring lookup a control value names (20_memory R108; log 23). -/
opaque shiftMirroringEntry : BitVec 5 → BitVec 2
/-- Variant B: the fixed four-entry mirroring lookup (20_memory R108; log 23). -/
opaque shiftMirroring : BitVec 2 → Mirroring
/-- Variant B: the bank modes and fixed flags a control value sets (20_memory R108; log 23). -/
opaque shiftBanking : BitVec 5 → ShiftBanking
/-- Variant B: the window a bank-select value switches, by target and banking (20_memory R108; log 23). -/
opaque shiftWindow : ShiftTarget → ShiftBanking → BitVec 5 → BankWindow

/-- Variant D: which register a write address selects (20_memory R111; log 25). -/
opaque scanlineRegister : Word → ScanlineRegister
/-- Variant D: the window a bank-data write switches (20_memory R111; log 25). -/
opaque scanlineBank : Byte → Byte → ScanlineBank
/-- Variant D: the mirroring mode a mirroring write sets (20_memory R116; log 25). -/
opaque scanlineMirroring : Byte → Mirroring
/-- Variant D: the counter after a clock at 0 without a reload request (20_memory R111; log 25). -/
opaque scanlineAtZero : Byte → Nat → Byte
/-- Variant D: whether the protocol's filter lets a request through (20_memory R111; log 25). -/
opaque scanlineFilter : Nat → Bool

end Config
end Sys2Proof
end

