-- ==== Sys2Proof/Syntax.lean ====
section
/-! DEFINITION. The instructions (spec/30_encoding.md R161 to R168), one constructor per operation of
spec/opcode_table.json with its operand form as the argument, one for the alias row 0xEB and one for the
104 absent rows. -/

namespace Sys2Proof

/-- The thirteen addressing modes (30_encoding R145 to R158). -/
inductive Mode where
  | implied | accumulator | immediate
  | zeroPage | zeroPageX | zeroPageY
  | absolute | absoluteX | absoluteY | indirect
  | indexedIndirectX | indirectIndexedY | relative
  deriving DecidableEq, Repr

/-- An operand as the operand bytes give it. Implied and relative instructions carry no `Operand`. -/
inductive Operand where
  | accumulator
  | immediate (value : Byte)
  | zeroPage (addr : Byte)
  | zeroPageX (addr : Byte)
  | zeroPageY (addr : Byte)
  | absolute (addr : Word)
  | absoluteX (base : Word)
  | absoluteY (base : Word)
  | indirect (ptr : Word)
  | indexedIndirectX (zp : Byte)
  | indirectIndexedY (zp : Byte)
  deriving DecidableEq, Repr

/-- The mode of an operand. -/
def Operand.mode : Operand → Mode
  | .accumulator => .accumulator
  | .immediate _ => .immediate
  | .zeroPage _ => .zeroPage
  | .zeroPageX _ => .zeroPageX
  | .zeroPageY _ => .zeroPageY
  | .absolute _ => .absolute
  | .absoluteX _ => .absoluteX
  | .absoluteY _ => .absoluteY
  | .indirect _ => .indirect
  | .indexedIndirectX _ => .indexedIndirectX
  | .indirectIndexedY _ => .indirectIndexedY

/-- The instructions. A displacement `d` is the raw signed byte (30_encoding R158). -/
inductive Instr where
  -- loads and stores (40_load_store)
  | lda (m : Operand) | ldx (m : Operand) | ldy (m : Operand)
  | sta (m : Operand) | stx (m : Operand) | sty (m : Operand)
  -- transfers and stack (41_transfer_stack)
  | tax | tay | txa | tya | tsx | txs | pha | php | pla | plp
  -- arithmetic, compare, increment, decrement (42_arithmetic)
  | adc (m : Operand) | sbc (m : Operand)
  | cmp (m : Operand) | cpx (m : Operand) | cpy (m : Operand)
  | inc (m : Operand) | inx | iny | dec (m : Operand) | dex | dey
  -- logic, bit test, shifts and rotates (43_logic_shift)
  | and (m : Operand) | ora (m : Operand) | eor (m : Operand) | bit (m : Operand)
  | asl (m : Operand) | lsr (m : Operand) | rol (m : Operand) | ror (m : Operand)
  -- control transfer (44_control)
  | jmp (m : Operand) | jsr (target : Word) | rts
  | bcc (d : Byte) | bcs (d : Byte) | beq (d : Byte) | bmi (d : Byte)
  | bne (d : Byte) | bpl (d : Byte) | bvc (d : Byte) | bvs (d : Byte)
  | brk | rti
  -- flags, no-operation and the alias (45_flags_system)
  | clc | sec | cli | sei | clv | cld | sed | nop
  | sbcAlias (value : Byte)
  -- an opcode byte without a descriptor (30_encoding R164, R165)
  | absent (opcode : Byte)
  deriving DecidableEq, Repr

/-- The addressing mode of an instruction; none for an absent opcode, which has no descriptor. -/
def Instr.mode : Instr → Option Mode
  | .lda m | .ldx m | .ldy m | .sta m | .stx m | .sty m
  | .adc m | .sbc m | .cmp m | .cpx m | .cpy m | .inc m | .dec m
  | .and m | .ora m | .eor m | .bit m | .asl m | .lsr m | .rol m | .ror m
  | .jmp m => some m.mode
  | .jsr _ => some .absolute
  | .sbcAlias _ => some .immediate
  | .bcc _ | .bcs _ | .beq _ | .bmi _ | .bne _ | .bpl _ | .bvc _ | .bvs _ => some .relative
  | .tax | .tay | .txa | .tya | .tsx | .txs | .pha | .php | .pla | .plp
  | .inx | .iny | .dex | .dey | .rts | .brk | .rti
  | .clc | .sec | .cli | .sei | .clv | .cld | .sed | .nop => some .implied
  | .absent _ => none

end Sys2Proof
end

