-- ==== Sys2Proof/WellFormed.lean ====
section
/-! DEFINITION. Which terms of Instr stand for a row of the opcode table: an operation only with a mode
the table gives it (spec/30_encoding.md R163), and `absent` only with one of the 104 bytes of R164. -/

namespace Sys2Proof

/-- The modes of LDA, ADC, SBC, CMP, AND, ORA and EOR (30_encoding R163). -/
def aluModes : List Mode :=
  [.immediate, .zeroPage, .zeroPageX, .absolute, .absoluteX, .absoluteY, .indexedIndirectX, .indirectIndexedY]

/-- The modes of INC and DEC (30_encoding R163). -/
def rmwModes : List Mode := [.zeroPage, .zeroPageX, .absolute, .absoluteX]

/-- The modes the opcode table gives the operation of an instruction (30_encoding R163). -/
def Instr.modes : Instr → List Mode
  | .lda _ | .adc _ | .sbc _ | .cmp _ | .and _ | .ora _ | .eor _ => aluModes
  | .ldx _ => [.immediate, .zeroPage, .zeroPageY, .absolute, .absoluteY]
  | .ldy _ => [.immediate, .zeroPage, .zeroPageX, .absolute, .absoluteX]
  | .sta _ => aluModes.tail
  | .stx _ => [.zeroPage, .zeroPageY, .absolute]
  | .sty _ => [.zeroPage, .zeroPageX, .absolute]
  | .cpx _ | .cpy _ => [.immediate, .zeroPage, .absolute]
  | .inc _ | .dec _ => rmwModes
  | .bit _ => [.zeroPage, .absolute]
  | .asl _ | .lsr _ | .rol _ | .ror _ => .accumulator :: rmwModes
  | .jmp _ => [.absolute, .indirect]
  | .jsr _ => [.absolute]
  | .sbcAlias _ => [.immediate]
  | .bcc _ | .bcs _ | .beq _ | .bmi _ | .bne _ | .bpl _ | .bvc _ | .bvs _ => [.relative]
  | .tax | .tay | .txa | .tya | .tsx | .txs | .pha | .php | .pla | .plp
  | .inx | .iny | .dex | .dey | .rts | .brk | .rti
  | .clc | .sec | .cli | .sei | .clv | .cld | .sed | .nop => [.implied]
  | .absent _ => []

/-- The 104 absent opcode bytes (30_encoding R164), in rows of the list there. -/
def absentOpcodes : List Nat :=
  [0x02, 0x03, 0x04, 0x07, 0x0B, 0x0C, 0x0F] ++
  [0x12, 0x13, 0x14, 0x17, 0x1A, 0x1B, 0x1C, 0x1F, 0x22, 0x23, 0x27, 0x2B, 0x2F] ++
  [0x32, 0x33, 0x34, 0x37, 0x3A, 0x3B, 0x3C, 0x3F, 0x42, 0x43, 0x44, 0x47, 0x4B] ++
  [0x4F, 0x52, 0x53, 0x54, 0x57, 0x5A, 0x5B, 0x5C, 0x5F, 0x62, 0x63, 0x64, 0x67] ++
  [0x6B, 0x6F, 0x72, 0x73, 0x74, 0x77, 0x7A, 0x7B, 0x7C, 0x7F, 0x80, 0x82, 0x83] ++
  [0x87, 0x89, 0x8B, 0x8F, 0x92, 0x93, 0x97, 0x9B, 0x9C, 0x9E, 0x9F, 0xA3, 0xA7] ++
  [0xAB, 0xAF, 0xB2, 0xB3, 0xB7, 0xBB, 0xBF, 0xC2, 0xC3, 0xC7, 0xCB, 0xCF, 0xD2] ++
  [0xD3, 0xD4, 0xD7, 0xDA, 0xDB, 0xDC, 0xDF, 0xE2, 0xE3, 0xE7, 0xEF, 0xF2, 0xF3] ++
  [0xF4, 0xF7, 0xFA, 0xFB, 0xFC, 0xFF]

/-- The terms that stand for a row of the opcode table. -/
def Instr.wf (i : Instr) : Bool :=
  match i with
  | .absent opcode => absentOpcodes.contains opcode.toNat
  | _ => match i.mode with
    | some mode => i.modes.contains mode
    | none => false

/-- Whether the instruction has a descriptor, that is whether it is not an absent opcode. -/
def Instr.present : Instr → Bool
  | .absent _ => false
  | _ => true

end Sys2Proof
end

