-- ==== Sys2Proof/Decode.lean ====
section
/-! DEFINITION. Decoding (spec/30_encoding.md R140 to R168), total on any bytes, and the encoder. The
decoder follows the matrix of R162 byte by byte; the descriptors, and with them the encoder, follow the
per-operation list of R163. -/

namespace Sys2Proof

/-- The 16-bit value of a low and a high byte (20_memory R70, R71). -/
def wordOf (lo hi : Byte) : Word := hi ++ lo

/-- The low byte of a 16-bit value. -/
def lowByte (w : Word) : Byte := w.extractLsb' 0 8

/-- The high byte of a 16-bit value. -/
def highByte (w : Word) : Byte := w.extractLsb' 8 8

/-- The instruction of an opcode byte and the two bytes after it, by the matrix of 30_encoding R162
(0xEB: R166). A byte outside the matrix is an absent entry (R164). Bytes the instruction's format does
not use are ignored. -/
def decodeBytes (opcode b1 b2 : Byte) : Instr :=
  match opcode.toNat with
  | 0x00 => .brk
  | 0x01 => .ora (.indexedIndirectX b1)
  | 0x05 => .ora (.zeroPage b1)
  | 0x06 => .asl (.zeroPage b1)
  | 0x08 => .php
  | 0x09 => .ora (.immediate b1)
  | 0x0A => .asl .accumulator
  | 0x0D => .ora (.absolute (wordOf b1 b2))
  | 0x0E => .asl (.absolute (wordOf b1 b2))
  | 0x10 => .bpl b1
  | 0x11 => .ora (.indirectIndexedY b1)
  | 0x15 => .ora (.zeroPageX b1)
  | 0x16 => .asl (.zeroPageX b1)
  | 0x18 => .clc
  | 0x19 => .ora (.absoluteY (wordOf b1 b2))
  | 0x1D => .ora (.absoluteX (wordOf b1 b2))
  | 0x1E => .asl (.absoluteX (wordOf b1 b2))
  | 0x20 => .jsr (wordOf b1 b2)
  | 0x21 => .and (.indexedIndirectX b1)
  | 0x24 => .bit (.zeroPage b1)
  | 0x25 => .and (.zeroPage b1)
  | 0x26 => .rol (.zeroPage b1)
  | 0x28 => .plp
  | 0x29 => .and (.immediate b1)
  | 0x2A => .rol .accumulator
  | 0x2C => .bit (.absolute (wordOf b1 b2))
  | 0x2D => .and (.absolute (wordOf b1 b2))
  | 0x2E => .rol (.absolute (wordOf b1 b2))
  | 0x30 => .bmi b1
  | 0x31 => .and (.indirectIndexedY b1)
  | 0x35 => .and (.zeroPageX b1)
  | 0x36 => .rol (.zeroPageX b1)
  | 0x38 => .sec
  | 0x39 => .and (.absoluteY (wordOf b1 b2))
  | 0x3D => .and (.absoluteX (wordOf b1 b2))
  | 0x3E => .rol (.absoluteX (wordOf b1 b2))
  | 0x40 => .rti
  | 0x41 => .eor (.indexedIndirectX b1)
  | 0x45 => .eor (.zeroPage b1)
  | 0x46 => .lsr (.zeroPage b1)
  | 0x48 => .pha
  | 0x49 => .eor (.immediate b1)
  | 0x4A => .lsr .accumulator
  | 0x4C => .jmp (.absolute (wordOf b1 b2))
  | 0x4D => .eor (.absolute (wordOf b1 b2))
  | 0x4E => .lsr (.absolute (wordOf b1 b2))
  | 0x50 => .bvc b1
  | 0x51 => .eor (.indirectIndexedY b1)
  | 0x55 => .eor (.zeroPageX b1)
  | 0x56 => .lsr (.zeroPageX b1)
  | 0x58 => .cli
  | 0x59 => .eor (.absoluteY (wordOf b1 b2))
  | 0x5D => .eor (.absoluteX (wordOf b1 b2))
  | 0x5E => .lsr (.absoluteX (wordOf b1 b2))
  | 0x60 => .rts
  | 0x61 => .adc (.indexedIndirectX b1)
  | 0x65 => .adc (.zeroPage b1)
  | 0x66 => .ror (.zeroPage b1)
  | 0x68 => .pla
  | 0x69 => .adc (.immediate b1)
  | 0x6A => .ror .accumulator
  | 0x6C => .jmp (.indirect (wordOf b1 b2))
  | 0x6D => .adc (.absolute (wordOf b1 b2))
  | 0x6E => .ror (.absolute (wordOf b1 b2))
  | 0x70 => .bvs b1
  | 0x71 => .adc (.indirectIndexedY b1)
  | 0x75 => .adc (.zeroPageX b1)
  | 0x76 => .ror (.zeroPageX b1)
  | 0x78 => .sei
  | 0x79 => .adc (.absoluteY (wordOf b1 b2))
  | 0x7D => .adc (.absoluteX (wordOf b1 b2))
  | 0x7E => .ror (.absoluteX (wordOf b1 b2))
  | 0x81 => .sta (.indexedIndirectX b1)
  | 0x84 => .sty (.zeroPage b1)
  | 0x85 => .sta (.zeroPage b1)
  | 0x86 => .stx (.zeroPage b1)
  | 0x88 => .dey
  | 0x8A => .txa
  | 0x8C => .sty (.absolute (wordOf b1 b2))
  | 0x8D => .sta (.absolute (wordOf b1 b2))
  | 0x8E => .stx (.absolute (wordOf b1 b2))
  | 0x90 => .bcc b1
  | 0x91 => .sta (.indirectIndexedY b1)
  | 0x94 => .sty (.zeroPageX b1)
  | 0x95 => .sta (.zeroPageX b1)
  | 0x96 => .stx (.zeroPageY b1)
  | 0x98 => .tya
  | 0x99 => .sta (.absoluteY (wordOf b1 b2))
  | 0x9A => .txs
  | 0x9D => .sta (.absoluteX (wordOf b1 b2))
  | 0xA0 => .ldy (.immediate b1)
  | 0xA1 => .lda (.indexedIndirectX b1)
  | 0xA2 => .ldx (.immediate b1)
  | 0xA4 => .ldy (.zeroPage b1)
  | 0xA5 => .lda (.zeroPage b1)
  | 0xA6 => .ldx (.zeroPage b1)
  | 0xA8 => .tay
  | 0xA9 => .lda (.immediate b1)
  | 0xAA => .tax
  | 0xAC => .ldy (.absolute (wordOf b1 b2))
  | 0xAD => .lda (.absolute (wordOf b1 b2))
  | 0xAE => .ldx (.absolute (wordOf b1 b2))
  | 0xB0 => .bcs b1
  | 0xB1 => .lda (.indirectIndexedY b1)
  | 0xB4 => .ldy (.zeroPageX b1)
  | 0xB5 => .lda (.zeroPageX b1)
  | 0xB6 => .ldx (.zeroPageY b1)
  | 0xB8 => .clv
  | 0xB9 => .lda (.absoluteY (wordOf b1 b2))
  | 0xBA => .tsx
  | 0xBC => .ldy (.absoluteX (wordOf b1 b2))
  | 0xBD => .lda (.absoluteX (wordOf b1 b2))
  | 0xBE => .ldx (.absoluteY (wordOf b1 b2))
  | 0xC0 => .cpy (.immediate b1)
  | 0xC1 => .cmp (.indexedIndirectX b1)
  | 0xC4 => .cpy (.zeroPage b1)
  | 0xC5 => .cmp (.zeroPage b1)
  | 0xC6 => .dec (.zeroPage b1)
  | 0xC8 => .iny
  | 0xC9 => .cmp (.immediate b1)
  | 0xCA => .dex
  | 0xCC => .cpy (.absolute (wordOf b1 b2))
  | 0xCD => .cmp (.absolute (wordOf b1 b2))
  | 0xCE => .dec (.absolute (wordOf b1 b2))
  | 0xD0 => .bne b1
  | 0xD1 => .cmp (.indirectIndexedY b1)
  | 0xD5 => .cmp (.zeroPageX b1)
  | 0xD6 => .dec (.zeroPageX b1)
  | 0xD8 => .cld
  | 0xD9 => .cmp (.absoluteY (wordOf b1 b2))
  | 0xDD => .cmp (.absoluteX (wordOf b1 b2))
  | 0xDE => .dec (.absoluteX (wordOf b1 b2))
  | 0xE0 => .cpx (.immediate b1)
  | 0xE1 => .sbc (.indexedIndirectX b1)
  | 0xE4 => .cpx (.zeroPage b1)
  | 0xE5 => .sbc (.zeroPage b1)
  | 0xE6 => .inc (.zeroPage b1)
  | 0xE8 => .inx
  | 0xE9 => .sbc (.immediate b1)
  | 0xEA => .nop
  | 0xEB => .sbcAlias b1
  | 0xEC => .cpx (.absolute (wordOf b1 b2))
  | 0xED => .sbc (.absolute (wordOf b1 b2))
  | 0xEE => .inc (.absolute (wordOf b1 b2))
  | 0xF0 => .beq b1
  | 0xF1 => .sbc (.indirectIndexedY b1)
  | 0xF5 => .sbc (.zeroPageX b1)
  | 0xF6 => .inc (.zeroPageX b1)
  | 0xF8 => .sed
  | 0xF9 => .sbc (.absoluteY (wordOf b1 b2))
  | 0xFD => .sbc (.absoluteX (wordOf b1 b2))
  | 0xFE => .inc (.absoluteX (wordOf b1 b2))
  | _ => .absent opcode

/-- The encoded size by mode (30_encoding R175; BRK's is `BRK_SIZE`). Of an absent opcode only its own
byte is read (R165). -/
def Instr.size (i : Instr) : Nat :=
  match i with
  | .brk => Config.brkSize
  | _ => match i.mode with
    | none | some .implied | some .accumulator => 1
    | some .immediate | some .zeroPage | some .zeroPageX | some .zeroPageY
    | some .indexedIndirectX | some .indirectIndexedY | some .relative => 2
    | some .absolute | some .absoluteX | some .absoluteY | some .indirect => 3

/-- The length of the instruction an opcode byte selects: the opcode byte alone decides it
(30_encoding R140). -/
def instrLength (opcode : Byte) : Nat := (decodeBytes opcode 0#8 0#8).size

/-- Why a list of bytes is no instruction. -/
inductive DecodeReject where
  /-- There is no byte at all. -/
  | noBytes
  /-- The opcode byte needs more operand bytes than there are. -/
  | truncated (opcode : Byte)
  deriving DecidableEq, Repr

/-- Decode the instruction at the head of a list of bytes and give the bytes after it. -/
def decode : List Byte → Except DecodeReject (Instr × List Byte)
  | [] => .error .noBytes
  | opcode :: rest =>
    match instrLength opcode, rest with
    | 0, rest | 1, rest => .ok (decodeBytes opcode 0#8 0#8, rest)
    | 2, b1 :: rest => .ok (decodeBytes opcode b1 0#8, rest)
    | 3, b1 :: b2 :: rest => .ok (decodeBytes opcode b1 b2, rest)
    | _, _ => .error (.truncated opcode)

/-- A descriptor of the opcode table: addressing mode, opcode byte, base cycle cost (30_encoding R163,
R176; the size follows from the mode). -/
structure Descriptor where
  mode   : Mode
  opcode : Nat
  base   : Nat
  deriving DecidableEq, Repr

/-- The descriptors of an instruction's operation, one per mode (30_encoding R163; the alias R166). -/
def Instr.descriptors : Instr → List Descriptor
  | .adc _ => [⟨.immediate, 0x69, 2⟩, ⟨.zeroPage, 0x65, 3⟩, ⟨.zeroPageX, 0x75, 4⟩, ⟨.absolute, 0x6D, 4⟩,
      ⟨.absoluteX, 0x7D, 4⟩, ⟨.absoluteY, 0x79, 4⟩, ⟨.indexedIndirectX, 0x61, 6⟩, ⟨.indirectIndexedY, 0x71, 5⟩]
  | .and _ => [⟨.immediate, 0x29, 2⟩, ⟨.zeroPage, 0x25, 3⟩, ⟨.zeroPageX, 0x35, 4⟩, ⟨.absolute, 0x2D, 4⟩,
      ⟨.absoluteX, 0x3D, 4⟩, ⟨.absoluteY, 0x39, 4⟩, ⟨.indexedIndirectX, 0x21, 6⟩, ⟨.indirectIndexedY, 0x31, 5⟩]
  | .asl _ => [⟨.accumulator, 0x0A, 2⟩, ⟨.zeroPage, 0x06, 5⟩, ⟨.zeroPageX, 0x16, 6⟩, ⟨.absolute, 0x0E, 6⟩,
      ⟨.absoluteX, 0x1E, 7⟩]
  | .bcc _ => [⟨.relative, 0x90, 2⟩]
  | .bcs _ => [⟨.relative, 0xB0, 2⟩]
  | .beq _ => [⟨.relative, 0xF0, 2⟩]
  | .bit _ => [⟨.zeroPage, 0x24, 3⟩, ⟨.absolute, 0x2C, 4⟩]
  | .bmi _ => [⟨.relative, 0x30, 2⟩]
  | .bne _ => [⟨.relative, 0xD0, 2⟩]
  | .bpl _ => [⟨.relative, 0x10, 2⟩]
  | .brk => [⟨.implied, 0x00, 7⟩]
  | .bvc _ => [⟨.relative, 0x50, 2⟩]
  | .bvs _ => [⟨.relative, 0x70, 2⟩]
  | .clc => [⟨.implied, 0x18, 2⟩]
  | .cld => [⟨.implied, 0xD8, 2⟩]
  | .cli => [⟨.implied, 0x58, 2⟩]
  | .clv => [⟨.implied, 0xB8, 2⟩]
  | .cmp _ => [⟨.immediate, 0xC9, 2⟩, ⟨.zeroPage, 0xC5, 3⟩, ⟨.zeroPageX, 0xD5, 4⟩, ⟨.absolute, 0xCD, 4⟩,
      ⟨.absoluteX, 0xDD, 4⟩, ⟨.absoluteY, 0xD9, 4⟩, ⟨.indexedIndirectX, 0xC1, 6⟩, ⟨.indirectIndexedY, 0xD1, 5⟩]
  | .cpx _ => [⟨.immediate, 0xE0, 2⟩, ⟨.zeroPage, 0xE4, 3⟩, ⟨.absolute, 0xEC, 4⟩]
  | .cpy _ => [⟨.immediate, 0xC0, 2⟩, ⟨.zeroPage, 0xC4, 3⟩, ⟨.absolute, 0xCC, 4⟩]
  | .dec _ => [⟨.zeroPage, 0xC6, 5⟩, ⟨.zeroPageX, 0xD6, 6⟩, ⟨.absolute, 0xCE, 6⟩, ⟨.absoluteX, 0xDE, 7⟩]
  | .dex => [⟨.implied, 0xCA, 2⟩]
  | .dey => [⟨.implied, 0x88, 2⟩]
  | .eor _ => [⟨.immediate, 0x49, 2⟩, ⟨.zeroPage, 0x45, 3⟩, ⟨.zeroPageX, 0x55, 4⟩, ⟨.absolute, 0x4D, 4⟩,
      ⟨.absoluteX, 0x5D, 4⟩, ⟨.absoluteY, 0x59, 4⟩, ⟨.indexedIndirectX, 0x41, 6⟩, ⟨.indirectIndexedY, 0x51, 5⟩]
  | .inc _ => [⟨.zeroPage, 0xE6, 5⟩, ⟨.zeroPageX, 0xF6, 6⟩, ⟨.absolute, 0xEE, 6⟩, ⟨.absoluteX, 0xFE, 7⟩]
  | .inx => [⟨.implied, 0xE8, 2⟩]
  | .iny => [⟨.implied, 0xC8, 2⟩]
  | .jmp _ => [⟨.absolute, 0x4C, 3⟩, ⟨.indirect, 0x6C, 5⟩]
  | .jsr _ => [⟨.absolute, 0x20, 6⟩]
  | .lda _ => [⟨.immediate, 0xA9, 2⟩, ⟨.zeroPage, 0xA5, 3⟩, ⟨.zeroPageX, 0xB5, 4⟩, ⟨.absolute, 0xAD, 4⟩,
      ⟨.absoluteX, 0xBD, 4⟩, ⟨.absoluteY, 0xB9, 4⟩, ⟨.indexedIndirectX, 0xA1, 6⟩, ⟨.indirectIndexedY, 0xB1, 5⟩]
  | .ldx _ => [⟨.immediate, 0xA2, 2⟩, ⟨.zeroPage, 0xA6, 3⟩, ⟨.zeroPageY, 0xB6, 4⟩, ⟨.absolute, 0xAE, 4⟩,
      ⟨.absoluteY, 0xBE, 4⟩]
  | .ldy _ => [⟨.immediate, 0xA0, 2⟩, ⟨.zeroPage, 0xA4, 3⟩, ⟨.zeroPageX, 0xB4, 4⟩, ⟨.absolute, 0xAC, 4⟩,
      ⟨.absoluteX, 0xBC, 4⟩]
  | .lsr _ => [⟨.accumulator, 0x4A, 2⟩, ⟨.zeroPage, 0x46, 5⟩, ⟨.zeroPageX, 0x56, 6⟩, ⟨.absolute, 0x4E, 6⟩,
      ⟨.absoluteX, 0x5E, 7⟩]
  | .nop => [⟨.implied, 0xEA, 2⟩]
  | .ora _ => [⟨.immediate, 0x09, 2⟩, ⟨.zeroPage, 0x05, 3⟩, ⟨.zeroPageX, 0x15, 4⟩, ⟨.absolute, 0x0D, 4⟩,
      ⟨.absoluteX, 0x1D, 4⟩, ⟨.absoluteY, 0x19, 4⟩, ⟨.indexedIndirectX, 0x01, 6⟩, ⟨.indirectIndexedY, 0x11, 5⟩]
  | .pha => [⟨.implied, 0x48, 3⟩]
  | .php => [⟨.implied, 0x08, 3⟩]
  | .pla => [⟨.implied, 0x68, 4⟩]
  | .plp => [⟨.implied, 0x28, 4⟩]
  | .rol _ => [⟨.accumulator, 0x2A, 2⟩, ⟨.zeroPage, 0x26, 5⟩, ⟨.zeroPageX, 0x36, 6⟩, ⟨.absolute, 0x2E, 6⟩,
      ⟨.absoluteX, 0x3E, 7⟩]
  | .ror _ => [⟨.accumulator, 0x6A, 2⟩, ⟨.zeroPage, 0x66, 5⟩, ⟨.zeroPageX, 0x76, 6⟩, ⟨.absolute, 0x6E, 6⟩,
      ⟨.absoluteX, 0x7E, 7⟩]
  | .rti => [⟨.implied, 0x40, 6⟩]
  | .rts => [⟨.implied, 0x60, 6⟩]
  | .sbc _ => [⟨.immediate, 0xE9, 2⟩, ⟨.zeroPage, 0xE5, 3⟩, ⟨.zeroPageX, 0xF5, 4⟩, ⟨.absolute, 0xED, 4⟩,
      ⟨.absoluteX, 0xFD, 4⟩, ⟨.absoluteY, 0xF9, 4⟩, ⟨.indexedIndirectX, 0xE1, 6⟩, ⟨.indirectIndexedY, 0xF1, 5⟩]
  | .sec => [⟨.implied, 0x38, 2⟩]
  | .sed => [⟨.implied, 0xF8, 2⟩]
  | .sei => [⟨.implied, 0x78, 2⟩]
  | .sta _ => [⟨.zeroPage, 0x85, 3⟩, ⟨.zeroPageX, 0x95, 4⟩, ⟨.absolute, 0x8D, 4⟩, ⟨.absoluteX, 0x9D, 5⟩,
      ⟨.absoluteY, 0x99, 5⟩, ⟨.indexedIndirectX, 0x81, 6⟩, ⟨.indirectIndexedY, 0x91, 6⟩]
  | .stx _ => [⟨.zeroPage, 0x86, 3⟩, ⟨.zeroPageY, 0x96, 4⟩, ⟨.absolute, 0x8E, 4⟩]
  | .sty _ => [⟨.zeroPage, 0x84, 3⟩, ⟨.zeroPageX, 0x94, 4⟩, ⟨.absolute, 0x8C, 4⟩]
  | .tax => [⟨.implied, 0xAA, 2⟩]
  | .tay => [⟨.implied, 0xA8, 2⟩]
  | .tsx => [⟨.implied, 0xBA, 2⟩]
  | .txa => [⟨.implied, 0x8A, 2⟩]
  | .txs => [⟨.implied, 0x9A, 2⟩]
  | .tya => [⟨.implied, 0x98, 2⟩]
  | .sbcAlias _ => [⟨.immediate, Config.sbcAliasOpcode.toNat, 2⟩]
  | .absent _ => []

/-- The descriptor of an instruction, if its operation has one for its mode. -/
def Instr.descriptor? (i : Instr) : Option Descriptor :=
  i.mode.bind fun mode => i.descriptors.find? fun row => row.mode == mode

/-- The operand bytes of an operand, low byte first (30_encoding R141). -/
def Operand.bytes : Operand → List Byte
  | .accumulator => []
  | .immediate b | .zeroPage b | .zeroPageX b | .zeroPageY b
  | .indexedIndirectX b | .indirectIndexedY b => [b]
  | .absolute w | .absoluteX w | .absoluteY w | .indirect w => [lowByte w, highByte w]

/-- The bytes after the opcode byte (30_encoding R141). -/
def Instr.operandBytes : Instr → List Byte
  | .lda m | .ldx m | .ldy m | .sta m | .stx m | .sty m
  | .adc m | .sbc m | .cmp m | .cpx m | .cpy m | .inc m | .dec m
  | .and m | .ora m | .eor m | .bit m | .asl m | .lsr m | .rol m | .ror m
  | .jmp m => m.bytes
  | .jsr w => [lowByte w, highByte w]
  | .sbcAlias b | .bcc b | .bcs b | .beq b | .bmi b | .bne b | .bpl b | .bvc b | .bvs b => [b]
  | .tax | .tay | .txa | .tya | .tsx | .txs | .pha | .php | .pla | .plp
  | .inx | .iny | .dex | .dey | .rts | .brk | .rti
  | .clc | .sec | .cli | .sei | .clv | .cld | .sed | .nop | .absent _ => []

/-- The bytes of a well-formed instruction (30_encoding R141, R163). An ill-formed term has no
encoding. -/
def encode (i : Instr) : List Byte :=
  match i with
  | .absent opcode => [opcode]
  | _ => match i.descriptor? with
    | some row => BitVec.ofNat 8 row.opcode :: i.operandBytes
    | none => []

/-- Byte k of a number, byte 0 the least significant. -/
def byteOfNat (n k : Nat) : Byte := BitVec.ofNat 8 (n / 2 ^ (8 * k))

/-- What the decoder reads from an instruction whose low `nbits` bits are those of `w` and whose other
bits are 0; the first byte is the least significant (30_encoding R141). -/
def decodeTableWord (nbits w : Nat) : Option Instr :=
  let bits := w % 2 ^ nbits
  match decode [byteOfNat bits 0, byteOfNat bits 1, byteOfNat bits 2] with
  | .ok (i, _) => some i
  | .error _ => none

end Sys2Proof
end

