-- ==== Sys2Proof/Machine/State.lean ====
section
/-! DEFINITION. The whole state of the machine as plain data (spec/10_state.md R30 to R62,
60_exceptions R350, 20_memory R100 to R111), the reasons a step can stop, and the state after reset. -/

namespace Sys2Proof.Machine

open Sys2Proof

/-- Why the machine stops (60_exceptions R330). Every one is the spec's own fatal outcome. -/
inductive Fault where
  /-- Raised by the meaning of `Instr.absent`, when the byte fetched at `pc` has no descriptor
  (30_encoding R165). Safe: the spec faults too. -/
  | absentOpcode (opcode : Byte) (pc : Word)
  /-- Raised by every meaning when its operation has no descriptor for its mode, with the byte at `pc` and `pc`
  (30_encoding R160; 00_scope R16; log 30); no decoded instruction reaches it. Safe: such a term stands for no
  row of the table. -/
  | absentHandler (opcode : Byte) (pc : Word)
  /-- Raised by the graphics-side access functions outside 0x0000 to 0x3FFF (20_memory R125). Safe: the
  spec faults too. -/
  | unmappedGraphicsAddress (addr : Nat)
  /-- Raised by Bank Memory accesses outside the window or the data (20_memory R103). Safe: the spec
  faults too. -/
  | bankIndexOutOfRange (addr : Nat)
  deriving DecidableEq, Repr

/-- Why the model gives no next state. -/
inductive Refusal where
  /-- Raised by an arm of `exec` whose instruction has no meaning yet; no arm does. Safe. -/
  | notModelled (mnemonic : String)
  /-- Raised by loading a cartridge whose mapper id is not one of the four (20_memory R114,
  60_exceptions R331); no step raises it. Safe: the spec refuses the load too. -/
  | unknownMapper (id : Nat)
  /-- Raised by `step` and by a reset while no cartridge is loaded (70_reset_and_hazards R421; log 44). Safe:
  the spec allows no tick there. -/
  | noCartridge
  deriving DecidableEq, Repr

/-- The two interrupt requests (10_state R54). -/
inductive Interrupt where
  | nmi | irq
  deriving DecidableEq, Repr

/-- A Bank Memory (20_memory R100). `size` is the length of the byte buffer `data`; `fixed` is its own
fixed/swappable flag (log 41). -/
structure BankMemory where
  data       : Memory
  size       : Nat
  windowSize : Nat
  fixed      : Bool
  pageSize   : Nat
  pointers   : List Nat
  deriving DecidableEq, Repr

/-- What the cartridge header gives the core (20_memory R119). -/
structure Header where
  variant   : Variant
  progBanks : Nat
  chrBanks  : Nat
  mirroring : Mirroring
  pal       : Bool
  deriving DecidableEq, Repr

/-- The mapper (20_memory R104) with the state of the four variants (R107 to R111). Variant D's counter and
latch have 8 bits, a width the spec does not give (PRESUMED, log 25). -/
structure Mapper where
  header     : Header
  prog       : BankMemory
  chr        : BankMemory
  saveRam    : Memory
  mirroring  : Mirroring
  -- variant B (R108, R109)
  shift      : BitVec 5
  shiftCount : Nat
  banking    : ShiftBanking
  -- variant D (R111)
  counter    : Byte
  latch      : Byte
  reload     : Bool
  irqEnable  : Bool
  bankSelect : Byte
  deriving DecidableEq, Repr

/-- The graphics core (60_exceptions R350; 20_memory R122 to R124; 60_exceptions R371). -/
structure Gfx where
  cycle           : Nat
  scanline        : Nat
  vramAddr        : BitVec 15
  tempAddr        : BitVec 15
  fineX           : BitVec 3
  fineY           : BitVec 3
  writeToggle     : Bool
  frameParity     : Bool
  flags           : RenderFlags
  spriteZeroHit   : Bool
  spriteOverflow  : Bool
  nmiEnable       : Bool
  nmiOccurred     : Bool
  control         : Byte
  oamAddr         : Byte
  readBuffer      : Byte
  nametable       : Memory
  palette         : Memory
  oam             : Memory
  tileQueue       : List (BitVec 4)
  spriteSet       : List SpriteEntry
  frameReady      : Bool
  frame           : Cells 32
  backgroundFrame : Cells 32
  spriteFrame     : Cells 32
  indexFrame      : Cells 8
  splitOutput     : Bool
  deriving DecidableEq, Repr

/-- Everything outside the processor: the graphics core, the cartridge, and the model's own count of the
free values drawn so far (log 10). -/
structure Board where
  gfx       : Gfx
  mapper    : Mapper
  freeCount : Nat
  deriving DecidableEq, Repr

/-- The machine (10_state R59; `extra` is held here, log 36). `loaded` says that a cartridge is in the machine
(70_reset_and_hazards R421; log 44). -/
structure State where
  a       : Byte
  x       : Byte
  y       : Byte
  sp      : Byte
  pc      : Word
  c       : Bool
  z       : Bool
  i       : Bool
  d       : Bool
  v       : Bool
  n       : Bool
  cycles  : Nat
  stall   : Nat
  pending : Option Interrupt
  extra   : Bool
  ram     : Memory
  board   : Board
  loaded  : Bool
  deriving DecidableEq, Repr

/-- The graphics core after load or reset: everything 0 (70_reset_and_hazards R405; log 3). -/
def Gfx.reset : Gfx where
  cycle := 0
  scanline := 0
  vramAddr := 0#15
  tempAddr := 0#15
  fineX := 0#3
  fineY := 0#3
  writeToggle := false
  frameParity := false
  flags := ⟨false, false, false, false, false, 0#3⟩
  spriteZeroHit := false
  spriteOverflow := false
  nmiEnable := false
  nmiOccurred := false
  control := 0#8
  oamAddr := 0#8
  readBuffer := 0#8
  nametable := []
  palette := []
  oam := []
  tileQueue := []
  spriteSet := []
  frameReady := false
  frame := []
  backgroundFrame := []
  spriteFrame := []
  indexFrame := []
  splitOutput := false

/-- The mapper of the blank cartridge: variant A, two program banks and one graphics bank of zeros
(log 2), built as 70_reset_and_hazards R404 builds it (program bank 0 low, the last bank high). -/
def Mapper.blank : Mapper where
  header := ⟨.fixed, 2, 1, .horizontal, false⟩
  prog := ⟨[], 0x8000, 0x8000, true, Config.pageSize, List.range 32⟩
  chr := ⟨[], 0x2000, 0x2000, true, Config.pageSize, List.range 8⟩
  saveRam := []
  mirroring := .horizontal
  shift := 0#5
  shiftCount := 0
  banking := ⟨false, false, false, false⟩
  counter := 0#8
  latch := 0#8
  reload := false
  irqEnable := false
  bankSelect := 0#8

/-- The machine right after reset (10_state R60, R61; 70_reset_and_hazards R401 to R405) with the blank
cartridge of log 2, whose reset vector reads 0x0000. -/
def State.reset : State where
  a := Config.resetA
  x := Config.resetX
  y := Config.resetY
  sp := Config.resetSp
  pc := 0x0000#16
  c := false
  z := false
  i := true
  d := false
  v := false
  n := false
  cycles := 0
  stall := 0
  pending := none
  extra := false
  ram := []
  board := ⟨Gfx.reset, Mapper.blank, 0⟩
  loaded := true

end Sys2Proof.Machine
end

