-- ==== Sys2Proof/Machine/Flags.lean ====
section
/-! DEFINITION. Every flag computation and the packed flag byte (spec/10_state.md R39 to R44,
spec/42_arithmetic.md, spec/43_logic_shift.md). -/

namespace Sys2Proof.Machine

open Sys2Proof

/-- `SetZN(v)` (10_state R41). -/
def State.setZN (s : State) (u : Byte) : State := { s with z := u == 0#8, n := u.msb }

/-- `PackP(b4, b5)`: N V b5 b4 D I Z C, N in bit 7 (10_state R42; log 9). -/
def State.packP (s : State) (b4 b5 : Bool) : Byte :=
  BitVec.ofBool s.n ++ BitVec.ofBool s.v ++ BitVec.ofBool b5 ++ BitVec.ofBool b4
    ++ BitVec.ofBool s.d ++ BitVec.ofBool s.i ++ BitVec.ofBool s.z ++ BitVec.ofBool s.c

/-- `UnpackP(v)`: bits 5 and 4 are dropped (10_state R42; log 9). -/
def State.unpackP (s : State) (u : Byte) : State :=
  { s with
    n := u.getLsbD 7, v := u.getLsbD 6, d := u.getLsbD 3
    i := u.getLsbD 2, z := u.getLsbD 1, c := u.getLsbD 0 }

/-- The result of an addition or subtraction and its carry and overflow. -/
structure AddResult where
  value    : Byte
  carry    : Bool
  overflow : Bool
  deriving DecidableEq, Repr

/-- ADC: the 9-bit sum, carry when it exceeds 255, overflow when both operands have one sign and the
result the other (42_arithmetic R231). D has no effect (R232). -/
def addWithCarry (a m : Byte) (carry : Bool) : AddResult :=
  let sum := a.toNat + m.toNat + carry.toNat
  let r := BitVec.ofNat 8 sum
  { value := r
    carry := decide (0xFF < sum)
    overflow := ((~~~(a ^^^ m)) &&& (a ^^^ r) &&& 0x80#8) != 0#8 }

/-- SBC: `A - m - (1 - C)` over the integers, carry when it is not negative (42_arithmetic R233, R234). D
has no effect (R232). -/
def subWithCarry (a m : Byte) (carry : Bool) : AddResult :=
  let diff : Int := (a.toNat : Int) - m.toNat - (1 - carry.toNat)
  let r := BitVec.ofInt 8 diff
  { value := r
    carry := decide (0 ≤ diff)
    overflow := ((a ^^^ m) &&& (a ^^^ r) &&& 0x80#8) != 0#8 }

/-- A, C, V, Z and N after ADC or SBC (42_arithmetic R231, R233). -/
def State.setAddResult (s : State) (r : AddResult) : State :=
  ({ s with a := r.value, c := r.carry, v := r.overflow }).setZN r.value

/-- C, Z and N after a comparison of a register with m (42_arithmetic R235 to R237). -/
def State.setCompare (s : State) (register m : Byte) : State :=
  ({ s with c := decide (m.toNat ≤ register.toNat) }).setZN (register - m)

/-- Z, V and N after BIT (43_logic_shift R254). -/
def State.setBitTest (s : State) (m : Byte) : State :=
  { s with z := (s.a &&& m) == 0#8, v := m.getLsbD 6, n := m.getLsbD 7 }

/-- ASL: the result and the bit shifted out (43_logic_shift R255). -/
def shiftLeft (m : Byte) (_carry : Bool) : Byte × Bool := (m <<< 1, m.getLsbD 7)

/-- LSR (43_logic_shift R256). -/
def shiftRight (m : Byte) (_carry : Bool) : Byte × Bool := (m >>> 1, m.getLsbD 0)

/-- ROL: the old carry enters at bit 0 (43_logic_shift R257). -/
def rotateLeft (m : Byte) (carry : Bool) : Byte × Bool :=
  ((m <<< 1) ||| (BitVec.ofBool carry).setWidth 8, m.getLsbD 7)

/-- ROR: the old carry enters at bit 7 (43_logic_shift R258). -/
def rotateRight (m : Byte) (carry : Bool) : Byte × Bool :=
  ((m >>> 1) ||| ((BitVec.ofBool carry).setWidth 8 <<< 7), m.getLsbD 0)

end Sys2Proof.Machine
end

