-- ==== Sys2Proof/Machine/Memory.lean ====
section
/-! DEFINITION. Sparse arrays in canonical form (log 4): reading, writing, and the predicate that says
the form holds. Every memory of the machine is one. -/

namespace Sys2Proof

/-- What a cell reads as; an unlisted cell reads as 0 (10_state R61, 70_reset_and_hazards R405; log 4). -/
def Cells.read {w : Nat} : Cells w → Nat → BitVec w
  | [], _ => 0#w
  | (k, u) :: rest, a => if a = k then u else Cells.read rest a

/-- Write one cell, keeping the canonical form: writing 0 removes the entry. -/
def Cells.write {w : Nat} : Cells w → Nat → BitVec w → Cells w
  | [], a, u => if u = 0#w then [] else [(a, u)]
  | (k, t) :: rest, a, u =>
    if a < k then (if u = 0#w then (k, t) :: rest else (a, u) :: (k, t) :: rest)
    else if a = k then (if u = 0#w then rest else (a, u) :: rest)
    else (k, t) :: Cells.write rest a u

/-- Canonical form with every index at least `lo`: indices strictly rising, no cell equal to 0. -/
def Cells.wfFrom {w : Nat} (lo : Nat) : Cells w → Bool
  | [] => true
  | (k, u) :: rest => decide (lo ≤ k) && (u != 0#w) && Cells.wfFrom (k + 1) rest

/-- The canonical form. -/
def Cells.wf {w : Nat} (m : Cells w) : Bool := Cells.wfFrom 0 m

/-- Every listed index is below `n`. -/
def Cells.below {w : Nat} (n : Nat) (m : Cells w) : Bool := m.all fun cell => decide (cell.1 < n)

/-- The cells with an index from `lo` on and below `hi`, moved down by `lo`. -/
def Cells.slice {w : Nat} (lo hi : Nat) (m : Cells w) : Cells w :=
  (m.filter fun cell => decide (lo ≤ cell.1 ∧ cell.1 < hi)).map fun cell => (cell.1 - lo, cell.2)

/-- Canonical form of a memory. -/
def Memory.wf (m : Memory) : Bool := Cells.wf m

end Sys2Proof
end

