-- ==== Sys2Proof/Machine/BankMemory.lean ====
section
/-! DEFINITION. Bank Memory: address translation through the page-pointer table (spec/20_memory.md R100 to
R103). -/

namespace Sys2Proof.Machine

open Sys2Proof

/-- The index into the data that a logical address resolves to (20_memory R101), none outside the window
or the data (R103). -/
def BankMemory.resolve (b : BankMemory) (addr : Nat) : Option Nat :=
  match b.pointers[addr / b.pageSize]? with
  | none => none
  | some page =>
    let k := page * b.pageSize + addr % b.pageSize
    if addr < b.windowSize ∧ k < b.size then some k else none

/-- Read a logical address (20_memory R101, R103). -/
def BankMemory.read (b : BankMemory) (addr : Nat) : Except Fault Byte :=
  match b.resolve addr with
  | some k => .ok (Cells.read b.data k)
  | none => .error (.bankIndexOutOfRange addr)

/-- Write a logical address (20_memory R101, R103). -/
def BankMemory.write (b : BankMemory) (addr : Nat) (u : Byte) : Except Fault BankMemory :=
  match b.resolve addr with
  | some k => .ok { b with data := Cells.write b.data k u }
  | none => .error (.bankIndexOutOfRange addr)

/-- Point `pages` pages from `first` on at the physical pages of bank `index` (20_memory R102). -/
def BankMemory.switchPages (b : BankMemory) (first pages index : Nat) : BankMemory :=
  { b with pointers := b.pointers.mapIdx fun k page =>
      if first ≤ k ∧ k < first + pages then index * pages + (k - first) else page }

/-- `switchBank(fromAddr, toAddr, bankIndex)` (20_memory R102). -/
def BankMemory.switchBank (b : BankMemory) (fromAddr toAddr bankIndex : Nat) : BankMemory :=
  b.switchPages (fromAddr / b.pageSize) (toAddr / b.pageSize - fromAddr / b.pageSize) bankIndex

/-- A bank switch of a variant whose windows and masks the spec does not give: any window inside the
table and any bank inside the data, since a mapper masks its bank numbers (20_memory R103; logs 23, 25). -/
def BankMemory.switchWindow (b : BankMemory) (w : BankWindow) : BankMemory :=
  let first := w.firstPage % b.pointers.length
  let total := b.size / b.pageSize
  let pages := min w.pages (min (b.pointers.length - first) total)
  if pages = 0 then b else b.switchPages first pages (w.index % (total / pages))

end Sys2Proof.Machine
end

