-- ==== Sys2Proof/Machine/Mapper.lean ====
section
/-! DEFINITION. The cartridge mapper: read, write and tick of the four variants (spec/20_memory.md R104 to
R116). -/

namespace Sys2Proof.Machine

open Sys2Proof

/-- The processor-side read at and above 0x6000 (20_memory R105). -/
def Mapper.read (m : Mapper) (addr : Word) : Except Fault Byte :=
  if addr.toNat < 0x8000 then .ok (Cells.read m.saveRam (addr.toNat - 0x6000))
  else m.prog.read (addr.toNat - 0x8000)

/-- Variant B: the shift register with one more bit accumulated: one bit of the written value enters at one
end and the register moves by one place (20_memory R108; which bit and which end are log 23). -/
def shiftIn (shift : BitVec 5) (u : Byte) : BitVec 5 :=
  let bit := BitVec.ofBool (u.getLsbD Config.shiftBit)
  if Config.shiftFromTop then bit ++ shift.extractLsb' 1 4 else shift.extractLsb' 0 4 ++ bit

/-- Variant B: what the fifth write dispatches (20_memory R108; log 23). That a dispatch to the control register
switches no window itself is a DESIGN CHOICE (log 23). -/
def Mapper.applyShift (m : Mapper) (target : ShiftTarget) (value : BitVec 5) : Mapper :=
  match target with
  | .control =>
    { m with mirroring := Config.shiftMirroring (Config.shiftMirroringEntry value)
             banking := Config.shiftBanking value }
  | .chrBank0 | .chrBank1 =>
    { m with chr := m.chr.switchWindow (Config.shiftWindow target m.banking value) }
  | .progBank =>
    { m with prog := m.prog.switchWindow (Config.shiftWindow target m.banking value) }

/-- Variant B, a write to the upper address space (20_memory R108, R109). -/
def Mapper.writeShift (m : Mapper) (addr : Word) (u : Byte) : Mapper :=
  if u.msb then
    { m with shift := 0#5, shiftCount := 0
             banking := { m.banking with lowFixed := true, highFixed := true } }
  else
    let value := shiftIn m.shift u
    if m.shiftCount = 4 then
      { m with shift := 0#5, shiftCount := 0 }.applyShift (Config.shiftTarget addr) value
    else { m with shift := value, shiftCount := m.shiftCount + 1 }

/-- Variant C: select the low 16 KiB program bank (20_memory R110; log 24). -/
def Mapper.writeSwitchable (m : Mapper) (u : Byte) : Mapper :=
  { m with prog := m.prog.switchBank 0x0000 0x4000 (u.toNat % m.header.progBanks) }

/-- Variant D: a bank-data write switches one window of one Bank Memory, chosen by the select register
(20_memory R111; DESIGN CHOICE, log 25). -/
def Mapper.writeScanlineBank (m : Mapper) (u : Byte) : Mapper :=
  let bank := Config.scanlineBank m.bankSelect u
  if bank.onProgram then { m with prog := m.prog.switchWindow bank.window }
  else { m with chr := m.chr.switchWindow bank.window }

/-- Variant D, a write to the upper address space (20_memory R111, R116). That the select register only stores
the byte and switches nothing is a DESIGN CHOICE (log 25). -/
def Mapper.writeScanline (m : Mapper) (addr : Word) (u : Byte) : Mapper :=
  match Config.scanlineRegister addr with
  | .latch => { m with latch := u }
  | .reload => { m with reload := true }
  | .irqDisable => { m with irqEnable := false }
  | .irqEnable => { m with irqEnable := true }
  | .bankSelect => { m with bankSelect := u }
  | .bankData => m.writeScanlineBank u
  | .mirroring => { m with mirroring := Config.scanlineMirroring u }
  | .none => m

/-- A write at or above 0x8000, the variant's register write (20_memory R106 to R111). On variant A it is
a logged no-op (R107, R92). -/
def Mapper.writeRegister (m : Mapper) (addr : Word) (u : Byte) : Mapper :=
  match m.header.variant with
  | .fixed => m
  | .shiftRegister => m.writeShift addr u
  | .switchable => m.writeSwitchable u
  | .scanlineIrq => m.writeScanline addr u

/-- The processor-side write at and above 0x6000 (20_memory R91, R106). -/
def Mapper.write (m : Mapper) (addr : Word) (u : Byte) : Mapper :=
  if addr.toNat < 0x8000 then { m with saveRam := Cells.write m.saveRam (addr.toNat - 0x6000) u }
  else m.writeRegister addr u

/-- Variant D's counter after one clock (20_memory R111; log 25); `k` numbers the free values. -/
def Mapper.nextCounter (m : Mapper) (k : Nat) : Byte :=
  if m.reload then m.latch
  else if m.counter = 0#8 then Config.scanlineAtZero m.latch k
  else m.counter - 1#8

/-- The mapper's `tick()` and whether it requests an IRQ (20_memory R111, R113). -/
def Mapper.tick (m : Mapper) (k : Nat) : Mapper × Bool :=
  match m.header.variant with
  | .fixed | .shiftRegister | .switchable => (m, false)
  | .scanlineIrq =>
    ({ m with counter := m.nextCounter k, reload := false },
      m.irqEnable && m.nextCounter k == 0#8 && Config.scanlineFilter k)

end Sys2Proof.Machine
end

