-- ==== Sys2Proof/Machine/Graphics.lean ====
section
/-! DEFINITION. The graphics core: its address space (spec/20_memory.md R121 to R125), its eight registers
(spec/60_exceptions.md R372 to R376) and its tick (R350 to R370). -/

namespace Sys2Proof.Machine

open Sys2Proof

/-! ### The graphics address space -/

/-- Which physical 1 KiB region a logical nametable region is (20_memory R122; log 20). -/
def nametableRegion (m : Mirroring) (logical : Nat) : Nat :=
  match m with
  | .horizontal => logical / 2
  | .vertical => logical % 2
  | .singleLow => 0
  | .singleHigh => 1
  | .fourScreen => logical

/-- The nametable byte an address from 0x2000 to 0x3EFF names; the backing store has 2 KiB
(20_memory R121, R122; logs 20, 21). From 0x3000 on the four regions repeat (PRESUMED, log 21). -/
def nametableIndex (m : Mirroring) (addr : Nat) : Nat :=
  (nametableRegion m (addr / 0x400 % 4) * 0x400 + addr % 0x400) % 0x800

/-- The palette byte an address from 0x3F00 on names, with the aliasing of 0x10, 0x14, 0x18 and 0x1C
(20_memory R121, R123; log 21). -/
def paletteIndex (addr : Nat) : Nat :=
  let k := addr % 0x20
  if 0x10 ≤ k ∧ k % 4 = 0 then k - 0x10 else k

/-- A read in the graphics address space (20_memory R121, R125). -/
def Board.graphicsRead (b : Board) (addr : Nat) : Except Fault Byte :=
  if addr < 0x2000 then b.mapper.chr.read addr
  else if addr < 0x3F00 then .ok (Cells.read b.gfx.nametable (nametableIndex b.mapper.mirroring addr))
  else if addr < 0x4000 then .ok (Cells.read b.gfx.palette (paletteIndex addr))
  else .error (.unmappedGraphicsAddress addr)

/-- A write in the graphics address space; the pattern window takes it only in graphics-RAM mode
(20_memory R106, R119, R121, R125). -/
def Board.graphicsWrite (b : Board) (addr : Nat) (u : Byte) : Except Fault Board :=
  if addr < 0x2000 then
    if b.mapper.header.chrBanks = 0 then
      match b.mapper.chr.write addr u with
      | .ok chr => .ok { b with mapper := { b.mapper with chr := chr } }
      | .error f => .error f
    else .ok b
  else if addr < 0x3F00 then
    .ok { b with gfx := { b.gfx with
      nametable := Cells.write b.gfx.nametable (nametableIndex b.mapper.mirroring addr) u } }
  else if addr < 0x4000 then
    .ok { b with gfx := { b.gfx with palette := Cells.write b.gfx.palette (paletteIndex addr) u } }
  else .error (.unmappedGraphicsAddress addr)

/-! ### The registers -/

/-- The eight registers (60_exceptions R372, D28). -/
inductive GfxRegister where
  | control | mask | status | oamAddress | oamData | scroll | address | data
  deriving DecidableEq, Repr

/-- The register an address from 0x2000 to 0x3FFF names: number `addr & 7` (20_memory R82; 60_exceptions
R372). -/
def GfxRegister.ofAddress (addr : Word) : GfxRegister :=
  match addr.toNat % 8 with
  | 0 => .control
  | 1 => .mask
  | 2 => .status
  | 3 => .oamAddress
  | 4 => .oamData
  | 5 => .scroll
  | 6 => .address
  | _ => .data

/-- The byte a status read returns: NMI-occurred, sprite-zero-hit and sprite-overflow in bits 7, 6 and 5,
the NMI bit suppressed at scanline 241, cycle 2; the other bits are free (60_exceptions R373; log 11). -/
def Gfx.statusByte (g : Gfx) (k : Nat) : Byte :=
  let suppressed := g.scanline == 241 && g.cycle == 2
  BitVec.ofBool (g.nmiOccurred && !suppressed) ++ BitVec.ofBool g.spriteZeroHit
    ++ BitVec.ofBool g.spriteOverflow ++ Config.statusLowBits k

/-- The graphics address the data port uses: the current VRAM address in 14 bits (60_exceptions R374,
R378; log 15). -/
def Gfx.portAddress (g : Gfx) : Nat := g.vramAddr.toNat % 0x4000

/-- The current VRAM address after a data-port access (60_exceptions R374; log 14). -/
def Gfx.steppedAddress (g : Gfx) : BitVec 15 :=
  g.vramAddr + (if Config.incrementBy32 g.control then 32#15 else 1#15)

/-- A read of the data port: buffered by one access except in the palette range (60_exceptions R374,
R375; log 16). -/
def Board.readDataPort (b : Board) : Except Fault (Byte × Board) :=
  match b.graphicsRead b.gfx.portAddress with
  | .error f => .error f
  | .ok u =>
    if b.gfx.portAddress < 0x3F00 then
      .ok (b.gfx.readBuffer,
        { b with gfx := { b.gfx with readBuffer := u, vramAddr := b.gfx.steppedAddress } })
    else
      .ok (u,
        { b with
          gfx := { b.gfx with
            readBuffer := Config.paletteReadBuffer b.freeCount, vramAddr := b.gfx.steppedAddress }
          freeCount := b.freeCount + 1 })

/-- A read of a graphics register (60_exceptions R372 to R375; logs 11, 12). That an OAM data read gives the
byte at the OAM address and keeps the address is PRESUMED (log 32). -/
def Board.readRegister (b : Board) (r : GfxRegister) : Except Fault (Byte × Board) :=
  match r with
  | .control | .mask | .oamAddress | .scroll | .address =>
    .ok (Config.writeOnlyRead b.freeCount, { b with freeCount := b.freeCount + 1 })
  | .status =>
    .ok (b.gfx.statusByte b.freeCount,
      { b with gfx := { b.gfx with writeToggle := false, nmiOccurred := false }
               freeCount := b.freeCount + 1 })
  | .oamData => .ok (Cells.read b.gfx.oam b.gfx.oamAddr.toNat, b)
  | .data => b.readDataPort

/-- Replace the bits of `old` selected by `mask` by those of `new`. -/
def mergeBits {w : Nat} (mask new old : BitVec w) : BitVec w := (old &&& ~~~mask) ||| (new &&& mask)

/-- The part of a register that a write of a phase fills: the two phases fill different parts (60_exceptions R376;
that these share no bit is DEDUCED, log 13). -/
def phasePart {w : Nat} (bits : Bool → BitVec w) (toggle : Bool) : BitVec w :=
  if toggle then bits true &&& ~~~bits false else bits false

/-- A scroll write: each phase fills its part of the temporary address and of fine-X (60_exceptions R376;
log 13). -/
def Gfx.writeScroll (g : Gfx) (u : Byte) : Gfx :=
  { g with
    tempAddr :=
      mergeBits (phasePart Config.scrollBits g.writeToggle) (Config.scrollTemp g.writeToggle u) g.tempAddr
    fineX :=
      mergeBits (phasePart Config.scrollFineXBits g.writeToggle) (Config.scrollFineX g.writeToggle u) g.fineX
    writeToggle := !g.writeToggle }

/-- An address write: each phase fills its part of the temporary address; the second one copies temporary into
current (60_exceptions R376; logs 13, 18). That it leaves fine-X alone is a DESIGN CHOICE (log 13). -/
def Gfx.writeAddress (g : Gfx) (u : Byte) : Gfx :=
  let temp :=
    mergeBits (phasePart Config.addressBits g.writeToggle) (Config.addressTemp g.writeToggle u) g.tempAddr
  if g.writeToggle then
    { g with tempAddr := temp, vramAddr := temp, fineY := Config.fineYOf temp, writeToggle := false }
  else { g with tempAddr := temp, writeToggle := true }

/-- Store one byte of sprite memory. -/
def Board.writeOam (b : Board) (index : Byte) (u : Byte) : Board :=
  { b with gfx := { b.gfx with oam := Cells.write b.gfx.oam index.toNat u } }

/-- A write to a graphics register (60_exceptions R376, R372; logs 12, 13, 32). That a control write leaves the
temporary address alone is a DESIGN CHOICE (log 13). -/
def Board.writeRegister (b : Board) (r : GfxRegister) (u : Byte) : Except Fault Board :=
  match r with
  | .control => .ok { b with gfx := { b.gfx with control := u, nmiEnable := u.msb } }
  | .mask => .ok { b with gfx := { b.gfx with flags := Config.maskFlags u } }
  | .status => .ok b
  | .oamAddress => .ok { b with gfx := { b.gfx with oamAddr := u } }
  | .oamData =>
    .ok { b.writeOam b.gfx.oamAddr u with
          gfx := { (b.writeOam b.gfx.oamAddr u).gfx with oamAddr := b.gfx.oamAddr + 1#8 } }
  | .scroll => .ok { b with gfx := b.gfx.writeScroll u }
  | .address => .ok { b with gfx := b.gfx.writeAddress u }
  | .data =>
    match b.graphicsWrite b.gfx.portAddress u with
    | .error f => .error f
    | .ok b' => .ok { b' with gfx := { b'.gfx with vramAddr := b.gfx.steppedAddress } }

/-! ### The raster position -/

/-- Scanline types (60_exceptions R352). -/
inductive ScanlineType where
  | visible | vblankStart | preRender | idle
  deriving DecidableEq, Repr

/-- The type of a scanline (60_exceptions R352; log 31). -/
def scanlineType (scanline : Nat) : ScanlineType :=
  if scanline < 240 then .visible
  else if scanline = 241 then .vblankStart
  else if scanline = Config.preRenderScanline then .preRender
  else .idle

/-- Cycle types (60_exceptions R353). -/
inductive CycleType where
  | zero | one | visible | xCopy | yIncrement | spriteEvaluation | yCopy | tileDataFlush | prefetch
  | mapperTick | idle
  deriving DecidableEq, Repr

/-- The type of a cycle (60_exceptions R353). -/
def cycleType (cycle : Nat) : CycleType :=
  if cycle = 0 then .zero
  else if cycle = 1 then .one
  else if cycle ≤ 256 then .visible
  else if cycle = 257 then .xCopy
  else if cycle = 258 then .yIncrement
  else if cycle = 259 then .spriteEvaluation
  else if 280 ≤ cycle ∧ cycle ≤ 304 then .yCopy
  else if cycle = 321 then .tileDataFlush
  else if 322 ≤ cycle ∧ cycle ≤ 336 then .prefetch
  else if cycle = 340 then .mapperTick
  else .idle

/-- Rendering is enabled when background or sprites are shown (60_exceptions R356). -/
def Gfx.renderingEnabled (g : Gfx) : Bool := g.flags.showBackground || g.flags.showSprites

/-- One position further (60_exceptions R365). -/
def Gfx.advanceOnce (g : Gfx) : Gfx :=
  if g.cycle + 1 < 341 then { g with cycle := g.cycle + 1 }
  else if g.scanline + 1 < 262 then { g with cycle := 0, scanline := g.scanline + 1 }
  else { g with cycle := 0, scanline := 0, frameParity := !g.frameParity }

/-- Whether the odd-frame skip applies at this position (60_exceptions R366; log 31). -/
def Gfx.skipsCycle (g : Gfx) : Bool :=
  g.scanline == Config.preRenderScanline && g.cycle == Config.oddSkipCycle
    && g.frameParity && g.flags.showBackground

/-- The advance at the end of a graphics tick (60_exceptions R365, R366). -/
def Gfx.advance (g : Gfx) : Gfx :=
  if g.skipsCycle then g.advanceOnce.advanceOnce else g.advanceOnce

/-! ### Rendering -/

/-- Add 1 in the field of an address that `mask` selects: the number its bits hold goes up by 1, from its largest
value to 0, and the other bits stay. -/
def stepField (mask addr : BitVec 15) : BitVec 15 := mergeBits mask ((addr ||| ~~~mask) + 1#15) addr

/-- The horizontal scroll step: coarse-X goes up by 1, and when it wraps the nametable-select bit is toggled
(60_exceptions R357; where the field and the bit lie is log 17). -/
def advanceCoarseX (field : BitVec 15) (select : Fin 15) (addr : BitVec 15) : BitVec 15 :=
  if addr &&& field = field then stepField field addr ^^^ BitVec.twoPow 15 select else stepField field addr

/-- The step of coarse-Y: it goes up by 1, but for the addresses at which it wraps, which the spec does not give
(60_exceptions R358; log 17). -/
def advanceCoarseY (addr : BitVec 15) : BitVec 15 :=
  if Config.coarseYWraps addr then mergeBits Config.verticalBits (Config.coarseYWrap addr) addr
  else stepField Config.coarseYBits addr

/-- A tile prefetch with the horizontal scroll step, on every 8th cycle (60_exceptions R357; log 17). -/
def Gfx.fetchTile (g : Gfx) (k : Nat) : Gfx :=
  if g.cycle % 8 = Config.prefetchPhase % 8 then
    { g with
      tileQueue := g.tileQueue ++ (Config.tilePixels k).toList
      vramAddr := advanceCoarseX Config.coarseXBits Config.nametableSelectX g.vramAddr }
  else g

/-- The Y increment at cycle 258: fine-Y advances, and coarse-Y when fine-Y was 7 (60_exceptions R358; the
carry is PRESUMED, log 18). -/
def Gfx.incrementY (g : Gfx) : Gfx :=
  { g with
    fineY := g.fineY + 1#3
    vramAddr := if g.fineY = 7#3 then advanceCoarseY g.vramAddr else g.vramAddr }

/-- The X copy at cycle 257 (60_exceptions R358; log 17). -/
def Gfx.copyX (g : Gfx) : Gfx :=
  { g with vramAddr := mergeBits Config.horizontalBits g.tempAddr g.vramAddr }

/-- The Y copy at cycles 280 to 304 of the pre-render scanline (60_exceptions R358; logs 17, 18). -/
def Gfx.copyY (g : Gfx) : Gfx :=
  { g with
    vramAddr := mergeBits Config.verticalBits g.tempAddr g.vramAddr
    fineY := Config.fineYOf g.tempAddr }

/-- Sprite n of sprite memory (20_memory R124). -/
def Gfx.sprite (g : Gfx) (slot : Nat) : SpriteEntry where
  slot := slot
  y := Cells.read g.oam (4 * slot)
  tile := Cells.read g.oam (4 * slot + 1)
  attributes := Cells.read g.oam (4 * slot + 2)
  x := Cells.read g.oam (4 * slot + 3)

/-- Sprite evaluation at cycle 259 (60_exceptions R359; log 17). That of more sprites in range than a scanline
holds those of the lowest OAM slots are kept is PRESUMED (log 17). -/
def Gfx.evaluateSprites (g : Gfx) : Gfx :=
  let hits := ((List.range 64).map g.sprite).filter fun e => Config.spriteInRange e.y g.scanline g.control
  { g with
    spriteSet := hits.take Config.spriteLimit
    spriteOverflow := g.spriteOverflow || Config.spriteOverflows hits.length }

/-- A colour is opaque when its 2-bit part is not 0 (60_exceptions R361). -/
def isOpaque (colour : BitVec 4) : Bool := colour.extractLsb' 0 2 != 0#2

/-- The background pixel at column x (60_exceptions R361; log 17). That it is 0, transparent, where the tile queue
has no entry at the index is a DESIGN CHOICE (log 17). -/
def Gfx.backgroundPixel (g : Gfx) (x : Nat) : BitVec 4 :=
  if g.flags.showBackground && !(g.flags.hideLeftBackground && decide (x < 8)) then
    g.tileQueue.getD (Config.queueIndex g.fineX) 0#4
  else 0#4

/-- The sprite pixel at column x: the first selected sprite, in slot order, that is opaque there (60_exceptions
R361; of several overlapping sprites the first is PRESUMED, log 17). -/
def Gfx.spritePixel (g : Gfx) (x k : Nat) : Option (SpriteEntry × BitVec 4) :=
  if g.flags.showSprites && !(g.flags.hideLeftSprites && decide (x < 8)) then
    (g.spriteSet.map fun e => (e, Config.spriteColour e x g.scanline k)).find? fun p => isOpaque p.2
  else none

/-- Pixel composition: the palette index shown and whether sprite-zero-hit is set (60_exceptions R361;
log 40). -/
def composePixel (background : BitVec 4) (sprite : Option (SpriteEntry × BitVec 4)) (x : Nat) :
    BitVec 5 × Bool :=
  match isOpaque background, sprite with
  | false, none => (0#5, false)
  | true, none => (0#1 ++ background, false)
  | false, some (_, colour) => (1#1 ++ colour, false)
  | true, some (entry, colour) =>
    (if Config.spriteBehind entry.attributes then 0#1 ++ background else 1#1 ++ colour,
      entry.slot == 0 && decide (x < 255))

/-- The colour of a palette index: bits 5:0 of the palette byte index the 64-entry table (60_exceptions R362;
the reduction of a byte to 6 bits is PRESUMED, log 40; the table is free, log 17). -/
def Gfx.colourOf (g : Gfx) (index : BitVec 5) : BitVec 32 :=
  Config.rgba g.flags.grayscale ((Cells.read g.palette (paletteIndex index.toNat)).extractLsb' 0 6)

/-- Render one pixel into the frame buffers (60_exceptions R360 to R363; log 17). -/
def Gfx.renderPixel (g : Gfx) (k : Nat) : Gfx :=
  let x := (Config.pixelColumn g.cycle).val
  let at' := 256 * g.scanline + x
  let background := g.backgroundPixel x
  let sprite := g.spritePixel x k
  let shown := composePixel background sprite x
  let g := { g with
    spriteZeroHit := g.spriteZeroHit || shown.2
    frame := Cells.write g.frame at' (g.colourOf shown.1) }
  if g.splitOutput then
    { g with
      backgroundFrame := Cells.write g.backgroundFrame at' (g.colourOf (composePixel background none x).1)
      spriteFrame := Cells.write g.spriteFrame at' (g.colourOf (composePixel 0#4 sprite x).1)
      indexFrame := Cells.write g.indexFrame at' (shown.1.setWidth 8) }
  else g

/-- The rendering work of one tick on a pre-render or visible scanline (60_exceptions R354 step 3, R357
to R360). That a visible cycle paints its pixel, then appends the fetched tile, and that the queue is shifted
last, on every rendering cycle, is a DESIGN CHOICE (log 17). -/
def Gfx.render (g : Gfx) (k : Nat) : Gfx :=
  let line := scanlineType g.scanline
  let g' := match cycleType g.cycle with
    | .visible => (if line = ScanlineType.visible then g.renderPixel k else g).fetchTile k
    | .prefetch => g.fetchTile k
    | .xCopy => g.copyX
    | .yIncrement => g.incrementY
    | .spriteEvaluation => g.evaluateSprites
    | .yCopy => if line = ScanlineType.preRender then g.copyY else g
    | .tileDataFlush => { g with tileQueue := [] }
    | .zero | .one | .mapperTick | .idle => g
  { g' with tileQueue := g'.tileQueue.tail }

/-! ### The graphics tick and the driver's inner loop -/

/-- Vblank start (60_exceptions R355). -/
def Gfx.vblankStart (g : Gfx) : Gfx × Option Interrupt :=
  if g.cycle = 1 then ({ g with nmiOccurred := true }, if g.nmiEnable then some .nmi else none)
  else (g, none)

/-- The clear-vblank event, called on the pre-render scanline: at cycle 1 NMI-occurred is cleared, and
frame-ready set if rendering is enabled (60_exceptions R368; log 31). -/
def Gfx.clearVblank (g : Gfx) : Gfx :=
  if g.cycle = 1 then
    { g with nmiOccurred := false, frameReady := g.frameReady || g.renderingEnabled }
  else g

/-- Steps 2 and 3 of a graphics tick: vblank start, or rendering work (60_exceptions R354). -/
def Gfx.lineWork (g : Gfx) (k : Nat) : Gfx × Option Interrupt :=
  match scanlineType g.scanline with
  | .vblankStart => g.vblankStart
  | .preRender => ((if g.renderingEnabled then g.render k else g).clearVblank, none)
  | .visible => (if g.renderingEnabled then g.render k else g, none)
  | .idle => (g, none)

/-- Step 4: the mapper's tick at cycle 340 (60_exceptions R354, R364; 20_memory R112). -/
def Board.mapperWork (b : Board) : Mapper × Bool :=
  if b.gfx.cycle = 340 then b.mapper.tick b.freeCount else (b.mapper, false)

/-- One graphics tick and the request it returns (60_exceptions R354). NMI and IRQ never coincide: one is
raised at cycle 1, the other at cycle 340 (R342). -/
def Board.tick (b : Board) : Board × Option Interrupt :=
  let work := b.gfx.lineWork b.freeCount
  let mapped := b.mapperWork
  ({ gfx := work.1.advance, mapper := mapped.1, freeCount := b.freeCount + 1 },
    if mapped.2 then some .irq else work.2)

/-- Forwarding a request into the pending slot (60_exceptions R341, R342). -/
def forwardRequest (policy : IntSlotPolicy) (slot request : Option Interrupt) : Option Interrupt :=
  match request with
  | none => slot
  | some r =>
    match policy, slot with
    | .nmiWins, some .nmi => some .nmi
    | _, _ => some r

/-- `k` graphics ticks, each followed by forwarding (60_exceptions R340 step 2). -/
def Board.run : Nat → Board → Option Interrupt → Board × Option Interrupt
  | 0, b, slot => (b, slot)
  | k + 1, b, slot =>
    Board.run k b.tick.1 (forwardRequest Config.intSlotPolicy slot b.tick.2)

/-- The consumer's acknowledge (60_exceptions R369, R370). -/
def Gfx.acknowledge (g : Gfx) : Gfx :=
  { g with
    frameReady := false
    spriteOverflow := g.spriteOverflow && !g.flags.showSprites
    spriteZeroHit := g.spriteZeroHit && !g.flags.showSprites
    backgroundFrame := []
    spriteFrame := []
    indexFrame := [] }

/-- Step 3 of the driver's loop: a completed frame is handed over and acknowledged (60_exceptions R340). -/
def Board.relayFrame (b : Board) : Board :=
  if b.gfx.frameReady then { b with gfx := b.gfx.acknowledge } else b

end Sys2Proof.Machine
end

