-- ==== Sys2Proof/Machine/Ops.lean ====
section
/-! DEFINITION. The named operations over memory and registers: the processor's address map
(spec/20_memory.md R80 to R93), OAM DMA (R94 to R99), the stack (R86), and entering and leaving an
exception (spec/60_exceptions.md R320, spec/44_control.md R284, R285). -/

namespace Sys2Proof.Machine

open Sys2Proof

/-- A part of a tick: it may read and change the state, or end the tick with a fault (00_scope R16). -/
abbrev Access (α : Type) := StateT State (Except Fault) α

/-- End the tick with a fault. -/
def raise {α : Type} (f : Fault) : Access α := fun _ => .error f

/-- The outcome of a whole meaning: a fault leaves no next state (60_exceptions R330). -/
def Access.outcome (act : Access Unit) (s : State) : Host.Outcome State Fault Refusal :=
  match act s with
  | .ok (_, t) => .next t
  | .error f => .fault f

/-! ### The address map -/

/-- The RAM offset of an address below 0x2000 (20_memory R81). -/
def ramOffset (addr : Word) : Nat := addr.toNat % 0x800

/-- Store one RAM byte (20_memory R81). -/
def State.writeRam (s : State) (addr : Word) (u : Byte) : State :=
  { s with ram := Cells.write s.ram (ramOffset addr) u }

/-- A read at or above 0x2000, by the rows of 20_memory R80 (R82 to R90; logs 7, 10). -/
def Board.busRead (b : Board) (addr : Word) : Except Fault (Byte × Board) :=
  if addr.toNat < 0x4000 then b.readRegister (GfxRegister.ofAddress addr)
  else if addr.toNat = 0x4015 then
    .ok (Config.audioStatus b.freeCount, { b with freeCount := b.freeCount + 1 })
  else if addr.toNat = 0x4016 then
    .ok (Config.controllerRead b.freeCount, { b with freeCount := b.freeCount + 1 })
  else if addr.toNat < 0x4018 then .ok (0#8, b)
  else if addr.toNat < 0x6000 then .ok (Config.unmappedRead addr, b)
  else match b.mapper.read addr with
    | .ok u => .ok (u, b)
    | .error f => .error f

/-- `MemRead(addr, 1)` (00_scope R13; 20_memory R80). -/
def memRead (addr : Word) : Access Byte := fun s =>
  if addr.toNat < 0x2000 then .ok (Cells.read s.ram (ramOffset addr), s)
  else match s.board.busRead addr with
    | .ok (u, board) => .ok (u, { s with board := board })
    | .error f => .error f

/-- The byte a read would give, without its side effects. -/
def State.peek (s : State) (addr : Word) : Byte :=
  match memRead addr s with
  | .ok (u, _) => u
  | .error _ => 0#8

/-- The copy of an OAM DMA from its byte 256 - k on, in ascending order (20_memory R95, R134). That the OAM
address register holds `oamAddr` all through the copy, where a read of OAM data shows it, is a DESIGN CHOICE
(log 42). -/
def dmaCopy (oamAddr page : Byte) : Nat → Access Unit
  | 0 => pure ()
  | k + 1 => do
    let index := BitVec.ofNat 8 (255 - k)
    let u ← memRead (wordOf index page)
    modify fun s => { s with board := s.board.writeOam (oamAddr + index) u }
    dmaCopy oamAddr page k

/-- OAM DMA: the copy, the OAM address restored, and the stall (20_memory R95, R96). -/
def oamDma (page : Byte) : Access Unit := do
  let start ← get
  let oamAddr := start.board.gfx.oamAddr
  dmaCopy oamAddr page 256
  modify fun s => { s with
    board := { s.board with gfx := { s.board.gfx with oamAddr := oamAddr } }
    stall := s.stall + 513 + s.cycles % 2 }

/-- A write at or above 0x2000 other than the DMA register, by the rows of 20_memory R91. Audio and
controller writes and unmapped writes change no modelled state (R92; log 34). -/
def Board.busWrite (b : Board) (addr : Word) (u : Byte) : Except Fault Board :=
  if addr.toNat < 0x4000 then b.writeRegister (GfxRegister.ofAddress addr) u
  else if addr.toNat < 0x6000 then .ok b
  else .ok { b with mapper := b.mapper.write addr u }

/-- `MemWrite(addr, 1, u)` (00_scope R13; 20_memory R91, R94). -/
def memWrite (addr : Word) (u : Byte) : Access Unit := fun s =>
  if addr.toNat < 0x2000 then .ok ((), s.writeRam addr u)
  else if addr.toNat = 0x4014 then oamDma u s
  else match s.board.busWrite addr u with
    | .ok board => .ok ((), { s with board := board })
    | .error f => .error f

/-- `MemRead16(a)`: little-endian, low byte first (00_scope R13; 20_memory R70). -/
def memRead16 (addr : Word) : Access Word := do
  let lo ← memRead addr
  let hi ← memRead (addr + 1#16)
  pure (wordOf lo hi)

/-- The address after a pointer's low byte, staying in its page (30_encoding R156). -/
def nextInPage (addr : Word) : Word := wordOf (lowByte addr + 1#8) (highByte addr)

/-- `MemRead16Bug(a)`: the form with the page-wrap bug (00_scope R13; 30_encoding R156). -/
def memRead16Bug (addr : Word) : Access Word := do
  let lo ← memRead addr
  let hi ← memRead (nextInPage addr)
  pure (wordOf lo hi)

/-- `PagesDiffer(a, b)` (00_scope R13). -/
def pagesDiffer (a b : Word) : Bool := highByte a != highByte b

/-! ### The stack -/

/-- The address of the stack byte SP names: `0x0100 | SP` (20_memory R86). -/
def stackAddress (sp : Byte) : Word := wordOf sp 0x01#8

/-- `Push(v)` (20_memory R86). -/
def push (u : Byte) : Access Unit := do
  let s ← get
  memWrite (stackAddress s.sp) u
  modify fun t => { t with sp := t.sp - 1#8 }

/-- `Pull()` (20_memory R86). -/
def pull : Access Byte := do
  modify fun s => { s with sp := s.sp + 1#8 }
  let s ← get
  memRead (stackAddress s.sp)

/-- `Push16(w)`: the high byte first (20_memory R86). -/
def push16 (w : Word) : Access Unit := do
  push (highByte w)
  push (lowByte w)

/-- `Pull16()`: the low byte first (00_scope R14). -/
def pull16 : Access Word := do
  let lo ← pull
  let hi ← pull
  pure (wordOf lo hi)

/-! ### Exceptions -/

/-- Taking an exception: push the return address and the flag byte with the given break bit and the
reserved bit set, set I, load PC from the vector (60_exceptions R320, R321, R324; 44_control R284). BRK
and both interrupts use it. -/
def enterException (returnAddress vector : Word) (breakBit : Bool) : Access Unit := do
  push16 returnAddress
  let s ← get
  push (s.packP breakBit true)
  let target ← memRead16 vector
  modify fun t => { t with i := true, pc := target }

/-- Returning from an exception: pull the flag byte, then PC (44_control R285). -/
def leaveException : Access Unit := do
  let flags ← pull
  modify fun s => s.unpackP flags
  let target ← pull16
  modify fun s => { s with pc := target }

end Sys2Proof.Machine
end

