-- ==== Sys2Proof/Machine/Operands.lean ====
section
/-! DEFINITION. Every operand form (spec/30_encoding.md R144 to R158) and the frame every instruction runs
in (spec/40_load_store.md R200, spec/60_exceptions.md R313). -/

namespace Sys2Proof.Machine

open Sys2Proof

/-- The address of a base plus an index, with the page-cross latch set (30_encoding R152, R153, R157). -/
def indexed (base : Word) (index : Byte) : Access Word := fun s =>
  let addr := base + index.setWidth 16
  .ok (addr, { s with extra := pagesDiffer base addr })

/-- Resolve an operand: its effective address, the latch `extra` written (30_encoding R144 to R157). The
operand bytes themselves were read by the fetch (log 29). -/
def resolve (m : Operand) : Access Word := do
  modify fun s => { s with extra := false }
  let s ← get
  match m with
  | .accumulator => pure 0#16
  | .immediate _ => pure (s.pc + 1#16)
  | .zeroPage addr => pure (addr.setWidth 16)
  | .zeroPageX addr => pure ((addr + s.x).setWidth 16)
  | .zeroPageY addr => pure ((addr + s.y).setWidth 16)
  | .absolute addr => pure addr
  | .absoluteX base => indexed base s.x
  | .absoluteY base => indexed base s.y
  | .indirect ptr => memRead16Bug ptr
  | .indexedIndirectX zp => memRead16Bug ((zp + s.x).setWidth 16)
  | .indirectIndexedY zp => do
    let base ← memRead16Bug (zp.setWidth 16)
    indexed base s.y

/-- The target of a relative operand, seen from the opcode's address (30_encoding R158). -/
def relativeTarget (pc : Word) (d : Byte) : Word := pc + 2#16 + d.signExtend 16

/-- Advance PC by the size and add the base cost (60_exceptions R313; 10_state R37). -/
def State.advance (s : State) (size base : Nat) : State :=
  { s with pc := s.pc + BitVec.ofNat 16 size, cycles := s.cycles + base }

/-- The descriptor step of the frame: without a descriptor the tick faults (30_encoding R160;
60_exceptions R313; log 30); otherwise PC advances and the base cost is added. -/
def advancePast (instr : Instr) : Access Unit := fun s =>
  match instr.descriptor? with
  | none => .error (.absentHandler (s.peek s.pc) s.pc)
  | some row => .ok ((), s.advance instr.size row.base)

/-- The frame before the handler of an instruction with an operand: resolve, advance, add the base cost
(60_exceptions R313). It gives the resolved address. -/
def beginOperand (instr : Instr) (m : Operand) : Access Word := do
  let addr ← resolve m
  advancePast instr
  pure addr

/-- The frame of an instruction without an operand: the latch is cleared (30_encoding R144, R145). -/
def beginImplied (instr : Instr) : Access Unit := do
  modify fun s => { s with extra := false }
  advancePast instr

/-- The byte an operand names, read once (30_encoding R147; 40_load_store R207; log 29). -/
def readOperand (m : Operand) (addr : Word) : Access Byte :=
  match m with
  | .immediate u => pure u
  | .accumulator => fun s => .ok (s.a, s)
  | .zeroPage _ | .zeroPageX _ | .zeroPageY _ | .absolute _ | .absoluteX _ | .absoluteY _
  | .indirect _ | .indexedIndirectX _ | .indirectIndexedY _ => memRead addr

/-- `cycles <- cycles + extra`, by the handlers that consult the latch (30_encoding R159). -/
def State.addPageCross (s : State) : State := { s with cycles := s.cycles + s.extra.toNat }

/-! ### The shapes of handlers -/

/-- A handler that reads one byte and then only changes the state with it. -/
def readHandler (instr : Instr) (m : Operand) (use : Byte → State → State) : Access Unit := do
  let addr ← beginOperand instr m
  let u ← readOperand m addr
  modify (use u)

/-- A read handler that consults the page-cross latch (30_encoding R159). -/
def readCrossHandler (instr : Instr) (m : Operand) (use : Byte → State → State) : Access Unit := do
  readHandler instr m use
  modify State.addPageCross

/-- A handler that stores one byte (40_load_store R204 to R206). -/
def storeHandler (instr : Instr) (m : Operand) (value : State → Byte) : Access Unit := do
  let addr ← beginOperand instr m
  let s ← get
  memWrite addr (value s)

/-- A handler that modifies memory with one read and one write and sets Z and N (20_memory R78;
42_arithmetic R238, R241). -/
def modifyHandler (instr : Instr) (m : Operand) (f : Byte → Byte) : Access Unit := do
  let addr ← beginOperand instr m
  let u ← memRead addr
  memWrite addr (f u)
  modify fun s => s.setZN (f u)

/-- A shift or rotate: the result goes back where the operand came from; the carry is the bit shifted out
(43_logic_shift R255 to R259). -/
def shiftHandler (instr : Instr) (m : Operand) (f : Byte → Bool → Byte × Bool) : Access Unit := do
  let addr ← beginOperand instr m
  let u ← readOperand m addr
  let s ← get
  let r := f u s.c
  modify fun t => { t with c := r.2 }
  match m with
  | .accumulator => modify fun t => { t with a := r.1 }
  | .immediate _ | .zeroPage _ | .zeroPageX _ | .zeroPageY _ | .absolute _ | .absoluteX _ | .absoluteY _
  | .indirect _ | .indexedIndirectX _ | .indirectIndexedY _ => memWrite addr r.1
  modify fun t => t.setZN r.1

/-- A handler without an operand that only changes the state. -/
def impliedHandler (instr : Instr) (f : State → State) : Access Unit := do
  beginImplied instr
  modify f

/-- The branch handler: one cycle when taken, one more when the target lies in another page than the
following instruction (44_control R275). -/
def branchHandler (instr : Instr) (d : Byte) (cond : State → Bool) : Access Unit := do
  let s ← get
  let target := relativeTarget s.pc d
  beginImplied instr
  modify fun t =>
    if cond t then
      { t with cycles := t.cycles + 1 + (pagesDiffer t.pc target).toNat, pc := target }
    else t

end Sys2Proof.Machine
end

