-- ==== Sys2Proof/Machine/Arithmetic.lean ====
section
/-! DEFINITION. Add, subtract, compare, increment and decrement (spec/42_arithmetic.md R231 to R243). -/

namespace Sys2Proof.Machine

open Sys2Proof

/-- ADC (R231, R232). -/
def execAdc (m : Operand) (s : State) : Host.Outcome State Fault Refusal :=
  (readCrossHandler (.adc m) m fun u t => t.setAddResult (addWithCarry t.a u t.c)).outcome s

/-- SBC (R233, R232). -/
def execSbc (m : Operand) (s : State) : Host.Outcome State Fault Refusal :=
  (readCrossHandler (.sbc m) m fun u t => t.setAddResult (subWithCarry t.a u t.c)).outcome s

/-- CMP (R235). -/
def execCmp (m : Operand) (s : State) : Host.Outcome State Fault Refusal :=
  (readCrossHandler (.cmp m) m fun u t => t.setCompare t.a u).outcome s

/-- CPX (R236). -/
def execCpx (m : Operand) (s : State) : Host.Outcome State Fault Refusal :=
  (readHandler (.cpx m) m fun u t => t.setCompare t.x u).outcome s

/-- CPY (R237). -/
def execCpy (m : Operand) (s : State) : Host.Outcome State Fault Refusal :=
  (readHandler (.cpy m) m fun u t => t.setCompare t.y u).outcome s

/-- INC (R238). -/
def execInc (m : Operand) (s : State) : Host.Outcome State Fault Refusal :=
  (modifyHandler (.inc m) m fun u => u + 1#8).outcome s

/-- INX (R239). -/
def execInx (s : State) : Host.Outcome State Fault Refusal :=
  (impliedHandler .inx fun t => ({ t with x := t.x + 1#8 }).setZN (t.x + 1#8)).outcome s

/-- INY (R240). -/
def execIny (s : State) : Host.Outcome State Fault Refusal :=
  (impliedHandler .iny fun t => ({ t with y := t.y + 1#8 }).setZN (t.y + 1#8)).outcome s

/-- DEC (R241). -/
def execDec (m : Operand) (s : State) : Host.Outcome State Fault Refusal :=
  (modifyHandler (.dec m) m fun u => u - 1#8).outcome s

/-- DEX (R242). -/
def execDex (s : State) : Host.Outcome State Fault Refusal :=
  (impliedHandler .dex fun t => ({ t with x := t.x - 1#8 }).setZN (t.x - 1#8)).outcome s

/-- DEY (R243). -/
def execDey (s : State) : Host.Outcome State Fault Refusal :=
  (impliedHandler .dey fun t => ({ t with y := t.y - 1#8 }).setZN (t.y - 1#8)).outcome s

end Sys2Proof.Machine
end

