-- ==== Sys2Proof/Machine/Control.lean ====
section
/-! DEFINITION. Control transfer (spec/44_control.md R271 to R285). -/

namespace Sys2Proof.Machine

open Sys2Proof

/-- JMP, absolute (R271) and indirect (R272). -/
def execJmp (m : Operand) (s : State) : Host.Outcome State Fault Refusal :=
  Access.outcome (do
    let target ← beginOperand (.jmp m) m
    modify fun t => { t with pc := target }) s

/-- JSR: pushes the address of its last byte (R273). -/
def execJsr (target : Word) (s : State) : Host.Outcome State Fault Refusal :=
  Access.outcome (do
    let addr ← beginOperand (.jsr target) (.absolute target)
    let t ← get
    push16 (t.pc - 1#16)
    modify fun t => { t with pc := addr }) s

/-- RTS (R274). -/
def execRts (s : State) : Host.Outcome State Fault Refusal :=
  Access.outcome (do
    beginImplied .rts
    let back ← pull16
    modify fun t => { t with pc := back + 1#16 }) s

/-- BCC (R276). -/
def execBcc (d : Byte) (s : State) : Host.Outcome State Fault Refusal :=
  (branchHandler (.bcc d) d fun t => !t.c).outcome s

/-- BCS (R277). -/
def execBcs (d : Byte) (s : State) : Host.Outcome State Fault Refusal :=
  (branchHandler (.bcs d) d fun t => t.c).outcome s

/-- BEQ (R278). -/
def execBeq (d : Byte) (s : State) : Host.Outcome State Fault Refusal :=
  (branchHandler (.beq d) d fun t => t.z).outcome s

/-- BMI (R279). -/
def execBmi (d : Byte) (s : State) : Host.Outcome State Fault Refusal :=
  (branchHandler (.bmi d) d fun t => t.n).outcome s

/-- BNE (R280). -/
def execBne (d : Byte) (s : State) : Host.Outcome State Fault Refusal :=
  (branchHandler (.bne d) d fun t => !t.z).outcome s

/-- BPL (R281). -/
def execBpl (d : Byte) (s : State) : Host.Outcome State Fault Refusal :=
  (branchHandler (.bpl d) d fun t => !t.n).outcome s

/-- BVC (R282). -/
def execBvc (d : Byte) (s : State) : Host.Outcome State Fault Refusal :=
  (branchHandler (.bvc d) d fun t => !t.v).outcome s

/-- BVS (R283). -/
def execBvs (d : Byte) (s : State) : Host.Outcome State Fault Refusal :=
  (branchHandler (.bvs d) d fun t => t.v).outcome s

/-- BRK: the return address is that of the byte after the following one (R284). -/
def execBrk (s : State) : Host.Outcome State Fault Refusal :=
  Access.outcome (do
    beginImplied .brk
    let t ← get
    enterException (t.pc + 1#16) Config.irqVector true) s

/-- RTI (R285). -/
def execRti (s : State) : Host.Outcome State Fault Refusal :=
  Access.outcome (do
    beginImplied .rti
    leaveException) s

end Sys2Proof.Machine
end

