-- ==== Sys2Proof/Machine/LoadStore.lean ====
section
/-! DEFINITION. Loads and stores (spec/40_load_store.md R201 to R206). -/

namespace Sys2Proof.Machine

open Sys2Proof

/-- LDA (R201). -/
def execLda (m : Operand) (s : State) : Host.Outcome State Fault Refusal :=
  (readCrossHandler (.lda m) m fun u t => ({ t with a := u }).setZN u).outcome s

/-- LDX (R202). -/
def execLdx (m : Operand) (s : State) : Host.Outcome State Fault Refusal :=
  (readCrossHandler (.ldx m) m fun u t => ({ t with x := u }).setZN u).outcome s

/-- LDY (R203). -/
def execLdy (m : Operand) (s : State) : Host.Outcome State Fault Refusal :=
  (readCrossHandler (.ldy m) m fun u t => ({ t with y := u }).setZN u).outcome s

/-- STA (R204). -/
def execSta (m : Operand) (s : State) : Host.Outcome State Fault Refusal :=
  (storeHandler (.sta m) m State.a).outcome s

/-- STX (R205). -/
def execStx (m : Operand) (s : State) : Host.Outcome State Fault Refusal :=
  (storeHandler (.stx m) m State.x).outcome s

/-- STY (R206). -/
def execSty (m : Operand) (s : State) : Host.Outcome State Fault Refusal :=
  (storeHandler (.sty m) m State.y).outcome s

end Sys2Proof.Machine
end

