-- ==== Sys2Proof/Machine/Logic.lean ====
section
/-! DEFINITION. Logic, bit test, shifts and rotates (spec/43_logic_shift.md R251 to R258). -/

namespace Sys2Proof.Machine

open Sys2Proof

/-- AND (R251). -/
def execAnd (m : Operand) (s : State) : Host.Outcome State Fault Refusal :=
  (readCrossHandler (.and m) m fun u t => ({ t with a := t.a &&& u }).setZN (t.a &&& u)).outcome s

/-- ORA (R252). -/
def execOra (m : Operand) (s : State) : Host.Outcome State Fault Refusal :=
  (readCrossHandler (.ora m) m fun u t => ({ t with a := t.a ||| u }).setZN (t.a ||| u)).outcome s

/-- EOR (R253). -/
def execEor (m : Operand) (s : State) : Host.Outcome State Fault Refusal :=
  (readCrossHandler (.eor m) m fun u t => ({ t with a := t.a ^^^ u }).setZN (t.a ^^^ u)).outcome s

/-- BIT (R254). -/
def execBit (m : Operand) (s : State) : Host.Outcome State Fault Refusal :=
  (readHandler (.bit m) m fun u t => t.setBitTest u).outcome s

/-- ASL (R255). -/
def execAsl (m : Operand) (s : State) : Host.Outcome State Fault Refusal :=
  (shiftHandler (.asl m) m shiftLeft).outcome s

/-- LSR (R256). -/
def execLsr (m : Operand) (s : State) : Host.Outcome State Fault Refusal :=
  (shiftHandler (.lsr m) m shiftRight).outcome s

/-- ROL (R257). -/
def execRol (m : Operand) (s : State) : Host.Outcome State Fault Refusal :=
  (shiftHandler (.rol m) m rotateLeft).outcome s

/-- ROR (R258). -/
def execRor (m : Operand) (s : State) : Host.Outcome State Fault Refusal :=
  (shiftHandler (.ror m) m rotateRight).outcome s

end Sys2Proof.Machine
end

