-- ==== Sys2Proof/Machine/System.lean ====
section
/-! DEFINITION. Flag instructions, NOP, the SBC alias and the absent opcodes (spec/45_flags_system.md R291 to
R299, spec/30_encoding.md R165). -/

namespace Sys2Proof.Machine

open Sys2Proof

/-- CLC (R291). -/
def execClc (s : State) : Host.Outcome State Fault Refusal :=
  (impliedHandler .clc fun t => { t with c := false }).outcome s

/-- SEC (R292). -/
def execSec (s : State) : Host.Outcome State Fault Refusal :=
  (impliedHandler .sec fun t => { t with c := true }).outcome s

/-- CLI (R293). -/
def execCli (s : State) : Host.Outcome State Fault Refusal :=
  (impliedHandler .cli fun t => { t with i := false }).outcome s

/-- SEI (R294). -/
def execSei (s : State) : Host.Outcome State Fault Refusal :=
  (impliedHandler .sei fun t => { t with i := true }).outcome s

/-- CLV (R295). -/
def execClv (s : State) : Host.Outcome State Fault Refusal :=
  (impliedHandler .clv fun t => { t with v := false }).outcome s

/-- CLD (R296). -/
def execCld (s : State) : Host.Outcome State Fault Refusal :=
  (impliedHandler .cld fun t => { t with d := false }).outcome s

/-- SED (R297). -/
def execSed (s : State) : Host.Outcome State Fault Refusal :=
  (impliedHandler .sed fun t => { t with d := true }).outcome s

/-- NOP (R298). -/
def execNop (s : State) : Host.Outcome State Fault Refusal :=
  (impliedHandler .nop fun t => t).outcome s

/-- The alias of SBC immediate (R299). -/
def execSbcAlias (value : Byte) (s : State) : Host.Outcome State Fault Refusal :=
  (readHandler (.sbcAlias value) (.immediate value) fun u t => t.setAddResult (subWithCarry t.a u t.c)).outcome s

/-- An absent opcode: the tick ends with the fault AbsentOpcode (30_encoding R165; 60_exceptions R330). -/
def execAbsent (opcode : Byte) (s : State) : Host.Outcome State Fault Refusal :=
  .fault (.absentOpcode opcode s.pc)

end Sys2Proof.Machine
end

