-- ==== Sys2Proof/Machine/TransferStack.lean ====
section
/-! DEFINITION. Register transfers and stack instructions (spec/41_transfer_stack.md R211 to R220). -/

namespace Sys2Proof.Machine

open Sys2Proof

/-- TAX (R211). -/
def execTax (s : State) : Host.Outcome State Fault Refusal :=
  (impliedHandler .tax fun t => ({ t with x := t.a }).setZN t.a).outcome s

/-- TAY (R212). -/
def execTay (s : State) : Host.Outcome State Fault Refusal :=
  (impliedHandler .tay fun t => ({ t with y := t.a }).setZN t.a).outcome s

/-- TXA (R213). -/
def execTxa (s : State) : Host.Outcome State Fault Refusal :=
  (impliedHandler .txa fun t => ({ t with a := t.x }).setZN t.x).outcome s

/-- TYA (R214). -/
def execTya (s : State) : Host.Outcome State Fault Refusal :=
  (impliedHandler .tya fun t => ({ t with a := t.y }).setZN t.y).outcome s

/-- TSX (R215). -/
def execTsx (s : State) : Host.Outcome State Fault Refusal :=
  (impliedHandler .tsx fun t => ({ t with x := t.sp }).setZN t.sp).outcome s

/-- TXS: no flag changes (R216). -/
def execTxs (s : State) : Host.Outcome State Fault Refusal :=
  (impliedHandler .txs fun t => { t with sp := t.x }).outcome s

/-- PHA (R217). -/
def execPha (s : State) : Host.Outcome State Fault Refusal :=
  Access.outcome (do
    beginImplied .pha
    let t ← get
    push t.a) s

/-- PHP: break and reserved bits set (R218). -/
def execPhp (s : State) : Host.Outcome State Fault Refusal :=
  Access.outcome (do
    beginImplied .php
    let t ← get
    push (t.packP true true)) s

/-- PLA (R219). -/
def execPla (s : State) : Host.Outcome State Fault Refusal :=
  Access.outcome (do
    beginImplied .pla
    let u ← pull
    modify fun t => ({ t with a := u }).setZN u) s

/-- PLP (R220). -/
def execPlp (s : State) : Host.Outcome State Fault Refusal :=
  Access.outcome (do
    beginImplied .plp
    let u ← pull
    modify fun t => t.unpackP u) s

end Sys2Proof.Machine
end

