-- ==== Sys2Proof/Machine/Tick.lean ====
section
/-! DEFINITION. The processor's tick in its three forms (spec/60_exceptions.md R310 to R325), the fetch, the
rest of a driver iteration (R340), and placing an instruction where the next fetch reads it. -/

namespace Sys2Proof.Machine

open Sys2Proof

/-- Stall tick (60_exceptions R311). -/
def State.stallTick (s : State) : State := { s with stall := s.stall - 1, cycles := s.cycles + 1 }

/-- Whether a pending interrupt is an IRQ that I masks (60_exceptions R320). -/
def State.masks (s : State) (k : Interrupt) : Bool := k == .irq && s.i

/-- The interrupt this tick has to take, if any: with the policy `holdPending` a masked IRQ stays in the
slot (60_exceptions R310, R322; log 5). -/
def dueInterrupt (policy : MaskedIrqPolicy) (s : State) : Option Interrupt :=
  match s.pending, policy with
  | none, _ => none
  | some k, .drop7Cycles => some k
  | some k, .holdPending => if s.masks k then none else some k

/-- The vector of an interrupt (60_exceptions R321). -/
def Interrupt.vector : Interrupt → Word
  | .nmi => Config.nmiVector
  | .irq => Config.irqVector

/-- The end of an interrupt tick: I set, seven cycles, the slot empty (60_exceptions R320). -/
def State.closeInterrupt (s : State) : State :=
  { s with i := true, cycles := s.cycles + 7, pending := none }

/-- Interrupt tick (60_exceptions R320); a masked IRQ is dropped (R322). -/
def interruptTick (k : Interrupt) : Access Unit := do
  let s ← get
  if s.masks k then pure () else enterException s.pc k.vector false
  modify State.closeInterrupt

/-- Fetch the instruction at PC: the opcode byte, then as many operand bytes as it needs, each read once
(60_exceptions R313; 40_load_store R207; log 29). -/
def fetchInstr : Access Instr := do
  let s ← get
  let opcode ← memRead s.pc
  match instrLength opcode with
  | 0 | 1 => pure (decodeBytes opcode 0#8 0#8)
  | 2 => do
    let b1 ← memRead (s.pc + 1#16)
    pure (decodeBytes opcode b1 0#8)
  | _ => do
    let b1 ← memRead (s.pc + 1#16)
    let b2 ← memRead (s.pc + 2#16)
    pure (decodeBytes opcode b1 b2)

/-- Instruction tick: fetch, then the meaning of what was fetched (60_exceptions R313). -/
def instructionTick (s : State) : Host.Outcome State Fault Refusal :=
  match fetchInstr s with
  | .error f => .fault f
  | .ok (i, t) => exec i t

/-- The processor's tick under a masked-IRQ policy: stall, else interrupt, else instruction
(60_exceptions R310). -/
def tickUnder (policy : MaskedIrqPolicy) (s : State) : Host.Outcome State Fault Refusal :=
  if 0 < s.stall then .next s.stallTick
  else match dueInterrupt policy s with
    | some k => (interruptTick k).outcome s
    | none => instructionTick s

/-- The processor's tick (60_exceptions R310). -/
def tick (s : State) : Host.Outcome State Fault Refusal := tickUnder Config.maskedIrqPolicy s

/-- The rest of a driver iteration after a processor tick of `c` cycles: three graphics ticks per cycle,
requests forwarded, a completed frame relayed (60_exceptions R340; log 1). -/
def State.runPlatform (s : State) (c : Nat) : State :=
  { s with
    pending := (s.board.run (3 * c) s.pending).2
    board := (s.board.run (3 * c) s.pending).1.relayFrame }

/-- One iteration of the driver's loop: the processor's tick, then the platform for as many cycles as the
tick added to the counter (60_exceptions R314, R340; log 1). Without a cartridge no tick may be called
(70_reset_and_hazards R421; log 44). -/
def driverIteration (s : State) : Host.Outcome State Fault Refusal :=
  if s.loaded then
    match tick s with
    | .next t => .next (t.runPlatform (t.cycles - s.cycles))
    | .fault f => .fault f
    | .refused r => .refused r
  else .refused .noCartridge

/-- Place a byte of code where a fetch from `addr` reads it; none where no memory is mapped. -/
def State.placeByte (s : State) (addr : Word) (u : Byte) : Option State :=
  if addr.toNat < 0x2000 then some (s.writeRam addr u)
  else if addr.toNat < 0x6000 then none
  else if addr.toNat < 0x8000 then some { s with board := { s.board with mapper := s.board.mapper.write addr u } }
  else match s.board.mapper.prog.write (addr.toNat - 0x8000) u with
    | .ok prog => some { s with board := { s.board with mapper := { s.board.mapper with prog := prog } } }
    | .error _ => none

/-- Place bytes of code from `addr` on. -/
def State.placeBytes (s : State) (addr : Word) : List Byte → Option State
  | [] => some s
  | u :: rest => (s.placeByte addr u).bind fun t => t.placeBytes (addr + 1#16) rest

/-- The state whose next tick is an instruction tick that fetches the given bytes at PC; where PC names no
memory, PC is moved to the start of RAM (log 2). -/
def State.withCode (s : State) (code : List Byte) : State :=
  let ready := { s with stall := 0, pending := none, loaded := true }
  match ready.placeBytes ready.pc code with
  | some t => t
  | none => (({ ready with pc := 0x0000#16 } : State).placeBytes 0x0000#16 code).getD ready

end Sys2Proof.Machine
end

