-- ==== Sys2Proof/Machine/Step.lean ====
section
/-! DEFINITION. One step of the machine: one iteration of the driver's loop (spec/60_exceptions.md R340;
log 1). -/

namespace Sys2Proof.Machine

open Sys2Proof

/-- One iteration of the driver's loop (60_exceptions R340). -/
def step (s : State) : Host.Outcome State Fault Refusal := driverIteration s

/-- The state with an instruction's bytes stored where `step` fetches its next instruction; the bits of
`w` from `nbits` on count as 0 (log 2). -/
def State.withFetchWord (s : State) (nbits w : Nat) : State :=
  s.withCode [byteOfNat (w % 2 ^ nbits) 0, byteOfNat (w % 2 ^ nbits) 1, byteOfNat (w % 2 ^ nbits) 2]

end Sys2Proof.Machine
end

