-- ==== Sys2Proof/Machine/Cartridge.lean ====
section
/-! DEFINITION. The host's operations between ticks: loading a cartridge (spec/20_memory.md R119, R114),
unload and reset (spec/70_reset_and_hazards.md R400 to R405, R421), and restoring the save-state arrays
(20_memory R120). No step calls them. -/

namespace Sys2Proof.Machine

open Sys2Proof

/-- The variant a mapper id selects (20_memory R114; D29). -/
def variantOfId (id : Nat) : Option Variant :=
  [Variant.fixed, .shiftRegister, .switchable, .scanlineIrq].find? fun v => Config.mapperId v == id

/-- The mirroring mode of header byte 6: bit 3 four-screen, else bit 0 (20_memory R119; log 27). -/
def headerMirroring (byte6 : Byte) : Mirroring :=
  if byte6.getLsbD 3 then .fourScreen else if byte6.getLsbD 0 then .vertical else .horizontal

/-- The mapper id of a cartridge image (20_memory R119). -/
def imageMapperId (image : Memory) : Nat :=
  (Cells.read image 7).toNat / 16 * 16 + (Cells.read image 6).toNat / 16

/-- The header of a cartridge image; an unrecognised mapper id refuses the load (20_memory R119, R114;
60_exceptions R331). -/
def parseHeader (image : Memory) : Except Refusal Header :=
  match variantOfId (imageMapperId image) with
  | none => .error (.unknownMapper (imageMapperId image))
  | some variant => .ok
    { variant := variant
      progBanks := (Cells.read image 4).toNat
      chrBanks := (Cells.read image 5).toNat
      mirroring := headerMirroring (Cells.read image 6)
      pal := (Cells.read image 9).getLsbD 0 }

/-- The mapper constructed from a header and the two byte buffers (70_reset_and_hazards R404; 20_memory
R107, R110; logs 22, 26). Without graphics banks the graphics buffer is 8 KiB of graphics RAM (R119). That
variant A's Bank Memories are fixed and those of the others are not is a DESIGN CHOICE (log 41). -/
def buildMapper (h : Header) (prog chr saveRam : Memory) : Mapper :=
  let whole : BankMemory :=
    { data := prog, size := h.progBanks * 0x4000, windowSize := 0x8000, fixed := h.variant == .fixed,
      pageSize := Config.pageSize, pointers := List.range (0x8000 / Config.pageSize) }
  { header := h
    prog := (whole.switchBank 0x0000 0x4000 0).switchBank 0x4000 0x8000 (h.progBanks - 1)
    chr :=
      { data := chr, size := max h.chrBanks 1 * 0x2000, windowSize := 0x2000, fixed := h.variant == .fixed,
        pageSize := Config.pageSize, pointers := List.range (0x2000 / Config.pageSize) }
    saveRam := saveRam
    mirroring := h.mirroring
    shift := 0#5
    shiftCount := 0
    banking := ⟨false, false, false, false⟩
    counter := 0#8
    latch := 0#8
    reload := false
    irqEnable := false
    bankSelect := 0#8 }

/-- The mapper of a cartridge image (20_memory R119). That save RAM is zero after every load, not only after the
first (70_reset_and_hazards R404), is a DESIGN CHOICE (log 28). -/
def imageMapper (h : Header) (image : Memory) : Mapper :=
  let progEnd := 16 + h.progBanks * 0x4000
  buildMapper h (Cells.slice 16 progEnd image) (Cells.slice progEnd (progEnd + h.chrBanks * 0x2000) image) []

/-- The mapper re-constructed from the same image by a reset; save RAM keeps its contents
(70_reset_and_hazards R404; log 28). -/
def Mapper.rebuilt (m : Mapper) : Mapper :=
  buildMapper m.header m.prog.data (if m.header.chrBanks = 0 then [] else m.chr.data) m.saveRam

/-- The processor's registers after reset, in the order of 70_reset_and_hazards R401, PC last. -/
def resetProcessor : Access Unit := do
  modify fun s => { s with
    a := Config.resetA, x := Config.resetX, y := Config.resetY, sp := Config.resetSp
    c := false, z := false, d := false, v := false, n := false, i := true
    cycles := 0, stall := 0, pending := none, extra := false }
  let target ← memRead16 Config.resetVector
  modify fun s => { s with pc := target }

/-- Reset: mapper, graphics core and processor are replaced; RAM is kept (70_reset_and_hazards R400 to R405).
Without a cartridge there is no image to rebuild the mapper from (R421; log 44). -/
def resetMachine (s : State) : Host.Outcome State Fault Refusal :=
  if s.loaded then
    resetProcessor.outcome
      { s with board := { s.board with gfx := Gfx.reset, mapper := s.board.mapper.rebuilt } }
  else .refused .noCartridge

/-- Load a cartridge image, then reset (70_reset_and_hazards R400). -/
def loadImage (image : Memory) (s : State) : Host.Outcome State Fault Refusal :=
  match parseHeader image with
  | .error r => .refused r
  | .ok h => resetMachine { s with board := { s.board with mapper := imageMapper h image }, loaded := true }

/-- Unload the cartridge: the mapper is destroyed with everything in it, and no tick may be called until a
new load (70_reset_and_hazards R421; log 44). -/
def unloadCartridge (s : State) : State :=
  { s with board := { s.board with mapper := Mapper.blank }, loaded := false }

/-- Power-on with a cartridge image: the first load, RAM all zero (70_reset_and_hazards R403). -/
def powerOn (image : Memory) : Host.Outcome State Fault Refusal :=
  loadImage image { State.reset with ram := [] }

/-- The image of the blank cartridge: two program banks and one graphics bank of zeros (log 2). -/
def blankImage : Memory := [(4, 2#8), (5, 1#8)]

/-- The host restores the save-state arrays between ticks (20_memory R120). -/
def State.restoreArrays (s : State) (ram nametable palette oam : Memory) : State :=
  { s with
    ram := ram
    board := { s.board with gfx := { s.board.gfx with nametable := nametable, palette := palette, oam := oam } } }

end Sys2Proof.Machine
end

