-- ==== Sys2Proof/Machine/Run.lean ====
section
/-! DEFINITION. Runs of the machine: as many ticks as a budget allows, or until a predicate holds, or until a
fault (spec/70_reset_and_hazards.md R420; log 43). One step holds exactly one processor tick. -/

namespace Sys2Proof.Machine

open Sys2Proof

/-- The state after `budget` steps, or the fault that ended the run (70_reset_and_hazards R420). -/
def run : Nat → State → Host.Outcome State Fault Refusal
  | 0, s => .next s
  | budget + 1, s =>
    match step s with
    | .next t => run budget t
    | .fault f => .fault f
    | .refused r => .refused r

/-- The first state at which the predicate holds, or the state after `budget` steps, or the fault that ended
the run (70_reset_and_hazards R420). -/
def runUntil (done : State → Bool) : Nat → State → Host.Outcome State Fault Refusal
  | 0, s => .next s
  | budget + 1, s =>
    if done s then .next s
    else match step s with
      | .next t => runUntil done budget t
      | .fault f => .fault f
      | .refused r => .refused r

/-- Whether the next tick is an instruction tick that leaves PC where it is: a jump to itself, the customary
end of a test program (70_reset_and_hazards R420; log 43). -/
def State.jumpsToItself (s : State) : Bool :=
  s.stall == 0 && s.pending.isNone &&
    match tick s with
    | .next t => t.pc == s.pc
    | _ => false

end Sys2Proof.Machine
end

