-- ==== Sys2Proof/Safety.lean ====
section
/-! DEFINITION. What the claims speak of: the machine's invariant, a byte of the processor's memory read
without side effects, and which state each instruction may write by spec/10_state.md R30 to R33 and R40. -/

namespace Sys2Proof

/-- Canonical form with every index below n. -/
structure Cells.Ok {w : Nat} (n : Nat) (m : Cells w) : Prop where
  wf    : Cells.wf m = true
  below : Cells.below n m = true

namespace Machine

/-- A Bank Memory whose window of the given size is covered by its page pointers, each naming a page
inside the data (20_memory R100, R103; the page size is log 22). -/
structure BankMemory.Ok (window : Nat) (b : BankMemory) : Prop where
  page     : b.pageSize = Config.pageSize
  size     : b.windowSize = window
  covered  : b.pointers.length * b.pageSize = window
  inData   : b.pointers.all (fun p => decide ((p + 1) * b.pageSize ≤ b.size)) = true
  data     : Cells.Ok b.size b.data

/-- The mapper's invariant (20_memory R103 to R105, R108, R119). -/
structure Mapper.Ok (m : Mapper) : Prop where
  prog      : BankMemory.Ok 0x8000 m.prog
  chr       : BankMemory.Ok 0x2000 m.chr
  progSize  : m.prog.size = m.header.progBanks * 0x4000
  chrSize   : m.chr.size = max m.header.chrBanks 1 * 0x2000
  progBanks : 0 < m.header.progBanks
  saveRam   : Cells.Ok 0x2000 m.saveRam
  shift     : m.shiftCount ≤ 4

/-- The graphics core's invariant (60_exceptions R351; 20_memory R122 to R124; 60_exceptions R371). -/
structure Gfx.Ok (g : Gfx) : Prop where
  cycle           : g.cycle ≤ 340
  scanline        : g.scanline ≤ 261
  nametable       : Cells.Ok 0x800 g.nametable
  palette         : Cells.Ok 0x20 g.palette
  oam             : Cells.Ok 0x100 g.oam
  frame           : Cells.Ok 0xF000 g.frame
  backgroundFrame : Cells.Ok 0xF000 g.backgroundFrame
  spriteFrame     : Cells.Ok 0xF000 g.spriteFrame
  indexFrame      : Cells.Ok 0xF000 g.indexFrame

/-- The invariant of everything outside the processor. -/
structure Board.Ok (b : Board) : Prop where
  gfx    : Gfx.Ok b.gfx
  mapper : Mapper.Ok b.mapper

/-- The machine's invariant: every memory in canonical form and inside its array, the raster position
inside its grid, every Bank Memory covered, a cartridge loaded. The register widths of 10_state R35 hold by type. -/
structure State.Inv (s : State) : Prop where
  ram    : Cells.Ok 0x800 s.ram
  board  : Board.Ok s.board
  loaded : s.loaded = true

/-- All that a bus read may change on the board: the write-toggle, NMI-occurred, the read buffer and the
current VRAM address of the graphics core, and the model's count of free values (20_memory R76;
60_exceptions R373 to R375). -/
def Board.ReadsTo (b b' : Board) : Prop :=
  b' = { b with
    gfx := { b.gfx with
      writeToggle := b'.gfx.writeToggle
      nmiOccurred := b'.gfx.nmiOccurred
      readBuffer := b'.gfx.readBuffer
      vramAddr := b'.gfx.vramAddr }
    freeCount := b'.freeCount }

/-- All that a bus read may change of the machine: what it may change on the board. -/
structure State.ReadsTo (s t : State) : Prop where
  processor : t = { s with board := t.board }
  board     : s.board.ReadsTo t.board

/-- All that a bus write may change of the machine: RAM, the board, and the stall counter (by OAM DMA). -/
def State.WritesTo (s t : State) : Prop := t = { s with ram := t.ram, board := t.board, stall := t.stall }

/-- A byte of the processor's plain memory, read without side effects: RAM, save RAM and the program
window (20_memory R80, R81, R105). Addresses of devices hold no byte of their own and read as 0 here. -/
def State.byteAt (s : State) (addr : Word) : Byte :=
  if addr.toNat < 0x2000 then Cells.read s.ram (ramOffset addr)
  else if addr.toNat < 0x6000 then 0#8
  else match s.board.mapper.read addr with
    | .ok u => u
    | .error _ => 0#8

/-- The 16-bit pointer at an address of plain memory (20_memory R70, R87). -/
def State.pointerAt (s : State) (addr : Word) : Word := wordOf (s.byteAt addr) (s.byteAt (addr + 1#16))

/-- The state after a push, in closed form: the byte at 0x0100 | SP, then SP one less (20_memory R86). -/
def State.pushed (s : State) (u : Byte) : State :=
  { s with ram := Cells.write s.ram (0x100 + s.sp.toNat) u, sp := s.sp - 1#8 }

/-- The byte the k-th pull from here reads, in closed form (20_memory R86). -/
def State.stackByte (s : State) (k : Nat) : Byte :=
  Cells.read s.ram (0x100 + (s.sp + BitVec.ofNat 8 k).toNat)

/-- Two addresses naming one byte: equal, or both in RAM and equal modulo its 2048 bytes (20_memory
R81). -/
def sameCell (addr other : Word) : Bool :=
  addr == other || (decide (addr.toNat < 0x2000) && decide (other.toNat < 0x2000)
    && ramOffset addr == ramOffset other)

/-- An operand read of an instruction at a state: the byte read and the state at which its handler goes
on, the operand resolved at the opcode's address, PC advanced and the base cost added (60_exceptions
R313). -/
def ReadsOperand (instr : Instr) (m : Operand) (s : State) (u : Byte) (t : State) : Prop :=
  ∃ addr r row, resolve m s = .ok (addr, r) ∧ instr.descriptor? = some row
    ∧ readOperand m addr (r.advance instr.size row.base) = .ok (u, t)

/-- The effective address of an instruction at a state, and the state at which its handler runs
(60_exceptions R313). -/
def ReachesHandler (instr : Instr) (m : Operand) (s : State) (addr : Word) (t : State) : Prop :=
  ∃ r row, resolve m s = .ok (addr, r) ∧ instr.descriptor? = some row
    ∧ t = r.advance instr.size row.base

/-- An address of plain memory: RAM, save RAM or the program window (20_memory R77). -/
def plainAddress (addr : Word) : Bool := decide (addr.toNat < 0x2000) || decide (0x6000 ≤ addr.toNat)

/-- An operation's rows: it is well formed in exactly the listed modes, and in each its bytes are the opcode
byte listed there and the operand bytes (30_encoding R141, R163). -/
def Encodes (operation : Operand → Instr) (rows : List (Mode × Byte)) : Prop :=
  ∀ m : Operand,
    ((operation m).wf = true ↔ m.mode ∈ rows.map Prod.fst) ∧
    ∀ opcode, (m.mode, opcode) ∈ rows → encode (operation m) = opcode :: m.bytes

/-- The base cycles of an instruction's descriptor (30_encoding R176). -/
def baseCycles (i : Instr) : Option Nat := i.descriptor?.map Descriptor.base

/-- An operation's base cycles: in every mode it has, its descriptor gives the number listed for the mode
(30_encoding R163, R176). -/
def Costs (rows : List (Mode × Nat)) (operation : Operand → Instr) : Prop :=
  ∀ m : Operand, (operation m).wf = true → ∃ base, baseCycles (operation m) = some base ∧ (m.mode, base) ∈ rows

/-- The base cycles of the operations that read one byte (30_encoding R163; log 8). -/
def readCycles : List (Mode × Nat) :=
  [(.immediate, 2), (.zeroPage, 3), (.zeroPageX, 4), (.zeroPageY, 4), (.absolute, 4), (.absoluteX, 4),
    (.absoluteY, 4), (.indexedIndirectX, 6), (.indirectIndexedY, 5)]

/-- The base cycles of the stores (30_encoding R163; log 8). -/
def storeCycles : List (Mode × Nat) :=
  [(.zeroPage, 3), (.zeroPageX, 4), (.zeroPageY, 4), (.absolute, 4), (.absoluteX, 5), (.absoluteY, 5),
    (.indexedIndirectX, 6), (.indirectIndexedY, 6)]

/-- The base cycles of the operations that modify a byte (30_encoding R163; log 8). -/
def modifyCycles : List (Mode × Nat) :=
  [(.accumulator, 2), (.zeroPage, 5), (.zeroPageX, 6), (.absolute, 6), (.absoluteX, 7)]

/-- A branch in closed form: the condition decides between the following instruction at PC + 2 and the
target, which costs one cycle more, or two when it lies in another page than the following instruction
(44_control R275). -/
def State.branched (s : State) (d : Byte) (cond : Bool) : State :=
  let next := s.pc + 2#16
  let target := next + d.signExtend 16
  if cond then
    { s with
      pc := target, extra := false
      cycles := s.cycles + (if next.extractLsb' 8 8 = target.extractLsb' 8 8 then 3 else 4) }
  else { s with pc := next, cycles := s.cycles + 2, extra := false }

/-- A mode that names a byte of memory, as opposed to the accumulator. -/
def memoryOperand : Operand → Bool
  | .accumulator => false
  | .immediate _ | .zeroPage _ | .zeroPageX _ | .zeroPageY _ | .absolute _ | .absoluteX _ | .absoluteY _
  | .indirect _ | .indexedIndirectX _ | .indirectIndexedY _ => true

/-- The instructions that write A (10_state R30). -/
def writesA : Instr → Bool
  | .lda _ | .txa | .tya | .pla | .adc _ | .sbc _ | .sbcAlias _ | .and _ | .ora _ | .eor _ => true
  | .asl m | .lsr m | .rol m | .ror m => !memoryOperand m
  | _ => false

/-- The instructions that write X (10_state R31). -/
def writesX : Instr → Bool
  | .ldx _ | .tax | .tsx | .inx | .dex => true
  | _ => false

/-- The instructions that write Y (10_state R32). -/
def writesY : Instr → Bool
  | .ldy _ | .tay | .iny | .dey => true
  | _ => false

/-- The instructions that write SP (10_state R33). -/
def writesSp : Instr → Bool
  | .txs | .pha | .php | .jsr _ | .brk | .pla | .plp | .rts | .rti => true
  | _ => false

/-- The instructions that write C (10_state R40). -/
def writesC : Instr → Bool
  | .adc _ | .sbc _ | .sbcAlias _ | .cmp _ | .cpx _ | .cpy _ | .asl _ | .lsr _ | .rol _ | .ror _
  | .clc | .sec | .plp | .rti => true
  | _ => false

/-- The instructions that write Z and N (10_state R40). -/
def writesZN : Instr → Bool
  | .lda _ | .ldx _ | .ldy _ | .tax | .tay | .txa | .tya | .tsx | .pla | .adc _ | .sbc _ | .sbcAlias _
  | .and _ | .ora _ | .eor _ | .bit _ | .inc _ | .inx | .iny | .dec _ | .dex | .dey
  | .asl _ | .lsr _ | .rol _ | .ror _ | .cmp _ | .cpx _ | .cpy _ | .plp | .rti => true
  | _ => false

/-- The instructions that write I (10_state R40). -/
def writesI : Instr → Bool
  | .sei | .cli | .brk | .plp | .rti => true
  | _ => false

/-- The instructions that write D (10_state R40). -/
def writesD : Instr → Bool
  | .sed | .cld | .plp | .rti => true
  | _ => false

/-- The instructions that write V (10_state R40). -/
def writesV : Instr → Bool
  | .adc _ | .sbc _ | .sbcAlias _ | .bit _ | .clv | .plp | .rti => true
  | _ => false

/-- The control-flow opcodes: the ones that may overwrite PC (60_exceptions R316). -/
def writesPc : Instr → Bool
  | .jmp _ | .jsr _ | .rts | .rti | .brk
  | .bcc _ | .bcs _ | .beq _ | .bmi _ | .bne _ | .bpl _ | .bvc _ | .bvs _ => true
  | _ => false

/-- The memory destination of an instruction that writes the byte its operand names (40_load_store R204 to
R206; 42_arithmetic R238, R241; 43_logic_shift R255 to R258). -/
def storesTo : Instr → Option Operand
  | .sta m | .stx m | .sty m | .inc m | .dec m => some m
  | .asl m | .lsr m | .rol m | .ror m => if memoryOperand m then some m else none
  | _ => none

/-- How many bytes an instruction pushes (41_transfer_stack R217, R218; 44_control R273, R284). -/
def pushes : Instr → Nat
  | .pha | .php => 1
  | .jsr _ => 2
  | .brk => 3
  | _ => 0

/-- The branch condition of a branch (44_control R276 to R283). -/
def branchTaken : Instr → State → Bool
  | .bcc _, s => !s.c
  | .bcs _, s => s.c
  | .beq _, s => s.z
  | .bne _, s => !s.z
  | .bmi _, s => s.n
  | .bpl _, s => !s.n
  | .bvc _, s => !s.v
  | .bvs _, s => s.v
  | _, _ => false

/-- The operations whose handler consults the page-cross latch (30_encoding R159). -/
def consultsLatch : Instr → Bool
  | .lda _ | .ldx _ | .ldy _ | .adc _ | .sbc _ | .cmp _ | .and _ | .ora _ | .eor _ => true
  | _ => false

end Machine
end Sys2Proof
end

