-- ==== Sys2Proof/Certificates/Slice0/Obligations.lean ====
section
/-! DEFINITION. The statements for the provers. Each docstring names the rule of spec/ it formalises. Where a
statement speaks of every state it assumes the invariant `State.Inv`, which is kept by every step
(`Obligations.StepKeepsInvariant`) and holds after reset (`Obligations.ResetInvariant`). -/

open Sys2Proof Sys2Proof.Machine

/-! ### Reset and loading -/

/-- Reset (70_reset_and_hazards R401 to R405, 10_state R60): the registers take their reset values, PC is the
reset vector, RAM and save RAM are kept, the graphics core is all 0. The values are the spec's own choice D13
(log 3), that RAM is kept its choice D14 (log 4), that save RAM is kept the model's (log 28). -/
def Obligations.ResetRegisters : Prop :=
  ∀ s : State, s.Inv → ∃ t, resetMachine s = .next t ∧ t.Inv ∧
    t.a = 0#8 ∧ t.x = 0#8 ∧ t.y = 0#8 ∧ t.sp = 0xFD#8 ∧
    t.c = false ∧ t.z = false ∧ t.i = true ∧ t.d = false ∧ t.v = false ∧ t.n = false ∧
    t.cycles = 0 ∧ t.stall = 0 ∧ t.pending = none ∧
    t.pc = t.pointerAt 0xFFFC#16 ∧ t.ram = s.ram ∧
    t.board.mapper.saveRam = s.board.mapper.saveRam ∧ t.board.gfx = Gfx.reset

/-- The state after reset satisfies the invariant. -/
def Obligations.ResetInvariant : Prop := State.reset.Inv

/-- Loading a cartridge image with at least one program bank (20_memory R107, R110, R114, R119;
70_reset_and_hazards R404; the low half and the ids are the spec's choices D35 and D29, logs 8 and 26): an
unrecognised mapper id is refused; otherwise the machine starts with the invariant, the low half of the
program window shows program bank 0 and the high half the last program bank. Unloading destroys the mapper
(70_reset_and_hazards R421; the cartridge-less state is log 44): nothing of it is left, neither a step nor a
reset is possible, and a load goes on as from the state before. -/
def Obligations.LoadAndUnloadCartridge : Prop :=
  (∀ (image : Memory) (s : State), s.Inv → Cells.wf image = true → Cells.read image 4 ≠ 0#8 →
    (imageMapperId image ∉ [0, 1, 2, 4] →
      loadImage image s = .refused (.unknownMapper (imageMapperId image))) ∧
    (imageMapperId image ∈ [0, 1, 2, 4] → ∃ t, loadImage image s = .next t ∧ t.Inv ∧
      ∀ k, k < 0x4000 →
        t.byteAt (BitVec.ofNat 16 (0x8000 + k)) = Cells.read image (16 + k) ∧
        t.byteAt (BitVec.ofNat 16 (0xC000 + k)) =
          Cells.read image (16 + ((Cells.read image 4).toNat - 1) * 0x4000 + k))) ∧
  ∀ s : State,
    (∀ m : Mapper, unloadCartridge { s with board := { s.board with mapper := m } } = unloadCartridge s) ∧
    (unloadCartridge s).ram = s.ram ∧ (unloadCartridge s).loaded = false ∧
    step (unloadCartridge s) = .refused .noCartridge ∧
    resetMachine (unloadCartridge s) = .refused .noCartridge ∧
    ∀ image : Memory, loadImage image (unloadCartridge s) = loadImage image s

/-! ### The invariant and the faults -/

/-- Every step keeps the invariant: memories canonical and inside their arrays, the raster position inside
its grid (60_exceptions R351), every Bank Memory covered (20_memory R100, R103). -/
def Obligations.StepKeepsInvariant : Prop :=
  ∀ s t : State, s.Inv → step s = .next t → t.Inv

/-- A step that does not go on has fetched one of the 104 absent opcode bytes; no other fault and no refusal
is reachable under the invariant (60_exceptions R334, R327(d)). R334 leaves the other two faults to the graphics
core and the mapper: that neither occurs rests on the model's 14-bit data port (log 15, DEDUCED) and on its
masked bank numbers (D35, logs 23 to 25). -/
def Obligations.OnlyAbsentOpcodesFault : Prop :=
  ∀ s : State, s.Inv →
    (∃ t, step s = .next t) ∨
    (s.stall = 0 ∧ s.pending = none ∧ ∃ opcode t, memRead s.pc s = .ok (opcode, t) ∧
      absentOpcodes.contains opcode.toNat = true ∧ step s = .fault (.absentOpcode opcode s.pc))

/-- Every instruction of the table with a descriptor completes in every state that satisfies the invariant
(40_load_store R200: no handler faults), and keeps it. A term whose operation has no descriptor for its mode
faults with the byte at PC and PC (00_scope R16, 30_encoding R160; no decoded instruction is such a term, and
that its opcode is the byte at PC is log 30). -/
def Obligations.CompletionAndAbsentHandler : Prop :=
  (∀ (i : Instr) (s : State), s.Inv → i.wf = true → i.present = true → ∃ t, exec i s = .next t ∧ t.Inv) ∧
  ∀ (i : Instr) (s : State), s.Inv → i.wf = false → i.present = true → plainAddress s.pc = true →
    exec i s = .fault (.absentHandler (s.byteAt s.pc) s.pc)

/-! ### Encoding -/

/-- Decoding the bytes of a well-formed instruction gives it back, whatever follows (30_encoding R140, R141,
R163). -/
def Obligations.DecodeEncode : Prop :=
  ∀ (i : Instr) (rest : List Byte), i.wf = true → decode (encode i ++ rest) = .ok (i, rest)

/-- Whatever decodes is a well-formed instruction followed by the rest, and its bytes are the encoder's: no
instruction has two encodings (30_encoding R140, R141, R162). -/
def Obligations.EncodeDecode : Prop :=
  ∀ (bytes rest : List Byte) (i : Instr), decode bytes = .ok (i, rest) →
    i.wf = true ∧ bytes = encode i ++ rest

/-- Words written out from the spec's tables: one of each family (30_encoding R162, R170; 44_control R271,
R272; 45_flags_system R299). -/
def Obligations.DecodedWords : Prop :=
  decode [0xA5#8, 0x10#8] = .ok (.lda (.zeroPage 0x10#8), []) ∧
  decode [0x9D#8, 0x00#8, 0x02#8] = .ok (.sta (.absoluteX 0x0200#16), []) ∧
  decode [0xB6#8, 0xFF#8] = .ok (.ldx (.zeroPageY 0xFF#8), []) ∧
  decode [0x9A#8] = .ok (.txs, []) ∧
  decode [0x71#8, 0x20#8] = .ok (.adc (.indirectIndexedY 0x20#8), []) ∧
  decode [0xC1#8, 0x20#8] = .ok (.cmp (.indexedIndirectX 0x20#8), []) ∧
  decode [0x0A#8] = .ok (.asl .accumulator, []) ∧
  decode [0x6C#8, 0xFF#8, 0x02#8] = .ok (.jmp (.indirect 0x02FF#16), []) ∧
  decode [0xD0#8, 0xF9#8] = .ok (.bne 0xF9#8, []) ∧
  decode [0x58#8] = .ok (.cli, []) ∧
  decode [0xEB#8, 0x03#8] = .ok (.sbcAlias 0x03#8, []) ∧
  decode [0x02#8] = .ok (.absent 0x02#8, [])

/-- The absent bytes are exactly the 104 of the list (30_encoding R164; the spec's choice D1): every other
byte selects a descriptor. -/
def Obligations.AbsentBytes : Prop :=
  absentOpcodes.length = 104 ∧ absentOpcodes.Nodup ∧
  ∀ opcode b1 b2 : Byte,
    (absentOpcodes.contains opcode.toNat = true → decodeBytes opcode b1 b2 = .absent opcode) ∧
    (absentOpcodes.contains opcode.toNat = false →
      (decodeBytes opcode b1 b2).present = true ∧ (decodeBytes opcode b1 b2).descriptor?.isSome = true)

/-- Fetching an absent opcode ends the tick with the fault, which carries the byte and PC and no state
(30_encoding R165). -/
def Obligations.AbsentOpcodeFaults : Prop :=
  (∀ (opcode : Byte) (s : State), exec (.absent opcode) s = .fault (.absentOpcode opcode s.pc)) ∧
  ∀ (s t : State) (opcode : Byte), memRead s.pc s = .ok (opcode, t) →
    absentOpcodes.contains opcode.toNat = true →
    instructionTick s = .fault (.absentOpcode opcode s.pc)

/-- The opcode byte alone decides operation, mode and length, and the length is 1, 2 or 3 (30_encoding
R140). -/
def Obligations.OpcodeDecidesLength : Prop :=
  ∀ opcode b1 b2 : Byte,
    (decodeBytes opcode b1 b2).size = instrLength opcode ∧
    1 ≤ instrLength opcode ∧ instrLength opcode ≤ 3 ∧
    (decodeBytes opcode b1 b2).mode = (decodeBytes opcode 0#8 0#8).mode ∧
    (decodeBytes opcode b1 b2).descriptors = (decodeBytes opcode 0#8 0#8).descriptors ∧
    ∀ rest : List Byte, (∃ p, decode (opcode :: rest) = .ok p) ↔ instrLength opcode ≤ rest.length + 1

/-! ### The tick -/

/-- A step runs the decoded instruction (60_exceptions R313, R340): with no stall and nothing pending, the
step is the meaning of the instruction fetched at PC, followed by the platform's part of the driver
iteration for the cycles it took. Where the bytes at PC lie in plain memory, the instruction is the one they
decode to, and it runs from the state itself. -/
def Obligations.StepRunsDecoded : Prop :=
  ∀ s : State, s.Inv → s.stall = 0 → s.pending = none →
    (∃ i t, fetchInstr s = .ok (i, t) ∧ s.ReadsTo t ∧
      (∀ u, exec i t = .next u → step s = .next (u.runPlatform (u.cycles - s.cycles))) ∧
      (∀ f, exec i t = .fault f → step s = .fault f) ∧
      (∀ r, exec i t = .refused r → step s = .refused r)) ∧
    ∀ (i : Instr) (rest : List Byte),
      plainAddress s.pc = true → plainAddress (s.pc + 1#16) = true → plainAddress (s.pc + 2#16) = true →
      decode [s.byteAt s.pc, s.byteAt (s.pc + 1#16), s.byteAt (s.pc + 2#16)] = .ok (i, rest) →
      (∀ u, exec i s = .next u → step s = .next (u.runPlatform (u.cycles - s.cycles))) ∧
      (∀ f, exec i s = .fault f → step s = .fault f) ∧
      (∀ r, exec i s = .refused r → step s = .refused r)

/-- The three forms of a tick in their order, and the stall tick (60_exceptions R310, R311). -/
def Obligations.TickOrder : Prop :=
  ∀ s : State,
    (0 < s.stall → tick s = .next { s with stall := s.stall - 1, cycles := s.cycles + 1 }) ∧
    (s.stall = 0 → ∀ k, s.pending = some k → tick s = (interruptTick k).outcome s) ∧
    (s.stall = 0 → s.pending = none → tick s = instructionTick s)

/-- Interrupt entry (60_exceptions R320, R321, R324; the pushed bit 5 is the spec's choice D7, log 9): an NMI,
whatever I is, and an IRQ with I = 0 push PC high, PC low and the flag byte with break clear and bit 5 set,
set I, load PC from the vector, cost 7 cycles and empty the slot; nothing else changes. -/
def Obligations.InterruptEntry : Prop :=
  ∀ (s : State) (k : Interrupt), s.Inv → s.stall = 0 → s.pending = some k → (k = .irq → s.i = false) →
    tick s = .next
      { ((s.pushed (s.pc.extractLsb' 8 8)).pushed (s.pc.extractLsb' 0 8)).pushed
          (BitVec.ofBool s.n ++ BitVec.ofBool s.v ++ 1#1 ++ 0#1 ++ BitVec.ofBool s.d ++ BitVec.ofBool s.i
            ++ BitVec.ofBool s.z ++ BitVec.ofBool s.c) with
        i := true
        pc := s.pointerAt (match k with | .nmi => 0xFFFA#16 | .irq => 0xFFFE#16)
        cycles := s.cycles + 7
        pending := none }

/-- A masked IRQ (60_exceptions R322; the spec's choice D8, log 5): under the policy taken the request is lost
and the tick costs 7 cycles; under `holdPending` the tick is an instruction tick. -/
def Obligations.MaskedIrq : Prop :=
  ∀ s : State, s.stall = 0 → s.pending = some .irq → s.i = true →
    tick s = .next { s with cycles := s.cycles + 7, pending := none } ∧
    tickUnder .holdPending s = instructionTick s

/-! ### Frames of the whole instruction set -/

/-- A, X, Y and SP change only by the instructions named for them in 10_state R30 to R33; an instruction never
writes the pending slot, and raises the stall counter only when it stores (10_state R53, R54; 60_exceptions
R312, R397). Each flag changes only by the instructions of its row in 10_state R40. -/
def Obligations.RegisterAndFlagFrame : Prop :=
  (∀ (i : Instr) (s : State), s.Inv → i.wf = true → i.present = true → ∃ t, exec i s = .next t ∧
    (writesA i = false → t.a = s.a) ∧ (writesX i = false → t.x = s.x) ∧
    (writesY i = false → t.y = s.y) ∧ (writesSp i = false → t.sp = s.sp) ∧
    t.pending = s.pending ∧ (storesTo i = none → t.stall = s.stall)) ∧
  ∀ (i : Instr) (s : State), s.Inv → i.wf = true → i.present = true → ∃ t, exec i s = .next t ∧
    (writesC i = false → t.c = s.c) ∧ (writesZN i = false → t.z = s.z ∧ t.n = s.n) ∧
    (writesI i = false → t.i = s.i) ∧ (writesD i = false → t.d = s.d) ∧
    (writesV i = false → t.v = s.v)

/-- PC advances by the encoded size, except for JMP, JSR, RTS, RTI, BRK and the branches when taken
(60_exceptions R316). -/
def Obligations.ProgramCounterAdvance : Prop :=
  ∀ (i : Instr) (s : State), s.Inv → i.wf = true → i.present = true →
    (writesPc i = false ∨ (i.mode = some .relative ∧ branchTaken i s = false)) →
    ∃ t, exec i s = .next t ∧ t.pc - s.pc = BitVec.ofNat 16 i.size

/-- Cycles: the base cost, one more for a read instruction when the latch is set, one more for a taken branch
and one more when its target lies in another page than the following instruction; nothing else. An interrupt
tick costs 7 and a stall tick 1 (30_encoding R177; the read instructions and the branch not taken are the
spec's choices D12 and D32). The base cost of every form is written out from 30_encoding R163 and R176 (the
spec's choice D3, log 8). -/
def Obligations.CycleCost : Prop :=
  (∀ operation ∈ [Instr.lda, Instr.ldx, Instr.ldy, Instr.adc, Instr.sbc, Instr.cmp, Instr.cpx, Instr.cpy,
      Instr.and, Instr.ora, Instr.eor, Instr.bit], Costs readCycles operation) ∧
  (∀ operation ∈ [Instr.sta, Instr.stx, Instr.sty], Costs storeCycles operation) ∧
  (∀ operation ∈ [Instr.inc, Instr.dec, Instr.asl, Instr.lsr, Instr.rol, Instr.ror],
    Costs modifyCycles operation) ∧
  Costs [(.absolute, 3), (.indirect, 5)] Instr.jmp ∧
  (∀ (w : Word) (d : Byte), ∀ p ∈ [(Instr.jsr w, 6), (.rts, 6), (.brk, 7), (.rti, 6), (.pha, 3), (.php, 3),
      (.pla, 4), (.plp, 4), (.sbcAlias d, 2)], baseCycles p.1 = some p.2) ∧
  (∀ (d : Byte), ∀ i ∈ [Instr.tax, .tay, .txa, .tya, .tsx, .txs, .inx, .iny, .dex, .dey, .clc, .sec, .cli, .sei,
      .clv, .cld, .sed, .nop, .bcc d, .bcs d, .beq d, .bmi d, .bne d, .bpl d, .bvc d, .bvs d],
    baseCycles i = some 2) ∧
  (∀ (i : Instr) (s : State), s.Inv → i.wf = true → i.present = true →
    ∃ t row, exec i s = .next t ∧ i.descriptor? = some row ∧
      t.cycles = s.cycles + row.base
        + (if consultsLatch i then t.extra.toNat else 0)
        + (if branchTaken i s then
            1 + (if (s.pc + 2#16).extractLsb' 8 8 = t.pc.extractLsb' 8 8 then 0 else 1)
          else 0)) ∧
  (∀ (k : Interrupt) (s : State), s.Inv →
    ∃ t, interruptTick k s = .ok ((), t) ∧ t.cycles = s.cycles + 7) ∧
  ∀ s : State, 0 < s.stall → ∃ t, tick s = .next t ∧ t.cycles = s.cycles + 1

/-- Memory under an instruction that stores to no operand: every byte outside the bytes it pushes is
unchanged, and the board changes only by what a bus read may change (20_memory R76, R81, R86). -/
def Obligations.MemoryFrame : Prop :=
  ∀ (i : Instr) (s : State), s.Inv → i.wf = true → i.present = true → storesTo i = none →
    ∃ t, exec i s = .next t ∧ s.board.ReadsTo t.board ∧
      ∀ addr : Word,
        (∀ k, k < pushes i → sameCell (stackAddress (s.sp - BitVec.ofNat 8 k)) addr = false) →
        t.byteAt addr = s.byteAt addr

/-- Memory under an instruction that stores to its operand: with `addr` the address its operand resolves to,
every byte that is not the same cell as `addr` is unchanged (a store at or above 0x8000 is a mapper register
write, which on the variants B, C and D may change what the program window shows); the program bytes never
change, the graphics bytes, OAM, nametables and palette only by a store to a graphics register or, for OAM,
to 0x4014 (20_memory R81, R91, R100, R106). -/
def Obligations.StoreFrame : Prop :=
  ∀ (i : Instr) (m : Operand) (s : State), s.Inv → i.wf = true → storesTo i = some m →
    ∃ addr h t, ReachesHandler i m s addr h ∧ exec i s = .next t ∧
      (∀ other : Word, sameCell addr other = false →
        (other.toNat < 0x8000 ∨ addr.toNat < 0x8000 ∨ s.board.mapper.header.variant = .fixed) →
        t.byteAt other = s.byteAt other) ∧
      t.board.mapper.prog.data = s.board.mapper.prog.data ∧
      ((addr.toNat < 0x2000 ∨ 0x4000 ≤ addr.toNat) →
        t.board.mapper.chr.data = s.board.mapper.chr.data ∧
        t.board.gfx.nametable = s.board.gfx.nametable ∧ t.board.gfx.palette = s.board.gfx.palette ∧
        (addr ≠ 0x4014#16 → t.board.gfx.oam = s.board.gfx.oam ∧ t.stall = s.stall))

/-! ### Operands -/

/-- Resolution of every operand form, written out from 30_encoding R147 to R158: the effective address, the
page-cross latch, and nothing else changed (an indirect pointer may lie in a device register, whose reads
have their effects). A 16-bit pointer whose low byte is 0xFF takes its high byte from the start of the page
(R156). -/
def Obligations.EffectiveAddresses : Prop :=
  ∀ s : State,
    resolve .accumulator s = .ok (0#16, { s with extra := false }) ∧
    (∀ u, resolve (.immediate u) s = .ok (s.pc + 1#16, { s with extra := false })) ∧
    (∀ zp, resolve (.zeroPage zp) s = .ok (0#8 ++ zp, { s with extra := false })) ∧
    (∀ zp, resolve (.zeroPageX zp) s = .ok (0#8 ++ (zp + s.x), { s with extra := false })) ∧
    (∀ zp, resolve (.zeroPageY zp) s = .ok (0#8 ++ (zp + s.y), { s with extra := false })) ∧
    (∀ w, resolve (.absolute w) s = .ok (w, { s with extra := false })) ∧
    (∀ w, resolve (.absoluteX w) s = .ok (w + (0#8 ++ s.x),
      { s with extra := decide ((w &&& 0xFF00#16) ≠ ((w + (0#8 ++ s.x)) &&& 0xFF00#16)) })) ∧
    (∀ w, resolve (.absoluteY w) s = .ok (w + (0#8 ++ s.y),
      { s with extra := decide ((w &&& 0xFF00#16) ≠ ((w + (0#8 ++ s.y)) &&& 0xFF00#16)) })) ∧
    (∀ zp, resolve (.indexedIndirectX zp) s = .ok
      (s.byteAt (0#8 ++ (zp + s.x + 1#8)) ++ s.byteAt (0#8 ++ (zp + s.x)), { s with extra := false })) ∧
    (∀ zp, let base := s.byteAt (0#8 ++ (zp + 1#8)) ++ s.byteAt (0#8 ++ zp)
      resolve (.indirectIndexedY zp) s = .ok (base + (0#8 ++ s.y),
        { s with extra := decide ((base &&& 0xFF00#16) ≠ ((base + (0#8 ++ s.y)) &&& 0xFF00#16)) })) ∧
    (∀ ptr lo hi s1 s2, memRead ptr { s with extra := false } = .ok (lo, s1) →
      memRead ((ptr &&& 0xFF00#16) ||| ((ptr + 1#16) &&& 0x00FF#16)) s1 = .ok (hi, s2) →
      resolve (.indirect ptr) s = .ok (hi ++ lo, s2)) ∧
    ∀ (pc : Word) (d : Byte), (relativeTarget pc d).toNat =
      (if d.toNat < 0x80 then pc.toNat + 2 + d.toNat else pc.toNat + 2 + d.toNat + (65536 - 256)) % 65536

/-- What an operand read gives and what it leaves: an immediate value or A is the operand itself, a byte of
plain memory is that byte; PC has advanced by the size and the base cost is added; besides the latch only what
bus reads may change on the board has changed (60_exceptions R313; 40_load_store R200; 20_memory R76). -/
def Obligations.OperandReads : Prop :=
  ∀ (i : Instr) (m : Operand) (s t : State) (u : Byte), ReadsOperand i m s u t →
    s.board.ReadsTo t.board ∧
    (∃ row, i.descriptor? = some row ∧
      t = { s with
        pc := s.pc + BitVec.ofNat 16 i.size, cycles := s.cycles + row.base
        extra := t.extra, board := t.board }) ∧
    (m = .accumulator → u = s.a) ∧
    (∀ value, m = .immediate value → u = value) ∧
    ∀ addr r, resolve m s = .ok (addr, r) → t.extra = r.extra ∧
      (m.mode ≠ .accumulator → m.mode ≠ .immediate → plainAddress addr = true → s.Inv →
        u = s.byteAt addr)

/-! ### Loads and stores -/

/-- LDA, LDX, LDY in every form: the byte read goes to the register, Z and N follow it, the latch adds its
cycle; the state is otherwise that after the operand read (40_load_store, Loads). -/
def Obligations.Loads : Prop :=
  Encodes .lda [(.immediate, 0xA9#8), (.zeroPage, 0xA5#8), (.zeroPageX, 0xB5#8), (.absolute, 0xAD#8),
    (.absoluteX, 0xBD#8), (.absoluteY, 0xB9#8), (.indexedIndirectX, 0xA1#8), (.indirectIndexedY, 0xB1#8)] ∧
  Encodes .ldx [(.immediate, 0xA2#8), (.zeroPage, 0xA6#8), (.zeroPageY, 0xB6#8), (.absolute, 0xAE#8),
    (.absoluteY, 0xBE#8)] ∧
  Encodes .ldy [(.immediate, 0xA0#8), (.zeroPage, 0xA4#8), (.zeroPageX, 0xB4#8), (.absolute, 0xAC#8),
    (.absoluteX, 0xBC#8)] ∧
  ∀ (m : Operand) (s : State), s.Inv →
    ((Instr.lda m).wf = true → ∃ u t, ReadsOperand (.lda m) m s u t ∧
      exec (.lda m) s = .next
        { t with a := u, z := u == 0#8, n := u.msb, cycles := t.cycles + t.extra.toNat }) ∧
    ((Instr.ldx m).wf = true → ∃ u t, ReadsOperand (.ldx m) m s u t ∧
      exec (.ldx m) s = .next
        { t with x := u, z := u == 0#8, n := u.msb, cycles := t.cycles + t.extra.toNat }) ∧
    ((Instr.ldy m).wf = true → ∃ u t, ReadsOperand (.ldy m) m s u t ∧
      exec (.ldy m) s = .next
        { t with y := u, z := u == 0#8, n := u.msb, cycles := t.cycles + t.extra.toNat })

/-- STA, STX, STY in every form: one write of the register at the effective address, no flag and no latch
(40_load_store, Stores). -/
def Obligations.Stores : Prop :=
  Encodes .sta [(.zeroPage, 0x85#8), (.zeroPageX, 0x95#8), (.absolute, 0x8D#8), (.absoluteX, 0x9D#8),
    (.absoluteY, 0x99#8), (.indexedIndirectX, 0x81#8), (.indirectIndexedY, 0x91#8)] ∧
  Encodes .stx [(.zeroPage, 0x86#8), (.zeroPageY, 0x96#8), (.absolute, 0x8E#8)] ∧
  Encodes .sty [(.zeroPage, 0x84#8), (.zeroPageX, 0x94#8), (.absolute, 0x8C#8)] ∧
  ∀ (m : Operand) (s : State), s.Inv →
    ((Instr.sta m).wf = true → ∃ addr h t, ReachesHandler (.sta m) m s addr h ∧
      memWrite addr s.a h = .ok ((), t) ∧ exec (.sta m) s = .next t) ∧
    ((Instr.stx m).wf = true → ∃ addr h t, ReachesHandler (.stx m) m s addr h ∧
      memWrite addr s.x h = .ok ((), t) ∧ exec (.stx m) s = .next t) ∧
    ((Instr.sty m).wf = true → ∃ addr h t, ReachesHandler (.sty m) m s addr h ∧
      memWrite addr s.y h = .ok ((), t) ∧ exec (.sty m) s = .next t)

/-- What a bus write does, by address (20_memory R91, R92, R106; the table is the spec's choice D16, log 34; the
registers of the mapper have the statements ShiftRegisterWrites, SwitchableWrites and
ScanlineRegistersAndCounter, 0x4014 has OamDma). A write at 0x2000 to 0x3FFF writes the graphics register of
number address mod 8 (R82; 60_exceptions R372, R374, R376; the numbers are the spec's choice D28): control sets
NMI-enable and nothing else (its bit is PRESUMED, that the temporary address stays a DESIGN CHOICE, log 13),
mask the rendering flags (free layout, log 13), a status write does nothing (log 12), OAM address and OAM data
as named (the increment is PRESUMED, log 32), scroll and address writes fill in two phases two parts of the
temporary address that share no bit, scroll writes also of fine-X, and keep the rest (which bits, and what of
the byte, is free, that the parts share no bit DEDUCED, that an address write leaves fine-X a DESIGN CHOICE, log
13), the second address write copies it (fine-Y: log 18), and the data port stores at the current address and
steps it by 1 or 32 (logs 14 and 15). -/
def Obligations.WriteDispatch : Prop :=
  (∀ (addr : Word) (u : Byte) (s : State), s.Inv →
    (addr.toNat < 0x2000 →
      memWrite addr u s = .ok ((), { s with ram := Cells.write s.ram (addr.toNat % 0x800) u })) ∧
    (0x2000 ≤ addr.toNat → addr.toNat < 0x4000 →
      ∃ b, memWrite addr u s = .ok ((), { s with board := b }) ∧
        b.mapper = { s.board.mapper with chr := b.mapper.chr } ∧ b.freeCount = s.board.freeCount) ∧
    (0x4000 ≤ addr.toNat → addr.toNat < 0x6000 → addr ≠ 0x4014#16 → memWrite addr u s = .ok ((), s)) ∧
    (0x6000 ≤ addr.toNat → addr.toNat < 0x8000 →
      memWrite addr u s = .ok ((), { s with board := { s.board with mapper := { s.board.mapper with
        saveRam := Cells.write s.board.mapper.saveRam (addr.toNat - 0x6000) u } } })) ∧
    (0x8000 ≤ addr.toNat →
      (s.board.mapper.header.variant = .fixed → memWrite addr u s = .ok ((), s)) ∧
      ∃ b, memWrite addr u s = .ok ((), { s with board := b }) ∧ b.gfx = s.board.gfx ∧
        b.mapper.saveRam = s.board.mapper.saveRam ∧ b.mapper.prog.data = s.board.mapper.prog.data)) ∧
  ∀ (addr : Word) (u : Byte) (s : State), s.Inv → 0x2000 ≤ addr.toNat → addr.toNat < 0x4000 →
    let g := s.board.gfx
    let gives (g' : Gfx) : Prop :=
      memWrite addr u s = .ok ((), { s with board := { s.board with gfx := g' } })
    let fill (w : Nat) (bits : Bool → BitVec w) (new old : BitVec w) : BitVec w :=
      let part := if g.writeToggle then bits true &&& ~~~bits false else bits false
      (old &&& ~~~part) ||| (new &&& part)
    (addr.toNat % 8 = 0 → gives { g with control := u, nmiEnable := u.getLsbD 7 }) ∧
    (addr.toNat % 8 = 1 → gives { g with flags := Config.maskFlags u }) ∧
    (addr.toNat % 8 = 2 → memWrite addr u s = .ok ((), s)) ∧
    (addr.toNat % 8 = 3 → gives { g with oamAddr := u }) ∧
    (addr.toNat % 8 = 4 → gives
      { g with oam := Cells.write g.oam g.oamAddr.toNat u, oamAddr := g.oamAddr + 1#8 }) ∧
    (addr.toNat % 8 = 5 → gives
      { g with
        tempAddr := fill 15 Config.scrollBits (Config.scrollTemp g.writeToggle u) g.tempAddr
        fineX := fill 3 Config.scrollFineXBits (Config.scrollFineX g.writeToggle u) g.fineX
        writeToggle := !g.writeToggle }) ∧
    (addr.toNat % 8 = 6 →
      let temp := fill 15 Config.addressBits (Config.addressTemp g.writeToggle u) g.tempAddr
      (g.writeToggle = false → gives { g with tempAddr := temp, writeToggle := true }) ∧
      (g.writeToggle = true → gives
        { g with tempAddr := temp, vramAddr := temp, fineY := Config.fineYOf temp, writeToggle := false })) ∧
    (addr.toNat % 8 = 7 → ∃ b, s.board.graphicsWrite (g.vramAddr.toNat % 0x4000) u = .ok b ∧
      memWrite addr u s = .ok ((), { s with board := { b with gfx := { b.gfx with
        vramAddr := g.vramAddr + (if Config.incrementBy32 g.control then 32#15 else 1#15) } } }))

/-! ### Transfers and the stack -/

/-- TAX, TAY, TXA, TYA, TSX (41_transfer_stack R211 to R215). -/
def Obligations.Transfers : Prop :=
  encode .tax = [0xAA#8] ∧ encode .tay = [0xA8#8] ∧ encode .txa = [0x8A#8] ∧ encode .tya = [0x98#8] ∧
  encode .tsx = [0xBA#8] ∧
  ∀ s : State,
    exec .tax s = .next { s with
      x := s.a, z := s.a == 0#8, n := s.a.msb, pc := s.pc + 1#16, cycles := s.cycles + 2, extra := false } ∧
    exec .tay s = .next { s with
      y := s.a, z := s.a == 0#8, n := s.a.msb, pc := s.pc + 1#16, cycles := s.cycles + 2, extra := false } ∧
    exec .txa s = .next { s with
      a := s.x, z := s.x == 0#8, n := s.x.msb, pc := s.pc + 1#16, cycles := s.cycles + 2, extra := false } ∧
    exec .tya s = .next { s with
      a := s.y, z := s.y == 0#8, n := s.y.msb, pc := s.pc + 1#16, cycles := s.cycles + 2, extra := false } ∧
    exec .tsx s = .next { s with
      x := s.sp, z := s.sp == 0#8, n := s.sp.msb, pc := s.pc + 1#16, cycles := s.cycles + 2, extra := false }

/-- TXS, PHA, PHP, PLA, PLP (41_transfer_stack, Transfers and Pushes and pulls; the stack's page and direction
and the flag byte's layout are the spec's choices D4 and D5, log 9). -/
def Obligations.StackInstructions : Prop :=
  encode .txs = [0x9A#8] ∧ encode .pha = [0x48#8] ∧ encode .php = [0x08#8] ∧ encode .pla = [0x68#8] ∧
  encode .plp = [0x28#8] ∧
  ∀ s : State,
    exec .txs s = .next { s with
      sp := s.x, pc := s.pc + 1#16, cycles := s.cycles + 2, extra := false } ∧
    exec .pha s = .next { s.pushed s.a with
      pc := s.pc + 1#16, cycles := s.cycles + 3, extra := false } ∧
    exec .php s = .next
      { s.pushed (BitVec.ofBool s.n ++ BitVec.ofBool s.v ++ 1#1 ++ 1#1 ++ BitVec.ofBool s.d
          ++ BitVec.ofBool s.i ++ BitVec.ofBool s.z ++ BitVec.ofBool s.c) with
        pc := s.pc + 1#16, cycles := s.cycles + 3, extra := false } ∧
    (let u := s.byteAt (0x01#8 ++ (s.sp + 1#8));
      exec .pla s = .next { s with
        a := u, z := u == 0#8, n := u.msb, sp := s.sp + 1#8
        pc := s.pc + 1#16, cycles := s.cycles + 4, extra := false }) ∧
    (let u := s.byteAt (0x01#8 ++ (s.sp + 1#8));
      exec .plp s = .next { s with
        n := u.getLsbD 7, v := u.getLsbD 6, d := u.getLsbD 3
        i := u.getLsbD 2, z := u.getLsbD 1, c := u.getLsbD 0, sp := s.sp + 1#8
        pc := s.pc + 1#16, cycles := s.cycles + 4, extra := false })

/-! ### Arithmetic -/

/-- ADC in every form (42_arithmetic R231). -/
def Obligations.AddWithCarry : Prop :=
  Encodes .adc [(.immediate, 0x69#8), (.zeroPage, 0x65#8), (.zeroPageX, 0x75#8), (.absolute, 0x6D#8),
    (.absoluteX, 0x7D#8), (.absoluteY, 0x79#8), (.indexedIndirectX, 0x61#8), (.indirectIndexedY, 0x71#8)] ∧
  ∀ (m : Operand) (s : State), s.Inv → (Instr.adc m).wf = true →
    ∃ u t, ReadsOperand (.adc m) m s u t ∧
      let sum := s.a.toNat + u.toNat + s.c.toNat
      let r := BitVec.ofNat 8 sum
      exec (.adc m) s = .next
        { t with
          a := r, c := decide (0xFF < sum)
          v := ((~~~(s.a ^^^ u)) &&& (s.a ^^^ r) &&& 0x80#8) != 0#8
          z := r == 0#8, n := r.msb, cycles := t.cycles + t.extra.toNat }

/-- The decimal flag has no effect: ADC and SBC give the same state with D set and with D clear, but for D
itself (42_arithmetic R232). -/
def Obligations.DecimalIgnored : Prop :=
  ∀ (m : Operand) (s : State) (d : Bool), s.Inv →
    ((Instr.adc m).wf = true → ∃ t, exec (.adc m) s = .next t ∧
      exec (.adc m) { s with d := d } = .next { t with d := d }) ∧
    ((Instr.sbc m).wf = true → ∃ t, exec (.sbc m) s = .next t ∧
      exec (.sbc m) { s with d := d } = .next { t with d := d })

/-- SBC in every form, and the alias 0xEB, which is SBC immediate (42_arithmetic, Add and subtract with carry;
45_flags_system R299; the carry, V and the alias byte rest on the spec's choices D17 and D2, log 8). -/
def Obligations.SubtractWithCarry : Prop :=
  Encodes .sbc [(.immediate, 0xE9#8), (.zeroPage, 0xE5#8), (.zeroPageX, 0xF5#8), (.absolute, 0xED#8),
    (.absoluteX, 0xFD#8), (.absoluteY, 0xF9#8), (.indexedIndirectX, 0xE1#8), (.indirectIndexedY, 0xF1#8)] ∧
  (∀ (m : Operand) (s : State), s.Inv → (Instr.sbc m).wf = true →
    ∃ u t, ReadsOperand (.sbc m) m s u t ∧
      let diff : Int := (s.a.toNat : Int) - u.toNat - (1 - s.c.toNat)
      let r := BitVec.ofInt 8 diff
      exec (.sbc m) s = .next
        { t with
          a := r, c := decide (0 ≤ diff)
          v := ((s.a ^^^ u) &&& (s.a ^^^ r) &&& 0x80#8) != 0#8
          z := r == 0#8, n := r.msb, cycles := t.cycles + t.extra.toNat }) ∧
  ∀ (value : Byte) (s : State), encode (.sbcAlias value) = [0xEB#8, value] ∧
    (∃ t, exec (.sbc (.immediate value)) s = .next t ∧ exec (.sbcAlias value) s = .next t)

/-- CMP, CPX, CPY in every form (42_arithmetic, Compare). -/
def Obligations.Compares : Prop :=
  Encodes .cmp [(.immediate, 0xC9#8), (.zeroPage, 0xC5#8), (.zeroPageX, 0xD5#8), (.absolute, 0xCD#8),
    (.absoluteX, 0xDD#8), (.absoluteY, 0xD9#8), (.indexedIndirectX, 0xC1#8), (.indirectIndexedY, 0xD1#8)] ∧
  Encodes .cpx [(.immediate, 0xE0#8), (.zeroPage, 0xE4#8), (.absolute, 0xEC#8)] ∧
  Encodes .cpy [(.immediate, 0xC0#8), (.zeroPage, 0xC4#8), (.absolute, 0xCC#8)] ∧
  ∀ (m : Operand) (s : State), s.Inv →
    ((Instr.cmp m).wf = true → ∃ u t, ReadsOperand (.cmp m) m s u t ∧
      exec (.cmp m) s = .next
        { t with
          c := decide (u.toNat ≤ s.a.toNat), z := decide (s.a = u), n := (s.a - u).msb
          cycles := t.cycles + t.extra.toNat }) ∧
    ((Instr.cpx m).wf = true → ∃ u t, ReadsOperand (.cpx m) m s u t ∧
      exec (.cpx m) s = .next
        { t with c := decide (u.toNat ≤ s.x.toNat), z := decide (s.x = u), n := (s.x - u).msb }) ∧
    ((Instr.cpy m).wf = true → ∃ u t, ReadsOperand (.cpy m) m s u t ∧
      exec (.cpy m) s = .next
        { t with c := decide (u.toNat ≤ s.y.toNat), z := decide (s.y = u), n := (s.y - u).msb })

/-- INC and DEC in every form: one read, one write, Z and N (42_arithmetic R238, R241). -/
def Obligations.IncrementDecrementMemory : Prop :=
  Encodes .inc [(.zeroPage, 0xE6#8), (.zeroPageX, 0xF6#8), (.absolute, 0xEE#8), (.absoluteX, 0xFE#8)] ∧
  Encodes .dec [(.zeroPage, 0xC6#8), (.zeroPageX, 0xD6#8), (.absolute, 0xCE#8), (.absoluteX, 0xDE#8)] ∧
  ∀ (m : Operand) (s : State), s.Inv →
    ((Instr.inc m).wf = true → ∃ addr h u h' t, ReachesHandler (.inc m) m s addr h ∧
      memRead addr h = .ok (u, h') ∧ memWrite addr (u + 1#8) h' = .ok ((), t) ∧
      exec (.inc m) s = .next { t with z := (u + 1#8) == 0#8, n := (u + 1#8).msb }) ∧
    ((Instr.dec m).wf = true → ∃ addr h u h' t, ReachesHandler (.dec m) m s addr h ∧
      memRead addr h = .ok (u, h') ∧ memWrite addr (u - 1#8) h' = .ok ((), t) ∧
      exec (.dec m) s = .next { t with z := (u - 1#8) == 0#8, n := (u - 1#8).msb })

/-- INX, INY, DEX, DEY (42_arithmetic R239, R240, R242, R243). -/
def Obligations.IncrementDecrementIndex : Prop :=
  encode .inx = [0xE8#8] ∧ encode .iny = [0xC8#8] ∧ encode .dex = [0xCA#8] ∧ encode .dey = [0x88#8] ∧
  ∀ s : State,
    exec .inx s = .next { s with
      x := s.x + 1#8, z := (s.x + 1#8) == 0#8, n := (s.x + 1#8).msb
      pc := s.pc + 1#16, cycles := s.cycles + 2, extra := false } ∧
    exec .iny s = .next { s with
      y := s.y + 1#8, z := (s.y + 1#8) == 0#8, n := (s.y + 1#8).msb
      pc := s.pc + 1#16, cycles := s.cycles + 2, extra := false } ∧
    exec .dex s = .next { s with
      x := s.x - 1#8, z := (s.x - 1#8) == 0#8, n := (s.x - 1#8).msb
      pc := s.pc + 1#16, cycles := s.cycles + 2, extra := false } ∧
    exec .dey s = .next { s with
      y := s.y - 1#8, z := (s.y - 1#8) == 0#8, n := (s.y - 1#8).msb
      pc := s.pc + 1#16, cycles := s.cycles + 2, extra := false }

/-- What ADC, SBC and the comparisons compute, over the integers: C is the carry out of the sum and the
absence of a borrow, V is signed overflow, the value wraps mod 256 (42_arithmetic R244, R245). SBC is ADC of the
complement, and SBC with the opposite carry undoes ADC (42_arithmetic R234, R246; both are the spec's derived
laws, 90_conflicts C2 and C3). -/
def Obligations.ArithmeticLaws : Prop :=
  (∀ (a m : Byte) (carry : Bool),
    (let r := addWithCarry a m carry;
      r.value.toNat = (a.toNat + m.toNat + carry.toNat) % 256 ∧
      (r.carry = true ↔ 256 ≤ a.toNat + m.toNat + carry.toNat) ∧
      (r.overflow = true ↔
        a.toInt + m.toInt + carry.toNat < -128 ∨ 127 < a.toInt + m.toInt + carry.toNat)) ∧
    (let r := subWithCarry a m carry;
      (r.value.toNat : Int) = ((a.toNat : Int) - m.toNat - (1 - carry.toNat)) % 256 ∧
      (r.carry = true ↔ m.toNat + (1 - carry.toNat) ≤ a.toNat) ∧
      (r.overflow = true ↔
        a.toInt - m.toInt - (1 - carry.toNat) < -128 ∨ 127 < a.toInt - m.toInt - (1 - carry.toNat)))) ∧
  ∀ (a m : Byte) (carry : Bool),
    subWithCarry a m carry = addWithCarry a (m ^^^ 0xFF#8) carry ∧
    (let r := addWithCarry a m carry;
      (subWithCarry r.value m (!carry)).value = a ∧
      (subWithCarry r.value m (!carry)).carry = !r.carry)

/-! ### Logic and shifts -/

/-- AND, ORA, EOR in every form (43_logic_shift R251 to R253). -/
def Obligations.LogicalOperations : Prop :=
  Encodes .and [(.immediate, 0x29#8), (.zeroPage, 0x25#8), (.zeroPageX, 0x35#8), (.absolute, 0x2D#8),
    (.absoluteX, 0x3D#8), (.absoluteY, 0x39#8), (.indexedIndirectX, 0x21#8), (.indirectIndexedY, 0x31#8)] ∧
  Encodes .ora [(.immediate, 0x09#8), (.zeroPage, 0x05#8), (.zeroPageX, 0x15#8), (.absolute, 0x0D#8),
    (.absoluteX, 0x1D#8), (.absoluteY, 0x19#8), (.indexedIndirectX, 0x01#8), (.indirectIndexedY, 0x11#8)] ∧
  Encodes .eor [(.immediate, 0x49#8), (.zeroPage, 0x45#8), (.zeroPageX, 0x55#8), (.absolute, 0x4D#8),
    (.absoluteX, 0x5D#8), (.absoluteY, 0x59#8), (.indexedIndirectX, 0x41#8), (.indirectIndexedY, 0x51#8)] ∧
  ∀ (m : Operand) (s : State), s.Inv →
    ((Instr.and m).wf = true → ∃ u t, ReadsOperand (.and m) m s u t ∧
      exec (.and m) s = .next
        { t with
          a := s.a &&& u, z := (s.a &&& u) == 0#8, n := (s.a &&& u).msb
          cycles := t.cycles + t.extra.toNat }) ∧
    ((Instr.ora m).wf = true → ∃ u t, ReadsOperand (.ora m) m s u t ∧
      exec (.ora m) s = .next
        { t with
          a := s.a ||| u, z := (s.a ||| u) == 0#8, n := (s.a ||| u).msb
          cycles := t.cycles + t.extra.toNat }) ∧
    ((Instr.eor m).wf = true → ∃ u t, ReadsOperand (.eor m) m s u t ∧
      exec (.eor m) s = .next
        { t with
          a := s.a ^^^ u, z := (s.a ^^^ u) == 0#8, n := (s.a ^^^ u).msb
          cycles := t.cycles + t.extra.toNat })

/-- BIT in both forms: Z tests A and m, V and N copy bits 6 and 7 of m (43_logic_shift R254). -/
def Obligations.BitTest : Prop :=
  Encodes .bit [(.zeroPage, 0x24#8), (.absolute, 0x2C#8)] ∧
  ∀ (m : Operand) (s : State), s.Inv → (Instr.bit m).wf = true →
    ∃ u t, ReadsOperand (.bit m) m s u t ∧
      exec (.bit m) s = .next
        { t with z := (s.a &&& u) == 0#8, v := u.getLsbD 6, n := u.getLsbD 7 }

/-- ASL, LSR, ROL, ROR on A and on memory (43_logic_shift R255 to R258). The results are written bit by bit:
`{m[6:0], 0}`, `{0, m[7:1]}`, `{m[6:0], C}`, `{C, m[7:1]}`. -/
def Obligations.ShiftsAndRotates : Prop :=
  Encodes .asl [(.accumulator, 0x0A#8), (.zeroPage, 0x06#8), (.zeroPageX, 0x16#8), (.absolute, 0x0E#8),
    (.absoluteX, 0x1E#8)] ∧
  Encodes .lsr [(.accumulator, 0x4A#8), (.zeroPage, 0x46#8), (.zeroPageX, 0x56#8), (.absolute, 0x4E#8),
    (.absoluteX, 0x5E#8)] ∧
  Encodes .rol [(.accumulator, 0x2A#8), (.zeroPage, 0x26#8), (.zeroPageX, 0x36#8), (.absolute, 0x2E#8),
    (.absoluteX, 0x3E#8)] ∧
  Encodes .ror [(.accumulator, 0x6A#8), (.zeroPage, 0x66#8), (.zeroPageX, 0x76#8), (.absolute, 0x6E#8),
    (.absoluteX, 0x7E#8)] ∧
  (∀ s : State, ∃ ra rl rol ror : Byte,
    ra = s.a.extractLsb' 0 7 ++ 0#1 ∧ rl = 0#1 ++ s.a.extractLsb' 1 7 ∧
    rol = s.a.extractLsb' 0 7 ++ BitVec.ofBool s.c ∧ ror = BitVec.ofBool s.c ++ s.a.extractLsb' 1 7 ∧
    exec (.asl .accumulator) s = .next { s with
      a := ra, c := s.a.getLsbD 7, z := ra == 0#8, n := ra.msb
      pc := s.pc + 1#16, cycles := s.cycles + 2, extra := false } ∧
    exec (.lsr .accumulator) s = .next { s with
      a := rl, c := s.a.getLsbD 0, z := rl == 0#8, n := false
      pc := s.pc + 1#16, cycles := s.cycles + 2, extra := false } ∧
    exec (.rol .accumulator) s = .next { s with
      a := rol, c := s.a.getLsbD 7, z := rol == 0#8, n := rol.msb
      pc := s.pc + 1#16, cycles := s.cycles + 2, extra := false } ∧
    exec (.ror .accumulator) s = .next { s with
      a := ror, c := s.a.getLsbD 0, z := ror == 0#8, n := s.c
      pc := s.pc + 1#16, cycles := s.cycles + 2, extra := false }) ∧
  ∀ (m : Operand) (s : State), s.Inv → m ≠ .accumulator →
    ((Instr.asl m).wf = true → ∃ addr h u h' t r, ReachesHandler (.asl m) m s addr h ∧
      memRead addr h = .ok (u, h') ∧ r = u.extractLsb' 0 7 ++ 0#1 ∧
      memWrite addr r { h' with c := u.getLsbD 7 } = .ok ((), t) ∧
      exec (.asl m) s = .next { t with z := r == 0#8, n := r.msb }) ∧
    ((Instr.lsr m).wf = true → ∃ addr h u h' t r, ReachesHandler (.lsr m) m s addr h ∧
      memRead addr h = .ok (u, h') ∧ r = 0#1 ++ u.extractLsb' 1 7 ∧
      memWrite addr r { h' with c := u.getLsbD 0 } = .ok ((), t) ∧
      exec (.lsr m) s = .next { t with z := r == 0#8, n := false }) ∧
    ((Instr.rol m).wf = true → ∃ addr h u h' t r, ReachesHandler (.rol m) m s addr h ∧
      memRead addr h = .ok (u, h') ∧ r = u.extractLsb' 0 7 ++ BitVec.ofBool s.c ∧
      memWrite addr r { h' with c := u.getLsbD 7 } = .ok ((), t) ∧
      exec (.rol m) s = .next { t with z := r == 0#8, n := r.msb }) ∧
    ((Instr.ror m).wf = true → ∃ addr h u h' t r, ReachesHandler (.ror m) m s addr h ∧
      memRead addr h = .ok (u, h') ∧ r = BitVec.ofBool s.c ++ u.extractLsb' 1 7 ∧
      memWrite addr r { h' with c := u.getLsbD 0 } = .ok ((), t) ∧
      exec (.ror m) s = .next { t with z := r == 0#8, n := s.c })

/-! ### Control transfer -/

/-- JMP absolute and indirect (44_control R271, R272): the indirect target's low byte is read at the pointer,
its high byte at the next address within the pointer's page. -/
def Obligations.Jumps : Prop :=
  Encodes .jmp [(.absolute, 0x4C#8), (.indirect, 0x6C#8)] ∧
  (∀ (w : Word) (s : State), exec (.jmp (.absolute w)) s = .next { s with
    pc := w, cycles := s.cycles + 3, extra := false }) ∧
  ∀ (ptr : Word) (s : State), s.Inv → ∃ lo hi h h',
    memRead ptr { s with extra := false } = .ok (lo, h) ∧
    memRead ((ptr &&& 0xFF00#16) ||| ((ptr + 1#16) &&& 0x00FF#16)) h = .ok (hi, h') ∧
    exec (.jmp (.indirect ptr)) s = .next { h' with pc := hi ++ lo, cycles := s.cycles + 5 }

/-- JSR pushes the address of its own last byte, high byte first, and RTS goes to the pulled address plus 1
(44_control, Jumps and subroutines; the stack order is the spec's choice D5, log 9). -/
def Obligations.SubroutineCallAndReturn : Prop :=
  ∀ s : State,
    (∀ w : Word, encode (.jsr w) = [0x20#8, w.extractLsb' 0 8, w.extractLsb' 8 8] ∧
      exec (.jsr w) s = .next
        { (s.pushed ((s.pc + 2#16).extractLsb' 8 8)).pushed ((s.pc + 2#16).extractLsb' 0 8) with
          pc := w, cycles := s.cycles + 6, extra := false }) ∧
    encode .rts = [0x60#8] ∧
    exec .rts s = .next { s with
      pc := (s.byteAt (0x01#8 ++ (s.sp + 2#8)) ++ s.byteAt (0x01#8 ++ (s.sp + 1#8))) + 1#16
      sp := s.sp + 2#8, cycles := s.cycles + 6, extra := false }

/-- The eight branches and their conditions (44_control R276 to R283; that a branch not taken costs its base 2 is
the spec's choice D32). -/
def Obligations.Branches : Prop :=
  ∀ (d : Byte) (s : State),
    (encode (.bcc d) = [0x90#8, d] ∧ exec (.bcc d) s = .next (s.branched d (s.c == false))) ∧
    (encode (.bcs d) = [0xB0#8, d] ∧ exec (.bcs d) s = .next (s.branched d (s.c == true))) ∧
    (encode (.beq d) = [0xF0#8, d] ∧ exec (.beq d) s = .next (s.branched d (s.z == true))) ∧
    (encode (.bmi d) = [0x30#8, d] ∧ exec (.bmi d) s = .next (s.branched d (s.n == true))) ∧
    (encode (.bne d) = [0xD0#8, d] ∧ exec (.bne d) s = .next (s.branched d (s.z == false))) ∧
    (encode (.bpl d) = [0x10#8, d] ∧ exec (.bpl d) s = .next (s.branched d (s.n == false))) ∧
    (encode (.bvc d) = [0x50#8, d] ∧ exec (.bvc d) s = .next (s.branched d (s.v == false))) ∧
    (encode (.bvs d) = [0x70#8, d] ∧ exec (.bvs d) s = .next (s.branched d (s.v == true)))

/-- BRK pushes the address two after its own and the flag byte with break and reserved set, sets I and goes
through the vector 0xFFFE; RTI pulls the flag byte, then PC (44_control R284, R285; BRK's size and the flag
byte's layout are the spec's choices D10 and D4, log 9). -/
def Obligations.SoftwareInterruptAndReturn : Prop :=
  encode .brk = [0x00#8] ∧ encode .rti = [0x40#8] ∧
  (∀ s : State, s.Inv → exec .brk s = .next
    { ((s.pushed ((s.pc + 2#16).extractLsb' 8 8)).pushed ((s.pc + 2#16).extractLsb' 0 8)).pushed
        (BitVec.ofBool s.n ++ BitVec.ofBool s.v ++ 1#1 ++ 1#1 ++ BitVec.ofBool s.d ++ BitVec.ofBool s.i
          ++ BitVec.ofBool s.z ++ BitVec.ofBool s.c) with
      i := true, pc := s.pointerAt 0xFFFE#16, cycles := s.cycles + 7, extra := false }) ∧
  ∀ s : State,
    let u := s.byteAt (0x01#8 ++ (s.sp + 1#8))
    exec .rti s = .next { s with
      n := u.getLsbD 7, v := u.getLsbD 6, d := u.getLsbD 3
      i := u.getLsbD 2, z := u.getLsbD 1, c := u.getLsbD 0
      pc := s.byteAt (0x01#8 ++ (s.sp + 3#8)) ++ s.byteAt (0x01#8 ++ (s.sp + 2#8))
      sp := s.sp + 3#8, cycles := s.cycles + 6, extra := false }

/-! ### Flags and no operation -/

/-- CLC, SEC, CLV (45_flags_system R291, R292, R295). -/
def Obligations.CarryAndOverflowInstructions : Prop :=
  encode .clc = [0x18#8] ∧ encode .sec = [0x38#8] ∧ encode .clv = [0xB8#8] ∧
  ∀ s : State,
    exec .clc s = .next { s with c := false, pc := s.pc + 1#16, cycles := s.cycles + 2, extra := false } ∧
    exec .sec s = .next { s with c := true, pc := s.pc + 1#16, cycles := s.cycles + 2, extra := false } ∧
    exec .clv s = .next { s with v := false, pc := s.pc + 1#16, cycles := s.cycles + 2, extra := false }

/-- CLI, SEI, CLD, SED and NOP (45_flags_system, rules R293, R294, R296 to R298). -/
def Obligations.InterruptDecimalAndNop : Prop :=
  encode .cli = [0x58#8] ∧ encode .sei = [0x78#8] ∧ encode .cld = [0xD8#8] ∧ encode .sed = [0xF8#8] ∧
  encode .nop = [0xEA#8] ∧
  ∀ s : State,
    exec .cli s = .next { s with i := false, pc := s.pc + 1#16, cycles := s.cycles + 2, extra := false } ∧
    exec .sei s = .next { s with i := true, pc := s.pc + 1#16, cycles := s.cycles + 2, extra := false } ∧
    exec .cld s = .next { s with d := false, pc := s.pc + 1#16, cycles := s.cycles + 2, extra := false } ∧
    exec .sed s = .next { s with d := true, pc := s.pc + 1#16, cycles := s.cycles + 2, extra := false } ∧
    exec .nop s = .next { s with pc := s.pc + 1#16, cycles := s.cycles + 2, extra := false }

/-! ### Laws of the stack -/

/-- A pushed byte is stored at 0x0100 | SP and nowhere else, and PHA then PLA, PHP then PLP restore what they
saved (20_memory R86, 41_transfer_stack R221, R222). -/
def Obligations.StackLaws : Prop :=
  ∀ s : State, s.Inv →
    (∀ (u : Byte) (addr : Word), (s.pushed u).byteAt addr =
      if sameCell (0x01#8 ++ s.sp) addr then u else s.byteAt addr) ∧
    (∃ t u, exec .pha s = .next t ∧ exec .pla t = .next u ∧
      u.a = s.a ∧ u.sp = s.sp ∧ u.z = (s.a == 0#8) ∧ u.n = s.a.msb) ∧
    (∃ t u, exec .php s = .next t ∧ exec .plp t = .next u ∧ u.sp = s.sp ∧
      u.n = s.n ∧ u.v = s.v ∧ u.d = s.d ∧ u.i = s.i ∧ u.z = s.z ∧ u.c = s.c)

/-- JSR then RTS goes on after the JSR with SP restored; BRK then RTI goes on two bytes after the BRK, an
interrupt entry then RTI where it was interrupted, both with SP and all six flags restored (44_control
R288, the spec's derived laws). -/
def Obligations.ReturnLaws : Prop :=
  ∀ s : State, s.Inv →
    (∀ w : Word, ∃ t u, exec (.jsr w) s = .next t ∧ exec .rts t = .next u ∧
      u.pc = s.pc + 3#16 ∧ u.sp = s.sp) ∧
    (∃ t u, exec .brk s = .next t ∧ exec .rti t = .next u ∧ u.pc = s.pc + 2#16 ∧ u.sp = s.sp ∧
      u.n = s.n ∧ u.v = s.v ∧ u.d = s.d ∧ u.i = s.i ∧ u.z = s.z ∧ u.c = s.c) ∧
    ∀ k : Interrupt, s.masks k = false →
      ∃ t u, (interruptTick k).outcome s = .next t ∧ exec .rti t = .next u ∧ u.pc = s.pc ∧ u.sp = s.sp ∧
        u.n = s.n ∧ u.v = s.v ∧ u.d = s.d ∧ u.i = s.i ∧ u.z = s.z ∧ u.c = s.c

/-! ### Memory -/

/-- RAM and its mirrors: addresses below 0x2000 that agree modulo 0x800 name one byte, others different bytes;
a read changes nothing (20_memory R81). -/
def Obligations.RamMirrors : Prop :=
  ∀ (s : State) (a b : Word) (u : Byte), s.Inv → a.toNat < 0x2000 → b.toNat < 0x2000 →
    ∃ t w, memWrite a u s = .ok ((), t) ∧ t = { s with ram := t.ram } ∧
      memRead b s = .ok (w, s) ∧
      memRead b t = .ok (if a.toNat % 0x800 = b.toNat % 0x800 then u else w, t)

/-- The reads of the device rows besides the graphics registers: 0x4000 to 0x4013 (20_memory R88), 0x4014, 0x4017
(R85) and 0x4018 to 0x5FFF read as 0 and change nothing (0x4014 and 0x4018 to 0x5FFF are the spec's choice D15,
log 7); 0x4015 and 0x4016 answer, and change only the count of free values (R84, R85; log 10). -/
def Obligations.DeviceReads : Prop :=
  (∀ (s : State) (addr : Word), 0x4000 ≤ addr.toNat → addr.toNat ≤ 0x4013 →
    memRead addr s = .ok (0#8, s)) ∧
  ∀ (s : State) (addr : Word),
    ((addr = 0x4014#16 ∨ addr = 0x4017#16 ∨ (0x4018 ≤ addr.toNat ∧ addr.toNat < 0x6000)) →
      memRead addr s = .ok (0#8, s)) ∧
    ((addr = 0x4015#16 ∨ addr = 0x4016#16) → ∃ u, memRead addr s = .ok (u,
      { s with board := { s.board with freeCount := s.board.freeCount + 1 } }))

/-- OAM DMA: a write to 0x4014 copies page v into OAM from the OAM address on, wrapping in the table, leaves
the OAM address, and adds 513 cycles of stall, 514 when the cycle counter is odd; no register, no flag, not PC
(20_memory R95, R96). Besides OAM only what bus reads may change on the board changes (R99). From a page of
plain memory byte k of the page lands at OAM address + k, and nothing but OAM changes on the board. -/
def Obligations.OamDma : Prop :=
  ∀ (s : State) (page : Byte), s.Inv →
    ∃ t, memWrite 0x4014#16 page s = .ok ((), t) ∧
      t = { s with board := t.board, stall := s.stall + (if s.cycles % 2 = 1 then 514 else 513) } ∧
      t.board.gfx.oamAddr = s.board.gfx.oamAddr ∧
      ({ s.board with gfx := { s.board.gfx with oam := t.board.gfx.oam } } : Board).ReadsTo t.board ∧
      ((page.toNat < 0x20 ∨ 0x60 ≤ page.toNat) →
        t.board = { s.board with gfx := { s.board.gfx with oam := t.board.gfx.oam } } ∧
        ∀ k : Byte, Cells.read t.board.gfx.oam (s.board.gfx.oamAddr + k).toNat = s.byteAt (page ++ k))

/-- `switchBank`: it fills the page pointers of its window with the pages of the bank, leaves the others and
the data alone, is idempotent, and afterwards the window reads the bank (20_memory R102). -/
def Obligations.SwitchBank : Prop :=
  ∀ (b : BankMemory) (w0 w1 n : Nat), 0 < b.pageSize → b.pageSize ∣ w0 → b.pageSize ∣ w1 →
    w0 ≤ w1 → w1 ≤ b.pointers.length * b.pageSize →
    let b' := b.switchBank w0 w1 n
    let p0 := w0 / b.pageSize
    let len := w1 / b.pageSize - p0
    b'.switchBank w0 w1 n = b' ∧ b'.data = b.data ∧ b'.pointers.length = b.pointers.length ∧
    (∀ j, j < len → b'.pointers[p0 + j]? = some (n * len + j)) ∧
    (∀ j, j < p0 ∨ p0 + len ≤ j → b'.pointers[j]? = b.pointers[j]?) ∧
    ∀ k, k < w1 - w0 → w1 ≤ b.windowSize → n * (w1 - w0) + k < b.size →
      b'.read (w0 + k) = .ok (Cells.read b.data (n * (w1 - w0) + k))

/-- Variant B's register. Its reset write: bit 7 empties the shift register and fixes both program banks,
whatever the register held; its tick does nothing (20_memory R109; the fields are log 23). Its serial writes
(R108; which bit enters at which end, what an address selects and what a control value sets are free, log 23): a
write with bit 7 clear accumulates one bit; the fifth dispatches the five accumulated bits by its address and
empties the register. -/
def Obligations.ShiftRegisterWrites : Prop :=
  (∀ (m : Mapper) (addr : Word) (u : Byte), m.header.variant = .shiftRegister → 0x8000 ≤ addr.toNat →
    u.getLsbD 7 = true →
    m.write addr u = { m with
      shift := 0#5, shiftCount := 0
      banking := { m.banking with lowFixed := true, highFixed := true } } ∧
    ∀ k, m.tick k = (m, false)) ∧
  (∀ (m : Mapper) (addr : Word) (u : Byte), m.header.variant = .shiftRegister → 0x8000 ≤ addr.toNat →
    u.getLsbD 7 = false → m.shiftCount < 4 →
    m.write addr u = { m with shift := shiftIn m.shift u, shiftCount := m.shiftCount + 1 }) ∧
  ∀ (m : Mapper) (addrs : Fin 5 → Word) (us : Fin 5 → Byte), m.header.variant = .shiftRegister →
    m.shift = 0#5 → m.shiftCount = 0 → (∀ k, 0x8000 ≤ (addrs k).toNat) → (∀ k, (us k).getLsbD 7 = false) →
    ∃ value : BitVec 5,
      (∀ k : Fin 5, value.getLsbD (if Config.shiftFromTop then k else 4 - k.val) = (us k).getLsbD Config.shiftBit) ∧
      ((((m.write (addrs 0) (us 0)).write (addrs 1) (us 1)).write (addrs 2) (us 2)).write
        (addrs 3) (us 3)).write (addrs 4) (us 4) = m.applyShift (Config.shiftTarget (addrs 4)) value

/-- Variant C's register write (20_memory R110; the remainder is the spec's choice D35, log 24): the low half of
the program window shows bank v mod the number of banks, the high half is as before, and nothing else of the
machine changes. -/
def Obligations.SwitchableWrites : Prop :=
  ∀ (addr : Word) (u : Byte) (s : State), s.Inv → s.board.mapper.header.variant = .switchable →
    0x8000 ≤ addr.toNat → ∃ t prog, memWrite addr u s = .ok ((), t) ∧ t.Inv ∧
      t = { s with board := { s.board with mapper := { s.board.mapper with prog := prog } } } ∧
      prog.data = s.board.mapper.prog.data ∧
      ∀ k, k < 0x4000 →
        t.byteAt (BitVec.ofNat 16 (0x8000 + k)) =
          Cells.read prog.data (u.toNat % s.board.mapper.header.progBanks * 0x4000 + k) ∧
        t.byteAt (BitVec.ofNat 16 (0xC000 + k)) = s.byteAt (BitVec.ofNat 16 (0xC000 + k))

/-- Variant D. Its registers (20_memory R111, R116; which address selects which register and what the bank
select and the bank data do are the model's choices, log 25). Its scanline counter (R111; that a reload takes the
latch, that from 0 it takes a free value, its 8 bits and the free filter are the model's choices, log 25): a
clock with a reload request loads the latch and every further clock counts down by 1; an IRQ is requested only
with interrupts enabled and the counter at 0, and a clock changes nothing but the counter and the request. -/
def Obligations.ScanlineRegistersAndCounter : Prop :=
  (∀ (m : Mapper) (addr : Word) (u : Byte), m.header.variant = .scanlineIrq → 0x8000 ≤ addr.toNat →
    match Config.scanlineRegister addr with
    | .latch => m.write addr u = { m with latch := u }
    | .reload => m.write addr u = { m with reload := true }
    | .irqDisable => m.write addr u = { m with irqEnable := false }
    | .irqEnable => m.write addr u = { m with irqEnable := true }
    | .bankSelect => m.write addr u = { m with bankSelect := u }
    | .mirroring => m.write addr u = { m with mirroring := Config.scanlineMirroring u }
    | .none => m.write addr u = m
    | .bankData => ∃ w, m.write addr u = { m with prog := m.prog.switchWindow w } ∨
        m.write addr u = { m with chr := m.chr.switchWindow w }) ∧
  (∀ (m : Mapper) (k : Nat), m.header.variant = .scanlineIrq →
    (m.tick k).1 = { m with counter := (m.tick k).1.counter, reload := false } ∧
    (m.reload = false → m.counter ≠ 0#8 → (m.tick k).1.counter.toNat = m.counter.toNat - 1) ∧
    ((m.tick k).2 = true → m.irqEnable = true ∧ (m.tick k).1.counter = 0#8) ∧
    (m.irqEnable = true → (m.tick k).1.counter = 0#8 → (m.tick k).2 = Config.scanlineFilter k)) ∧
  ∀ (m : Mapper) (k : Nat) (ks : List Nat), m.header.variant = .scanlineIrq → m.reload = true →
    ks.length ≤ m.latch.toNat →
    (ks.foldl (fun m' j => (m'.tick j).1) (m.tick k).1).counter.toNat = m.latch.toNat - ks.length

/-! ### The graphics core -/

/-- The graphics core requests an NMI exactly at scanline 241, cycle 1 with NMI output enabled, and sets
NMI-occurred there; a register write requests none (60_exceptions R355). The mapper's tick is called exactly at
cycle 340, on every scanline and whether or not rendering is enabled (the cadence is the spec's choice D27); its
true result is the IRQ request, and only variant D's can be true (60_exceptions R364; 20_memory R113). -/
def Obligations.InterruptRequests : Prop :=
  ((∀ b : Board,
    (b.tick.2 = some .nmi ↔ b.gfx.scanline = 241 ∧ b.gfx.cycle = 1 ∧ b.gfx.nmiEnable = true) ∧
    (b.gfx.scanline = 241 → b.gfx.cycle = 1 → b.tick.1.gfx.nmiOccurred = true)) ∧
  ∀ (s : State) (addr : Word) (u : Byte), s.Inv →
    ∃ t, memWrite addr u s = .ok ((), t) ∧ t.pending = s.pending) ∧
  (∀ b : Board,
    (b.gfx.cycle = 340 → b.tick.1.mapper = (b.mapper.tick b.freeCount).1) ∧
    (b.gfx.cycle ≠ 340 → b.tick.1.mapper = b.mapper) ∧
    (b.tick.2 = some .irq ↔ b.gfx.cycle = 340 ∧ (b.mapper.tick b.freeCount).2 = true)) ∧
  ∀ (m : Mapper) (k : Nat), m.header.variant ≠ .scanlineIrq → m.tick k = (m, false)

/-- Forwarding (60_exceptions R340 step 2, R341, R342): after each graphics tick its request, if any, is written
into the pending slot; an occupied slot is overwritten (the spec's choice D9, log 6), where the other policy
would keep an NMI. -/
def Obligations.Forwarding : Prop :=
  (∀ (b : Board) (slot : Option Interrupt) (k : Nat), b.run 0 slot = (b, slot) ∧
    b.run (k + 1) slot =
      ((b.run k slot).1.tick.1, match (b.run k slot).1.tick.2 with
        | some r => some r
        | none => (b.run k slot).2)) ∧
  (∀ s t : State, s.Inv → tick s = .next t → ∃ u, step s = .next u ∧
    u.pending = (t.board.run (3 * (t.cycles - s.cycles)) t.pending).2) ∧
  ∀ r : Interrupt, forwardRequest .nmiWins (some .nmi) (some r) = some .nmi ∧
    forwardRequest .nmiWins (some .irq) (some r) = some r ∧ forwardRequest .nmiWins none (some r) = some r

/-- With rendering and NMI output disabled and a mapper other than variant D, 341 × 262 graphics ticks from
(0, 0) return to (0, 0) with no request and no completed frame (60_exceptions R367 with the preconditions of
90_conflicts C14). -/
def Obligations.RasterReturns : Prop :=
  ∀ (b : Board) (slot : Option Interrupt), b.gfx.cycle = 0 → b.gfx.scanline = 0 →
    b.gfx.flags.showBackground = false → b.gfx.flags.showSprites = false → b.gfx.nmiEnable = false →
    b.mapper.header.variant ≠ .scanlineIrq →
    (b.run (341 * 262) slot).2 = slot ∧
    (b.run (341 * 262) slot).1.gfx.cycle = 0 ∧ (b.run (341 * 262) slot).1.gfx.scanline = 0 ∧
    (b.run (341 * 262) slot).1.gfx.frameReady = b.gfx.frameReady

/-- A bus read at 0x2000 to 0x3FFF reads the graphics register of number address mod 8 (20_memory R82;
60_exceptions R372; the numbers are the spec's choice D28): 2 is the status read and 7 the data port, which has a
statement of its own, 4 gives the byte at the OAM address and changes nothing (PRESUMED, log 32), and a write-only
register answers and changes only the count of free values (log 12). A status read clears the write-toggle and
NMI-occurred and nothing else of the graphics core; the byte's bits 7, 6, 5 are NMI-occurred (0 at scanline 241,
cycle 2), sprite-zero-hit and sprite-overflow (60_exceptions R373; the bit positions are customary, log 11). -/
def Obligations.GraphicsRegisterReads : Prop :=
  (∀ b : Board, ∃ u b', b.readRegister .status = .ok (u, b') ∧
    b'.gfx = { b.gfx with writeToggle := false, nmiOccurred := false } ∧ b'.mapper = b.mapper ∧
    u.getLsbD 7 = (b.gfx.nmiOccurred && !decide (b.gfx.scanline = 241 ∧ b.gfx.cycle = 2)) ∧
    u.getLsbD 6 = b.gfx.spriteZeroHit ∧ u.getLsbD 5 = b.gfx.spriteOverflow) ∧
  ∀ (addr : Word) (s : State), s.Inv → 0x2000 ≤ addr.toNat → addr.toNat < 0x4000 →
    (addr.toNat % 8 = 2 ∨ addr.toNat % 8 = 7 → ∃ u b,
      s.board.readRegister (if addr.toNat % 8 = 2 then .status else .data) = .ok (u, b) ∧
      memRead addr s = .ok (u, { s with board := b })) ∧
    (addr.toNat % 8 = 4 →
      memRead addr s = .ok (Cells.read s.board.gfx.oam s.board.gfx.oamAddr.toNat, s)) ∧
    (addr.toNat % 8 ∈ [0, 1, 3, 5, 6] → ∃ u, memRead addr s = .ok (u,
      { s with board := { s.board with freeCount := s.board.freeCount + 1 } }))

/-- The graphics address space (20_memory R106, R119, R121, R122; the ranges and the repeat are log 21, the
permutations log 20): a write in the pattern window changes graphics RAM, and nothing on a cartridge with graphics
banks; a nametable write is seen at exactly the nametable addresses that name the same byte of the same physical
region, and nowhere else. The palette has 32 bytes, of which 0x10, 0x14, 0x18 and 0x1C are the bytes 0x00, 0x04,
0x08 and 0x0C (R123; the range from 0x3F00 is customary, log 21). -/
def Obligations.GraphicsAddressSpace : Prop :=
  (∀ (b : Board) (u : Byte), b.Ok →
    (∀ g, g < 0x2000 →
      (b.mapper.header.chrBanks ≠ 0 → b.graphicsWrite g u = .ok b) ∧
      (b.mapper.header.chrBanks = 0 → ∃ b', b.graphicsWrite g u = .ok b' ∧ b'.graphicsRead g = .ok u)) ∧
    ∀ g h, 0x2000 ≤ g → g < 0x3F00 → 0x2000 ≤ h → h < 0x3F00 →
      let region (addr : Nat) : Nat := match b.mapper.mirroring with
        | .horizontal => addr / 0x800 % 2
        | .vertical => addr / 0x400 % 2
        | .singleLow => 0
        | .singleHigh => 1
        | .fourScreen => addr / 0x400 % 2
      ∃ b', b.graphicsWrite g u = .ok b' ∧ b'.mapper = b.mapper ∧
        b'.graphicsRead h =
          if region g = region h ∧ g % 0x400 = h % 0x400 then .ok u else b.graphicsRead h) ∧
  ∀ (b : Board) (j k : Nat) (u : Byte), b.Ok → j < 0x20 → k < 0x20 →
    let cell (n : Nat) := if n = 0x10 ∨ n = 0x14 ∨ n = 0x18 ∨ n = 0x1C then n - 0x10 else n
    ∃ b', b.graphicsWrite (0x3F00 + j) u = .ok b' ∧
      b'.graphicsRead (0x3F00 + k) =
        if cell j = cell k then .ok u else b.graphicsRead (0x3F00 + k)

/-- The data port's read buffer: below the palette range a read returns the buffer and loads it from the
current address; in the palette range it returns the palette byte at once; both step the address by 1 or 32
(60_exceptions R374, R375; the ranges and the 14-bit address are logs 15 and 21, the step is log 14). -/
def Obligations.DataPortReads : Prop :=
  ∀ b : Board, b.Ok → ∃ v u b', b.graphicsRead (b.gfx.vramAddr.toNat % 0x4000) = .ok v ∧
    b.readRegister .data = .ok (u, b') ∧
    (b.gfx.vramAddr.toNat % 0x4000 < 0x3F00 → u = b.gfx.readBuffer ∧ b'.gfx.readBuffer = v) ∧
    (0x3F00 ≤ b.gfx.vramAddr.toNat % 0x4000 → u = v) ∧
    b'.gfx.vramAddr = b.gfx.vramAddr + (if Config.incrementBy32 b.gfx.control then 32#15 else 1#15) ∧
    b'.mapper = b.mapper

/-! ### Runs -/

/-- Runs (70_reset_and_hazards R420; the operations are log 43): a run of m + n ticks is a run of n ticks after one
of m; under the invariant a run reaches its budget or ends in the fault of an absent opcode byte, and never a
refusal; a run until a predicate holds stops at the first state that satisfies it or at the end of its budget; a
jump to its own address is detected. -/
def Obligations.Runs : Prop :=
  (∀ (m n : Nat) (s t : State), run m s = .next t → run (m + n) s = run n t) ∧
  (∀ (n : Nat) (s : State), s.Inv →
    (∃ t, run n s = .next t ∧ t.Inv) ∨ ∃ opcode pc, run n s = .fault (.absentOpcode opcode pc)) ∧
  (∀ (done : State → Bool) (n : Nat) (s t : State), runUntil done n s = .next t →
    ∃ k, k ≤ n ∧ run k s = .next t ∧ (k = n ∨ done t = true) ∧
      ∀ j, j < k → ∃ u, run j s = .next u ∧ done u = false) ∧
  ∀ s : State, s.Inv → s.stall = 0 → s.pending = none →
    plainAddress s.pc = true → plainAddress (s.pc + 1#16) = true → plainAddress (s.pc + 2#16) = true →
    [s.byteAt s.pc, s.byteAt (s.pc + 1#16), s.byteAt (s.pc + 2#16)] = encode (.jmp (.absolute s.pc)) →
    s.jumpsToItself = true
end

