-- ==== Sys2Proof/Laws/Access.lean ====
section
/-! SUPPORT. The laws of `Access`, the shape every part of a tick has: what a sequence answers, step by
step and by inversion. -/

namespace Sys2Proof.Machine

open Sys2Proof

variable {α β : Type}

@[simp] theorem Access.pure_apply (a : α) (s : State) : (pure a : Access α) s = .ok (a, s) := rfl

@[simp] theorem Access.get_apply (s : State) : (get : Access State) s = .ok (s, s) := rfl

@[simp] theorem Access.modify_apply (f : State → State) (s : State) :
    (modify f : Access Unit) s = .ok ((), f s) := rfl

theorem Access.bind_apply (act : Access α) (k : α → Access β) (s : State) :
    (act >>= k) s = match act s with
      | .ok (a, t) => k a t
      | .error f => .error f := by
  cases h : act s <;> simp [bind, StateT.bind, Except.bind, h]

/-- A sequence whose first part answers goes on with the rest. -/
theorem Access.bind_of_ok {act : Access α} {k : α → Access β} {s t : State} {a : α}
    (h : act s = .ok (a, t)) : (act >>= k) s = k a t := by
  rw [Access.bind_apply, h]

/-- What a sequence answers, by inversion. -/
theorem Access.bind_ok_iff {act : Access α} {k : α → Access β} {s u : State} {b : β} :
    (act >>= k) s = .ok (b, u) ↔ ∃ a t, act s = .ok (a, t) ∧ k a t = .ok (b, u) := by
  rw [Access.bind_apply]
  cases h : act s with
  | error f => simp
  | ok p => exact ⟨fun e => ⟨p.1, p.2, rfl, e⟩, fun ⟨a, t, e, e'⟩ => by cases e; exact e'⟩

@[simp] theorem Access.bind_pure (a : α) (k : α → Access β) (s : State) :
    ((pure a : Access α) >>= k) s = k a s := rfl

@[simp] theorem Access.bind_get (k : State → Access β) (s : State) :
    ((get : Access State) >>= k) s = k s s := rfl

@[simp] theorem Access.bind_modify (f : State → State) (k : Unit → Access β) (s : State) :
    ((modify f : Access Unit) >>= k) s = k () (f s) := rfl

theorem Access.outcome_next_iff {act : Access Unit} {s t : State} :
    act.outcome s = .next t ↔ act s = .ok ((), t) := by
  unfold Access.outcome
  cases h : act s with
  | error f => simp
  | ok p => exact ⟨fun e => by cases e; rfl, fun e => by cases e; rfl⟩

theorem Access.outcome_of_ok {act : Access Unit} {s t : State} (h : act s = .ok ((), t)) :
    act.outcome s = .next t := Access.outcome_next_iff.2 h

end Sys2Proof.Machine
end

