-- ==== Sys2Proof/Laws/Memory.lean ====
section
/-! SUPPORT. The laws of sparse arrays: read after write, the canonical form is kept, and canonical arrays
that read alike are equal. -/

namespace Sys2Proof

variable {w : Nat}

@[simp] theorem Cells.read_nil (a : Nat) : Cells.read ([] : Cells w) a = 0#w := rfl

theorem Cells.read_of_wfFrom {m : Cells w} {lo a : Nat} (h : Cells.wfFrom lo m = true) (ha : a < lo) :
    Cells.read m a = 0#w := by
  induction m generalizing lo with
  | nil => rfl
  | cons p rest ih =>
    obtain ⟨k, u⟩ := p
    simp only [Cells.wfFrom, Bool.and_eq_true, decide_eq_true_eq] at h
    have hne : a ≠ k := by omega
    simp only [Cells.read, hne, if_false]
    exact ih h.2 (by omega)

theorem Cells.wfFrom_mono {m : Cells w} {lo lo' : Nat} (h : Cells.wfFrom lo m = true) (hl : lo' ≤ lo) :
    Cells.wfFrom lo' m = true := by
  cases m with
  | nil => rfl
  | cons p rest =>
    obtain ⟨k, u⟩ := p
    simp only [Cells.wfFrom, Bool.and_eq_true, decide_eq_true_eq] at h ⊢
    exact ⟨⟨by omega, h.1.2⟩, h.2⟩

theorem Cells.wfFrom_write {m : Cells w} {lo a : Nat} (u : BitVec w) (h : Cells.wfFrom lo m = true)
    (ha : lo ≤ a) : Cells.wfFrom lo (Cells.write m a u) = true := by
  induction m generalizing lo with
  | nil => unfold Cells.write; split <;> simp_all [Cells.wfFrom]
  | cons p rest ih =>
    obtain ⟨k, t⟩ := p
    simp only [Cells.wfFrom, Bool.and_eq_true, decide_eq_true_eq, bne_iff_ne] at h
    obtain ⟨⟨hk, ht⟩, hr⟩ := h
    unfold Cells.write
    split
    · rename_i hlt
      split
      · simp [Cells.wfFrom, hk, ht, hr]
      · rename_i hu
        simp [Cells.wfFrom, ha, hu, ht, hr]; omega
    · split
      · rename_i heq
        subst heq
        split
        · exact Cells.wfFrom_mono hr (by omega)
        · rename_i hu
          simp [Cells.wfFrom, ha, hu, hr]
      · simp only [Cells.wfFrom, Bool.and_eq_true, decide_eq_true_eq, bne_iff_ne]
        exact ⟨⟨hk, ht⟩, ih hr (by omega)⟩

theorem Cells.below_write {m : Cells w} {n a : Nat} (u : BitVec w) (h : Cells.below n m = true)
    (ha : a < n) : Cells.below n (Cells.write m a u) = true := by
  induction m with
  | nil => unfold Cells.write; split <;> simp_all [Cells.below]
  | cons p rest ih =>
    obtain ⟨k, t⟩ := p
    simp only [Cells.below, List.all_cons, Bool.and_eq_true, decide_eq_true_eq] at h ih ⊢
    unfold Cells.write
    split
    · split <;> simp [h.1, h.2, ha]
    · split
      · split <;> simp [h.2, ha]
      · simp only [List.all_cons, Bool.and_eq_true, decide_eq_true_eq]
        exact ⟨h.1, ih h.2⟩

/-- Writing inside the array keeps the canonical form. -/
theorem Cells.Ok.write {m : Cells w} {n a : Nat} (h : Cells.Ok n m) (u : BitVec w) (ha : a < n) :
    Cells.Ok n (Cells.write m a u) :=
  ⟨Cells.wfFrom_write u h.wf (Nat.zero_le _), Cells.below_write u h.below ha⟩

theorem Cells.Ok.nil (n : Nat) : Cells.Ok n ([] : Cells w) := ⟨rfl, rfl⟩

theorem Cells.read_write_from {m : Cells w} {lo : Nat} (h : Cells.wfFrom lo m = true) (a b : Nat)
    (u : BitVec w) :
    Cells.read (Cells.write m a u) b = if b = a then u else Cells.read m b := by
  induction m generalizing lo with
  | nil =>
    unfold Cells.write
    split
    · simp_all [Cells.read]
    · simp [Cells.read]
  | cons p rest ih =>
    obtain ⟨k, t⟩ := p
    simp only [Cells.wfFrom, Bool.and_eq_true, decide_eq_true_eq, bne_iff_ne] at h
    obtain ⟨⟨hk, ht⟩, hr⟩ := h
    unfold Cells.write
    split
    · rename_i hlt
      split
      · rename_i hu
        subst hu
        split
        · rename_i hb
          subst hb
          have : b ≠ k := by omega
          simp only [Cells.read, this, if_false]
          exact Cells.read_of_wfFrom hr (by omega)
        · rfl
      · rw [Cells.read]
    · split
      · rename_i heq
        subst heq
        split
        · rename_i hu
          subst hu
          by_cases hb : b = a
          · subst hb
            simp only [if_true]
            exact Cells.read_of_wfFrom hr (by omega)
          · simp [Cells.read, hb]
        · by_cases hb : b = a <;> simp [Cells.read, hb]
      · rename_i hne
        by_cases hb : b = k
        · subst hb
          have : b ≠ a := fun e => hne e.symm
          simp [Cells.read, this]
        · simp only [Cells.read, hb, if_false, ih hr]

/-- A read after a write, at the place written and everywhere else. -/
theorem Cells.read_write {m : Cells w} (h : Cells.wf m = true) (a b : Nat) (u : BitVec w) :
    Cells.read (Cells.write m a u) b = if b = a then u else Cells.read m b :=
  Cells.read_write_from h a b u

/-- Equal canonical arrays are equal data: two that read alike everywhere are the same list. -/
theorem Cells.ext_of_wfFrom {m m' : Cells w} {lo : Nat} (h : Cells.wfFrom lo m = true)
    (h' : Cells.wfFrom lo m' = true) (hr : ∀ a, Cells.read m a = Cells.read m' a) : m = m' := by
  induction m generalizing m' lo with
  | nil =>
    cases m' with
    | nil => rfl
    | cons p rest =>
      obtain ⟨k, u⟩ := p
      simp only [Cells.wfFrom, Bool.and_eq_true, bne_iff_ne] at h'
      have := hr k
      simp only [Cells.read, if_true] at this
      exact absurd this.symm h'.1.2
  | cons p rest ih =>
    obtain ⟨k, u⟩ := p
    simp only [Cells.wfFrom, Bool.and_eq_true, decide_eq_true_eq, bne_iff_ne] at h
    cases m' with
    | nil =>
      have := hr k
      simp only [Cells.read, if_true] at this
      exact absurd this h.1.2
    | cons p' rest' =>
      obtain ⟨k', u'⟩ := p'
      simp only [Cells.wfFrom, Bool.and_eq_true, decide_eq_true_eq, bne_iff_ne] at h'
      have hkk : k = k' := by
        rcases Nat.lt_trichotomy k k' with hlt | heq | hgt
        · have := hr k
          simp only [Cells.read, if_true, Nat.ne_of_lt hlt, if_false,
            Cells.read_of_wfFrom h'.2 (Nat.lt_succ_of_lt hlt)] at this
          exact absurd this h.1.2
        · exact heq
        · have := hr k'
          simp only [Cells.read, if_true, Nat.ne_of_lt hgt, if_false,
            Cells.read_of_wfFrom h.2 (Nat.lt_succ_of_lt hgt)] at this
          exact absurd this.symm h'.1.2
      subst hkk
      have hu : u = u' := by simpa [Cells.read] using hr k
      subst hu
      congr 1
      refine ih h.2 h'.2 fun a => ?_
      by_cases ha : a = k
      · subst ha
        rw [Cells.read_of_wfFrom h.2 (Nat.lt_succ_self _), Cells.read_of_wfFrom h'.2 (Nat.lt_succ_self _)]
      · simpa [Cells.read, ha] using hr a

end Sys2Proof
end

