-- ==== Sys2Proof/Laws/Bank.lean ====
section
/-! SUPPORT. Bank Memory and mapper: a covered Bank Memory answers every address of its window, and every
bank switch of the four variants keeps it covered. -/

namespace Sys2Proof.Machine

open Sys2Proof

theorem BankMemory.Ok.page_pos {b : BankMemory} {window : Nat} (h : b.Ok window) : 0 < b.pageSize := by
  rw [h.page]; decide

/-- Inside the window of a covered Bank Memory every address resolves to an index of the data. -/
theorem BankMemory.resolve_isSome {b : BankMemory} {window addr : Nat} (h : b.Ok window)
    (ha : addr < window) : ∃ k, b.resolve addr = some k ∧ k < b.size := by
  have hlen : addr / b.pageSize < b.pointers.length := by
    rw [Nat.div_lt_iff_lt_mul h.page_pos, h.covered]; exact ha
  have hp : (b.pointers[addr / b.pageSize] + 1) * b.pageSize ≤ b.size := by
    have := List.all_eq_true.1 h.inData _ (List.getElem_mem hlen)
    simpa using this
  have hm : addr % b.pageSize < b.pageSize := Nat.mod_lt _ h.page_pos
  have hk : b.pointers[addr / b.pageSize] * b.pageSize + addr % b.pageSize < b.size := by
    rw [Nat.add_mul] at hp; omega
  refine ⟨b.pointers[addr / b.pageSize] * b.pageSize + addr % b.pageSize, ?_, hk⟩
  simp [BankMemory.resolve, List.getElem?_eq_getElem hlen, h.size, ha, hk]

theorem BankMemory.read_ok {b : BankMemory} {window addr : Nat} (h : b.Ok window) (ha : addr < window) :
    ∃ u, b.read addr = .ok u := by
  obtain ⟨k, hk, -⟩ := BankMemory.resolve_isSome h ha
  exact ⟨Cells.read b.data k, by simp [BankMemory.read, hk]⟩

theorem BankMemory.write_ok {b : BankMemory} {window addr : Nat} (h : b.Ok window) (ha : addr < window)
    (u : Byte) : ∃ b', b.write addr u = .ok b' ∧ b'.Ok window ∧ b'.size = b.size := by
  obtain ⟨k, hk, hlt⟩ := BankMemory.resolve_isSome h ha
  exact ⟨{ b with data := Cells.write b.data k u }, by simp [BankMemory.write, hk],
    ⟨h.page, h.size, h.covered, h.inData, h.data.write u hlt⟩, rfl⟩

/-- A switch to a bank that lies inside the data keeps the window covered. -/
theorem BankMemory.Ok.switchPages {b : BankMemory} {window : Nat} (h : b.Ok window)
    {first pages index : Nat} (hi : (index + 1) * pages * b.pageSize ≤ b.size) :
    (b.switchPages first pages index).Ok window := by
  refine ⟨h.page, h.size, by simpa [BankMemory.switchPages] using h.covered, ?_, h.data⟩
  rw [List.all_eq_true]
  intro p hp
  simp only [BankMemory.switchPages] at hp
  obtain ⟨k, hk, rfl⟩ := List.mem_mapIdx.1 hp
  simp only [decide_eq_true_eq]
  split
  · rename_i hr
    refine le_trans (Nat.mul_le_mul_right _ ?_) hi
    rw [Nat.add_mul]; omega
  · simpa [BankMemory.switchPages] using List.all_eq_true.1 h.inData _ (List.getElem_mem hk)

theorem BankMemory.Ok.switchWindow {b : BankMemory} {window : Nat} (h : b.Ok window) (w : BankWindow) :
    (b.switchWindow w).Ok window := by
  unfold BankMemory.switchWindow
  simp only
  split
  · exact h
  · rename_i hp
    refine h.switchPages ?_
    set pages := min w.pages (min (b.pointers.length - w.firstPage % b.pointers.length) (b.size / b.pageSize))
      with hpages
    have hle : pages ≤ b.size / b.pageSize := (Nat.min_le_right _ _).trans (Nat.min_le_right _ _)
    have hpos : 0 < b.size / b.pageSize / pages := Nat.div_pos hle (Nat.pos_of_ne_zero hp)
    have hlt : w.index % (b.size / b.pageSize / pages) + 1 ≤ b.size / b.pageSize / pages := Nat.mod_lt _ hpos
    calc (w.index % (b.size / b.pageSize / pages) + 1) * pages * b.pageSize
        ≤ (b.size / b.pageSize / pages * pages) * b.pageSize :=
          Nat.mul_le_mul_right _ (Nat.mul_le_mul_right _ hlt)
      _ ≤ b.size / b.pageSize * b.pageSize := Nat.mul_le_mul_right _ (Nat.div_mul_le_self _ _)
      _ ≤ b.size := Nat.div_mul_le_self _ _

@[simp] theorem BankMemory.switchWindow_size (b : BankMemory) (w : BankWindow) : (b.switchWindow w).size = b.size := by
  simp only [BankMemory.switchWindow]; split <;> rfl

theorem Mapper.Ok.writeSwitchable {m : Mapper} (h : m.Ok) (u : Byte) : (m.writeSwitchable u).Ok := by
  refine ⟨h.prog.switchPages ?_, h.chr, h.progSize, h.chrSize, h.progBanks, h.saveRam, h.shift⟩
  have hlt : u.toNat % m.header.progBanks + 1 ≤ m.header.progBanks := Nat.mod_lt _ h.progBanks
  have hw : (0x4000 / m.prog.pageSize - 0x0000 / m.prog.pageSize) * m.prog.pageSize ≤ 0x4000 := by
    rw [Nat.zero_div, Nat.sub_zero]; exact Nat.div_mul_le_self _ _
  calc (u.toNat % m.header.progBanks + 1) * (0x4000 / m.prog.pageSize - 0x0000 / m.prog.pageSize)
        * m.prog.pageSize
      = (u.toNat % m.header.progBanks + 1) * ((0x4000 / m.prog.pageSize - 0x0000 / m.prog.pageSize)
        * m.prog.pageSize) := Nat.mul_assoc _ _ _
    _ ≤ m.header.progBanks * 0x4000 := Nat.mul_le_mul hlt hw
    _ = m.prog.size := h.progSize.symm

theorem Mapper.Ok.applyShift {m : Mapper} (h : m.Ok) (t : ShiftTarget) (v : BitVec 5) :
    (m.applyShift t v).Ok := by
  cases t
  case control => exact ⟨h.prog, h.chr, h.progSize, h.chrSize, h.progBanks, h.saveRam, h.shift⟩
  case chrBank0 | chrBank1 =>
    exact ⟨h.prog, h.chr.switchWindow _, h.progSize, (BankMemory.switchWindow_size _ _).trans h.chrSize,
      h.progBanks, h.saveRam, h.shift⟩
  case progBank =>
    exact ⟨h.prog.switchWindow _, h.chr, (BankMemory.switchWindow_size _ _).trans h.progSize, h.chrSize,
      h.progBanks, h.saveRam, h.shift⟩

theorem Mapper.Ok.writeShift {m : Mapper} (h : m.Ok) (addr : Word) (u : Byte) : (m.writeShift addr u).Ok := by
  have h0 : ({ m with shift := 0#5, shiftCount := 0 } : Mapper).Ok :=
    ⟨h.prog, h.chr, h.progSize, h.chrSize, h.progBanks, h.saveRam, Nat.zero_le _⟩
  unfold Mapper.writeShift
  split
  · exact ⟨h.prog, h.chr, h.progSize, h.chrSize, h.progBanks, h.saveRam, Nat.zero_le _⟩
  · simp only
    split
    · exact h0.applyShift _ _
    · rename_i hc
      have := h.shift
      exact ⟨h.prog, h.chr, h.progSize, h.chrSize, h.progBanks, h.saveRam, by show m.shiftCount + 1 ≤ 4; omega⟩

theorem Mapper.Ok.writeScanline {m : Mapper} (h : m.Ok) (addr : Word) (u : Byte) :
    (m.writeScanline addr u).Ok := by
  unfold Mapper.writeScanline
  split
  case h_6 =>
    unfold Mapper.writeScanlineBank
    simp only
    split
    · exact ⟨h.prog.switchWindow _, h.chr, (BankMemory.switchWindow_size _ _).trans h.progSize, h.chrSize,
        h.progBanks, h.saveRam, h.shift⟩
    · exact ⟨h.prog, h.chr.switchWindow _, h.progSize, (BankMemory.switchWindow_size _ _).trans h.chrSize,
        h.progBanks, h.saveRam, h.shift⟩
  all_goals exact ⟨h.prog, h.chr, h.progSize, h.chrSize, h.progBanks, h.saveRam, h.shift⟩

/-- Every processor-side write keeps the mapper's invariant. -/
theorem Mapper.Ok.write {m : Mapper} (h : m.Ok) {addr : Word} (ha : 0x6000 ≤ addr.toNat) (u : Byte) :
    (m.write addr u).Ok := by
  unfold Mapper.write
  split
  · exact ⟨h.prog, h.chr, h.progSize, h.chrSize, h.progBanks, h.saveRam.write u (by omega), h.shift⟩
  · unfold Mapper.writeRegister
    split
    · exact h
    · exact h.writeShift addr u
    · exact h.writeSwitchable u
    · exact h.writeScanline addr u

/-- The mapper's tick keeps the mapper's invariant. -/
theorem Mapper.Ok.tick {m : Mapper} (h : m.Ok) (k : Nat) : (m.tick k).1.Ok := by
  unfold Mapper.tick
  split
  case h_4 => exact ⟨h.prog, h.chr, h.progSize, h.chrSize, h.progBanks, h.saveRam, h.shift⟩
  all_goals exact h

/-- A processor-side read at or above 0x6000 answers. -/
theorem Mapper.read_ok {m : Mapper} (h : m.Ok) (addr : Word) : ∃ u, m.read addr = .ok u := by
  unfold Mapper.read
  split
  · exact ⟨_, rfl⟩
  · exact BankMemory.read_ok h.prog (by have := addr.isLt; omega)

end Sys2Proof.Machine
end

