-- ==== Sys2Proof/Laws/Graphics.lean ====
section
/-! SUPPORT. The graphics core: its registers answer whenever the invariant holds, what a register read
changes, and every graphics tick keeps the invariant. -/

namespace Sys2Proof.Machine

open Sys2Proof

/-! ### The graphics address space -/

theorem nametableIndex_lt (m : Mirroring) (addr : Nat) : nametableIndex m addr < 0x800 :=
  Nat.mod_lt _ (by decide)

theorem paletteIndex_lt (addr : Nat) : paletteIndex addr < 0x20 := by
  have : addr % 0x20 < 0x20 := Nat.mod_lt _ (by decide)
  unfold paletteIndex
  simp only
  split <;> omega

/-- The graphics address space answers every read below 0x4000. -/
theorem Board.graphicsRead_ok {b : Board} (h : b.Ok) {addr : Nat} (ha : addr < 0x4000) :
    ∃ u, b.graphicsRead addr = .ok u := by
  unfold Board.graphicsRead
  simp only [ha, if_true]
  split
  · rename_i hp
    exact BankMemory.read_ok h.mapper.chr hp
  · split
    · exact ⟨_, rfl⟩
    · exact ⟨_, rfl⟩

/-- The graphics address space takes every write below 0x4000 and keeps the invariant. -/
theorem Board.graphicsWrite_ok {b : Board} (h : b.Ok) {addr : Nat} (ha : addr < 0x4000) (u : Byte) :
    ∃ b', b.graphicsWrite addr u = .ok b' ∧ b'.Ok := by
  unfold Board.graphicsWrite
  simp only [ha, if_true]
  split
  · rename_i hp
    split
    · obtain ⟨chr, hc, hok, hs⟩ := BankMemory.write_ok h.mapper.chr hp u
      exact ⟨{ b with mapper := { b.mapper with chr := chr } }, by simp [hc],
        h.gfx, h.mapper.prog, hok, h.mapper.progSize, hs.trans h.mapper.chrSize, h.mapper.progBanks, h.mapper.saveRam, h.mapper.shift⟩
    · exact ⟨b, rfl, h⟩
  · split
    · exact ⟨_, rfl, { h.gfx with nametable := h.gfx.nametable.write u (nametableIndex_lt _ _) }, h.mapper⟩
    · exact ⟨_, rfl, { h.gfx with palette := h.gfx.palette.write u (paletteIndex_lt _) }, h.mapper⟩

theorem Gfx.portAddress_lt (g : Gfx) : g.portAddress < 0x4000 := Nat.mod_lt _ (by decide)

/-! ### What a read changes -/

theorem Board.ReadsTo.refl (b : Board) : b.ReadsTo b := rfl

theorem Board.ReadsTo.trans {b b' b'' : Board} (h : b.ReadsTo b') (h' : b'.ReadsTo b'') :
    b.ReadsTo b'' := by
  unfold Board.ReadsTo at *
  rw [h', h]

theorem Board.ReadsTo.mapper {b b' : Board} (h : b.ReadsTo b') : b'.mapper = b.mapper := by rw [h]

theorem Board.ReadsTo.oam {b b' : Board} (h : b.ReadsTo b') : b'.gfx.oam = b.gfx.oam := by rw [h]

theorem Board.ReadsTo.ok {b b' : Board} (h : b.ReadsTo b') (hb : b.Ok) : b'.Ok := by
  rw [h]
  exact ⟨{ hb.gfx with }, hb.mapper⟩

/-- A register read answers and changes only what a read may. -/
theorem Board.readRegister_ok {b : Board} (h : b.Ok) (r : GfxRegister) :
    ∃ u b', b.readRegister r = .ok (u, b') := by
  cases r
  case data =>
    obtain ⟨u, hu⟩ := Board.graphicsRead_ok h b.gfx.portAddress_lt
    simp only [Board.readRegister, Board.readDataPort, hu]
    split <;> exact ⟨_, _, rfl⟩
  all_goals exact ⟨_, _, rfl⟩

theorem Board.readRegister_readsTo {b b' : Board} {r : GfxRegister} {u : Byte}
    (h : b.readRegister r = .ok (u, b')) : b.ReadsTo b' := by
  cases r
  case data =>
    simp only [Board.readRegister, Board.readDataPort] at h
    split at h
    · cases h
    · split at h <;> (cases h; rfl)
  all_goals (cases h; rfl)

/-- A register write answers and keeps the invariant. -/
theorem Board.writeRegister_ok {b : Board} (h : b.Ok) (r : GfxRegister) (u : Byte) :
    ∃ b', b.writeRegister r u = .ok b' ∧ b'.Ok := by
  cases r
  case data =>
    obtain ⟨b', hb', hok⟩ := Board.graphicsWrite_ok h b.gfx.portAddress_lt u
    simp only [Board.writeRegister, hb']
    exact ⟨_, rfl, { hok.gfx with }, hok.mapper⟩
  case oamData =>
    exact ⟨_, rfl, { h.gfx with oam := h.gfx.oam.write u b.gfx.oamAddr.isLt }, h.mapper⟩
  case address =>
    refine ⟨_, rfl, ?_, h.mapper⟩
    simp only [Gfx.writeAddress]
    split <;> exact { h.gfx with }
  all_goals exact ⟨_, rfl, { h.gfx with }, h.mapper⟩

theorem Board.Ok.writeOam {b : Board} (h : b.Ok) (index u : Byte) : (b.writeOam index u).Ok :=
  ⟨{ h.gfx with oam := h.gfx.oam.write u index.isLt }, h.mapper⟩

/-! ### The tick -/

theorem Gfx.Ok.advanceOnce {g : Gfx} (h : g.Ok) : g.advanceOnce.Ok := by
  unfold Gfx.advanceOnce
  split
  · exact { h with cycle := by show g.cycle + 1 ≤ 340; omega }
  · split
    · exact { h with cycle := Nat.zero_le _, scanline := by show g.scanline + 1 ≤ 261; omega }
    · exact { h with cycle := Nat.zero_le _, scanline := Nat.zero_le _ }

theorem Gfx.Ok.advance {g : Gfx} (h : g.Ok) : g.advance.Ok := by
  unfold Gfx.advance
  split
  · exact h.advanceOnce.advanceOnce
  · exact h.advanceOnce

theorem Gfx.Ok.renderPixel {g : Gfx} (h : g.Ok) (hl : g.scanline < 240) (k : Nat) :
    (g.renderPixel k).Ok := by
  have hx : 256 * g.scanline + (Config.pixelColumn g.cycle).val < 0xF000 := by
    have := (Config.pixelColumn g.cycle).isLt
    omega
  unfold Gfx.renderPixel
  simp only
  split
  · exact { h with
      frame := h.frame.write _ hx
      backgroundFrame := h.backgroundFrame.write _ hx
      spriteFrame := h.spriteFrame.write _ hx
      indexFrame := h.indexFrame.write _ hx }
  · exact { h with frame := h.frame.write _ hx }

/-- The two phases of a pair of writes fill parts that share no bit. -/
theorem phasePart_disjoint {w : Nat} (bits : Bool → BitVec w) :
    phasePart bits false &&& phasePart bits true = 0#w := by
  ext i hi
  cases h : (bits false)[i] <;> simp [phasePart, h]

/-- A merge replaces the masked bits and keeps the others. -/
theorem getElem_mergeBits {w : Nat} (mask new old : BitVec w) {i : Nat} (hi : i < w) :
    (mergeBits mask new old)[i] = if mask[i] then new[i] else old[i] := by
  unfold mergeBits
  cases h : mask[i] <;> simp [h]

/-- A step inside a field leaves every other bit of the address alone. -/
theorem stepField_outside {mask : BitVec 15} {i : Nat} (hi : i < 15) (h : mask[i] = false)
    (addr : BitVec 15) : (stepField mask addr)[i] = addr[i] := by
  simp [stepField, getElem_mergeBits, h]

/-- What the horizontal scroll step can do outside its field: it toggles the nametable-select bit exactly on a
wrap. -/
theorem advanceCoarseX_outside {field : BitVec 15} {i : Nat} (hi : i < 15) (h : field[i] = false)
    (select : Fin 15) (addr : BitVec 15) : (advanceCoarseX field select addr)[i] =
      (addr[i] ^^ (decide (addr &&& field = field) && decide (i = select.val))) := by
  unfold advanceCoarseX
  split <;> simp [stepField_outside hi h, *]

theorem Gfx.Ok.fetchTile {g : Gfx} (h : g.Ok) (k : Nat) : (g.fetchTile k).Ok := by
  unfold Gfx.fetchTile
  split
  · exact { h with }
  · exact h

theorem scanlineType_visible {n : Nat} (h : scanlineType n = .visible) : n < 240 := by
  unfold scanlineType at h
  split at h
  · assumption
  · split at h
    · cases h
    · split at h <;> cases h

theorem Gfx.Ok.render {g : Gfx} (h : g.Ok) (k : Nat) : (g.render k).Ok := by
  have key : ∀ g' : Gfx, g'.Ok → ({ g' with tileQueue := g'.tileQueue.tail } : Gfx).Ok :=
    fun g' h' => { h' with }
  unfold Gfx.render
  refine key _ ?_
  split
  · refine Gfx.Ok.fetchTile ?_ k
    split
    · rename_i hv
      exact h.renderPixel (scanlineType_visible hv) k
    · exact h
  · exact h.fetchTile k
  · exact { h with }
  · exact { h with }
  · exact { h with }
  · split
    · exact { h with }
    · exact h
  · exact { h with }
  all_goals exact h

theorem Gfx.Ok.clearVblank {g : Gfx} (h : g.Ok) : g.clearVblank.Ok := by
  unfold Gfx.clearVblank
  split
  · exact { h with }
  · exact h

theorem Gfx.Ok.lineWork {g : Gfx} (h : g.Ok) (k : Nat) : (g.lineWork k).1.Ok := by
  have hr : (if g.renderingEnabled then g.render k else g).Ok := by
    split
    · exact h.render k
    · exact h
  unfold Gfx.lineWork
  split
  · unfold Gfx.vblankStart
    split
    · exact { h with }
    · exact h
  · exact hr.clearVblank
  · exact hr
  · exact h

/-- A graphics tick keeps the invariant. -/
theorem Board.Ok.tick {b : Board} (h : b.Ok) : b.tick.1.Ok := by
  refine ⟨(h.gfx.lineWork b.freeCount).advance, ?_⟩
  show b.mapperWork.1.Ok
  unfold Board.mapperWork
  split
  · exact h.mapper.tick _
  · exact h.mapper

/-- Any number of graphics ticks keeps the invariant. -/
theorem Board.Ok.run {b : Board} (h : b.Ok) (k : Nat) (slot : Option Interrupt) : (b.run k slot).1.Ok := by
  induction k generalizing b slot with
  | zero => exact h
  | succ k ih => exact ih h.tick _

theorem Board.Ok.relayFrame {b : Board} (h : b.Ok) : b.relayFrame.Ok := by
  unfold Board.relayFrame
  split
  · exact ⟨{ h.gfx with
      backgroundFrame := Cells.Ok.nil _, spriteFrame := Cells.Ok.nil _, indexFrame := Cells.Ok.nil _ },
      h.mapper⟩
  · exact h

/-- The mapper of every variant but D never requests an interrupt (20_memory R113). -/
theorem Mapper.tick_silent {m : Mapper} (h : m.header.variant ≠ .scanlineIrq) (k : Nat) :
    m.tick k = (m, false) := by
  unfold Mapper.tick
  split
  case h_4 => contradiction
  all_goals rfl

end Sys2Proof.Machine
end

