-- ==== Sys2Proof/Laws/State.lean ====
section
/-! SUPPORT. The state's updates field by field: what each sets and that it leaves every other field alone,
so that no later proof unfolds a record update. -/

namespace Sys2Proof.Machine

open Sys2Proof

variable (s : State)

/-! ### setZN -/

@[simp] theorem State.setZN_a (u : Byte) :
    (s.setZN u).a = s.a := rfl
@[simp] theorem State.setZN_x (u : Byte) :
    (s.setZN u).x = s.x := rfl
@[simp] theorem State.setZN_y (u : Byte) :
    (s.setZN u).y = s.y := rfl
@[simp] theorem State.setZN_sp (u : Byte) :
    (s.setZN u).sp = s.sp := rfl
@[simp] theorem State.setZN_pc (u : Byte) :
    (s.setZN u).pc = s.pc := rfl
@[simp] theorem State.setZN_c (u : Byte) :
    (s.setZN u).c = s.c := rfl
@[simp] theorem State.setZN_z (u : Byte) :
    (s.setZN u).z = (u == 0#8) := rfl
@[simp] theorem State.setZN_i (u : Byte) :
    (s.setZN u).i = s.i := rfl
@[simp] theorem State.setZN_d (u : Byte) :
    (s.setZN u).d = s.d := rfl
@[simp] theorem State.setZN_v (u : Byte) :
    (s.setZN u).v = s.v := rfl
@[simp] theorem State.setZN_n (u : Byte) :
    (s.setZN u).n = u.msb := rfl
@[simp] theorem State.setZN_cycles (u : Byte) :
    (s.setZN u).cycles = s.cycles := rfl
@[simp] theorem State.setZN_stall (u : Byte) :
    (s.setZN u).stall = s.stall := rfl
@[simp] theorem State.setZN_pending (u : Byte) :
    (s.setZN u).pending = s.pending := rfl
@[simp] theorem State.setZN_extra (u : Byte) :
    (s.setZN u).extra = s.extra := rfl
@[simp] theorem State.setZN_ram (u : Byte) :
    (s.setZN u).ram = s.ram := rfl
@[simp] theorem State.setZN_board (u : Byte) :
    (s.setZN u).board = s.board := rfl
@[simp] theorem State.setZN_loaded (u : Byte) :
    (s.setZN u).loaded = s.loaded := rfl

/-! ### setAddResult -/

@[simp] theorem State.setAddResult_a (r : AddResult) :
    (s.setAddResult r).a = r.value := rfl
@[simp] theorem State.setAddResult_x (r : AddResult) :
    (s.setAddResult r).x = s.x := rfl
@[simp] theorem State.setAddResult_y (r : AddResult) :
    (s.setAddResult r).y = s.y := rfl
@[simp] theorem State.setAddResult_sp (r : AddResult) :
    (s.setAddResult r).sp = s.sp := rfl
@[simp] theorem State.setAddResult_pc (r : AddResult) :
    (s.setAddResult r).pc = s.pc := rfl
@[simp] theorem State.setAddResult_c (r : AddResult) :
    (s.setAddResult r).c = r.carry := rfl
@[simp] theorem State.setAddResult_z (r : AddResult) :
    (s.setAddResult r).z = (r.value == 0#8) := rfl
@[simp] theorem State.setAddResult_i (r : AddResult) :
    (s.setAddResult r).i = s.i := rfl
@[simp] theorem State.setAddResult_d (r : AddResult) :
    (s.setAddResult r).d = s.d := rfl
@[simp] theorem State.setAddResult_v (r : AddResult) :
    (s.setAddResult r).v = r.overflow := rfl
@[simp] theorem State.setAddResult_n (r : AddResult) :
    (s.setAddResult r).n = r.value.msb := rfl
@[simp] theorem State.setAddResult_cycles (r : AddResult) :
    (s.setAddResult r).cycles = s.cycles := rfl
@[simp] theorem State.setAddResult_stall (r : AddResult) :
    (s.setAddResult r).stall = s.stall := rfl
@[simp] theorem State.setAddResult_pending (r : AddResult) :
    (s.setAddResult r).pending = s.pending := rfl
@[simp] theorem State.setAddResult_extra (r : AddResult) :
    (s.setAddResult r).extra = s.extra := rfl
@[simp] theorem State.setAddResult_ram (r : AddResult) :
    (s.setAddResult r).ram = s.ram := rfl
@[simp] theorem State.setAddResult_board (r : AddResult) :
    (s.setAddResult r).board = s.board := rfl
@[simp] theorem State.setAddResult_loaded (r : AddResult) :
    (s.setAddResult r).loaded = s.loaded := rfl

/-! ### setCompare -/

@[simp] theorem State.setCompare_a (g u : Byte) :
    (s.setCompare g u).a = s.a := rfl
@[simp] theorem State.setCompare_x (g u : Byte) :
    (s.setCompare g u).x = s.x := rfl
@[simp] theorem State.setCompare_y (g u : Byte) :
    (s.setCompare g u).y = s.y := rfl
@[simp] theorem State.setCompare_sp (g u : Byte) :
    (s.setCompare g u).sp = s.sp := rfl
@[simp] theorem State.setCompare_pc (g u : Byte) :
    (s.setCompare g u).pc = s.pc := rfl
@[simp] theorem State.setCompare_c (g u : Byte) :
    (s.setCompare g u).c = decide (u.toNat ≤ g.toNat) := rfl
@[simp] theorem State.setCompare_z (g u : Byte) :
    (s.setCompare g u).z = (g - u == 0#8) := rfl
@[simp] theorem State.setCompare_i (g u : Byte) :
    (s.setCompare g u).i = s.i := rfl
@[simp] theorem State.setCompare_d (g u : Byte) :
    (s.setCompare g u).d = s.d := rfl
@[simp] theorem State.setCompare_v (g u : Byte) :
    (s.setCompare g u).v = s.v := rfl
@[simp] theorem State.setCompare_n (g u : Byte) :
    (s.setCompare g u).n = (g - u).msb := rfl
@[simp] theorem State.setCompare_cycles (g u : Byte) :
    (s.setCompare g u).cycles = s.cycles := rfl
@[simp] theorem State.setCompare_stall (g u : Byte) :
    (s.setCompare g u).stall = s.stall := rfl
@[simp] theorem State.setCompare_pending (g u : Byte) :
    (s.setCompare g u).pending = s.pending := rfl
@[simp] theorem State.setCompare_extra (g u : Byte) :
    (s.setCompare g u).extra = s.extra := rfl
@[simp] theorem State.setCompare_ram (g u : Byte) :
    (s.setCompare g u).ram = s.ram := rfl
@[simp] theorem State.setCompare_board (g u : Byte) :
    (s.setCompare g u).board = s.board := rfl
@[simp] theorem State.setCompare_loaded (g u : Byte) :
    (s.setCompare g u).loaded = s.loaded := rfl

/-! ### setBitTest -/

@[simp] theorem State.setBitTest_a (u : Byte) :
    (s.setBitTest u).a = s.a := rfl
@[simp] theorem State.setBitTest_x (u : Byte) :
    (s.setBitTest u).x = s.x := rfl
@[simp] theorem State.setBitTest_y (u : Byte) :
    (s.setBitTest u).y = s.y := rfl
@[simp] theorem State.setBitTest_sp (u : Byte) :
    (s.setBitTest u).sp = s.sp := rfl
@[simp] theorem State.setBitTest_pc (u : Byte) :
    (s.setBitTest u).pc = s.pc := rfl
@[simp] theorem State.setBitTest_c (u : Byte) :
    (s.setBitTest u).c = s.c := rfl
@[simp] theorem State.setBitTest_z (u : Byte) :
    (s.setBitTest u).z = (s.a &&& u == 0#8) := rfl
@[simp] theorem State.setBitTest_i (u : Byte) :
    (s.setBitTest u).i = s.i := rfl
@[simp] theorem State.setBitTest_d (u : Byte) :
    (s.setBitTest u).d = s.d := rfl
@[simp] theorem State.setBitTest_v (u : Byte) :
    (s.setBitTest u).v = u.getLsbD 6 := rfl
@[simp] theorem State.setBitTest_n (u : Byte) :
    (s.setBitTest u).n = u.getLsbD 7 := rfl
@[simp] theorem State.setBitTest_cycles (u : Byte) :
    (s.setBitTest u).cycles = s.cycles := rfl
@[simp] theorem State.setBitTest_stall (u : Byte) :
    (s.setBitTest u).stall = s.stall := rfl
@[simp] theorem State.setBitTest_pending (u : Byte) :
    (s.setBitTest u).pending = s.pending := rfl
@[simp] theorem State.setBitTest_extra (u : Byte) :
    (s.setBitTest u).extra = s.extra := rfl
@[simp] theorem State.setBitTest_ram (u : Byte) :
    (s.setBitTest u).ram = s.ram := rfl
@[simp] theorem State.setBitTest_board (u : Byte) :
    (s.setBitTest u).board = s.board := rfl
@[simp] theorem State.setBitTest_loaded (u : Byte) :
    (s.setBitTest u).loaded = s.loaded := rfl

/-! ### unpackP -/

@[simp] theorem State.unpackP_a (u : Byte) :
    (s.unpackP u).a = s.a := rfl
@[simp] theorem State.unpackP_x (u : Byte) :
    (s.unpackP u).x = s.x := rfl
@[simp] theorem State.unpackP_y (u : Byte) :
    (s.unpackP u).y = s.y := rfl
@[simp] theorem State.unpackP_sp (u : Byte) :
    (s.unpackP u).sp = s.sp := rfl
@[simp] theorem State.unpackP_pc (u : Byte) :
    (s.unpackP u).pc = s.pc := rfl
@[simp] theorem State.unpackP_c (u : Byte) :
    (s.unpackP u).c = u.getLsbD 0 := rfl
@[simp] theorem State.unpackP_z (u : Byte) :
    (s.unpackP u).z = u.getLsbD 1 := rfl
@[simp] theorem State.unpackP_i (u : Byte) :
    (s.unpackP u).i = u.getLsbD 2 := rfl
@[simp] theorem State.unpackP_d (u : Byte) :
    (s.unpackP u).d = u.getLsbD 3 := rfl
@[simp] theorem State.unpackP_v (u : Byte) :
    (s.unpackP u).v = u.getLsbD 6 := rfl
@[simp] theorem State.unpackP_n (u : Byte) :
    (s.unpackP u).n = u.getLsbD 7 := rfl
@[simp] theorem State.unpackP_cycles (u : Byte) :
    (s.unpackP u).cycles = s.cycles := rfl
@[simp] theorem State.unpackP_stall (u : Byte) :
    (s.unpackP u).stall = s.stall := rfl
@[simp] theorem State.unpackP_pending (u : Byte) :
    (s.unpackP u).pending = s.pending := rfl
@[simp] theorem State.unpackP_extra (u : Byte) :
    (s.unpackP u).extra = s.extra := rfl
@[simp] theorem State.unpackP_ram (u : Byte) :
    (s.unpackP u).ram = s.ram := rfl
@[simp] theorem State.unpackP_board (u : Byte) :
    (s.unpackP u).board = s.board := rfl
@[simp] theorem State.unpackP_loaded (u : Byte) :
    (s.unpackP u).loaded = s.loaded := rfl

/-! ### writeRam -/

@[simp] theorem State.writeRam_a (addr : Word) (u : Byte) :
    (s.writeRam addr u).a = s.a := rfl
@[simp] theorem State.writeRam_x (addr : Word) (u : Byte) :
    (s.writeRam addr u).x = s.x := rfl
@[simp] theorem State.writeRam_y (addr : Word) (u : Byte) :
    (s.writeRam addr u).y = s.y := rfl
@[simp] theorem State.writeRam_sp (addr : Word) (u : Byte) :
    (s.writeRam addr u).sp = s.sp := rfl
@[simp] theorem State.writeRam_pc (addr : Word) (u : Byte) :
    (s.writeRam addr u).pc = s.pc := rfl
@[simp] theorem State.writeRam_c (addr : Word) (u : Byte) :
    (s.writeRam addr u).c = s.c := rfl
@[simp] theorem State.writeRam_z (addr : Word) (u : Byte) :
    (s.writeRam addr u).z = s.z := rfl
@[simp] theorem State.writeRam_i (addr : Word) (u : Byte) :
    (s.writeRam addr u).i = s.i := rfl
@[simp] theorem State.writeRam_d (addr : Word) (u : Byte) :
    (s.writeRam addr u).d = s.d := rfl
@[simp] theorem State.writeRam_v (addr : Word) (u : Byte) :
    (s.writeRam addr u).v = s.v := rfl
@[simp] theorem State.writeRam_n (addr : Word) (u : Byte) :
    (s.writeRam addr u).n = s.n := rfl
@[simp] theorem State.writeRam_cycles (addr : Word) (u : Byte) :
    (s.writeRam addr u).cycles = s.cycles := rfl
@[simp] theorem State.writeRam_stall (addr : Word) (u : Byte) :
    (s.writeRam addr u).stall = s.stall := rfl
@[simp] theorem State.writeRam_pending (addr : Word) (u : Byte) :
    (s.writeRam addr u).pending = s.pending := rfl
@[simp] theorem State.writeRam_extra (addr : Word) (u : Byte) :
    (s.writeRam addr u).extra = s.extra := rfl
@[simp] theorem State.writeRam_ram (addr : Word) (u : Byte) :
    (s.writeRam addr u).ram = Cells.write s.ram (ramOffset addr) u := rfl
@[simp] theorem State.writeRam_board (addr : Word) (u : Byte) :
    (s.writeRam addr u).board = s.board := rfl
@[simp] theorem State.writeRam_loaded (addr : Word) (u : Byte) :
    (s.writeRam addr u).loaded = s.loaded := rfl

/-! ### advance -/

@[simp] theorem State.advance_a (size base : Nat) :
    (s.advance size base).a = s.a := rfl
@[simp] theorem State.advance_x (size base : Nat) :
    (s.advance size base).x = s.x := rfl
@[simp] theorem State.advance_y (size base : Nat) :
    (s.advance size base).y = s.y := rfl
@[simp] theorem State.advance_sp (size base : Nat) :
    (s.advance size base).sp = s.sp := rfl
@[simp] theorem State.advance_pc (size base : Nat) :
    (s.advance size base).pc = s.pc + BitVec.ofNat 16 size := rfl
@[simp] theorem State.advance_c (size base : Nat) :
    (s.advance size base).c = s.c := rfl
@[simp] theorem State.advance_z (size base : Nat) :
    (s.advance size base).z = s.z := rfl
@[simp] theorem State.advance_i (size base : Nat) :
    (s.advance size base).i = s.i := rfl
@[simp] theorem State.advance_d (size base : Nat) :
    (s.advance size base).d = s.d := rfl
@[simp] theorem State.advance_v (size base : Nat) :
    (s.advance size base).v = s.v := rfl
@[simp] theorem State.advance_n (size base : Nat) :
    (s.advance size base).n = s.n := rfl
@[simp] theorem State.advance_cycles (size base : Nat) :
    (s.advance size base).cycles = s.cycles + base := rfl
@[simp] theorem State.advance_stall (size base : Nat) :
    (s.advance size base).stall = s.stall := rfl
@[simp] theorem State.advance_pending (size base : Nat) :
    (s.advance size base).pending = s.pending := rfl
@[simp] theorem State.advance_extra (size base : Nat) :
    (s.advance size base).extra = s.extra := rfl
@[simp] theorem State.advance_ram (size base : Nat) :
    (s.advance size base).ram = s.ram := rfl
@[simp] theorem State.advance_board (size base : Nat) :
    (s.advance size base).board = s.board := rfl
@[simp] theorem State.advance_loaded (size base : Nat) :
    (s.advance size base).loaded = s.loaded := rfl

/-! ### addPageCross -/

@[simp] theorem State.addPageCross_a :
    (s.addPageCross).a = s.a := rfl
@[simp] theorem State.addPageCross_x :
    (s.addPageCross).x = s.x := rfl
@[simp] theorem State.addPageCross_y :
    (s.addPageCross).y = s.y := rfl
@[simp] theorem State.addPageCross_sp :
    (s.addPageCross).sp = s.sp := rfl
@[simp] theorem State.addPageCross_pc :
    (s.addPageCross).pc = s.pc := rfl
@[simp] theorem State.addPageCross_c :
    (s.addPageCross).c = s.c := rfl
@[simp] theorem State.addPageCross_z :
    (s.addPageCross).z = s.z := rfl
@[simp] theorem State.addPageCross_i :
    (s.addPageCross).i = s.i := rfl
@[simp] theorem State.addPageCross_d :
    (s.addPageCross).d = s.d := rfl
@[simp] theorem State.addPageCross_v :
    (s.addPageCross).v = s.v := rfl
@[simp] theorem State.addPageCross_n :
    (s.addPageCross).n = s.n := rfl
@[simp] theorem State.addPageCross_cycles :
    (s.addPageCross).cycles = s.cycles + s.extra.toNat := rfl
@[simp] theorem State.addPageCross_stall :
    (s.addPageCross).stall = s.stall := rfl
@[simp] theorem State.addPageCross_pending :
    (s.addPageCross).pending = s.pending := rfl
@[simp] theorem State.addPageCross_extra :
    (s.addPageCross).extra = s.extra := rfl
@[simp] theorem State.addPageCross_ram :
    (s.addPageCross).ram = s.ram := rfl
@[simp] theorem State.addPageCross_board :
    (s.addPageCross).board = s.board := rfl
@[simp] theorem State.addPageCross_loaded :
    (s.addPageCross).loaded = s.loaded := rfl

/-! ### stallTick -/

@[simp] theorem State.stallTick_a :
    (s.stallTick).a = s.a := rfl
@[simp] theorem State.stallTick_x :
    (s.stallTick).x = s.x := rfl
@[simp] theorem State.stallTick_y :
    (s.stallTick).y = s.y := rfl
@[simp] theorem State.stallTick_sp :
    (s.stallTick).sp = s.sp := rfl
@[simp] theorem State.stallTick_pc :
    (s.stallTick).pc = s.pc := rfl
@[simp] theorem State.stallTick_c :
    (s.stallTick).c = s.c := rfl
@[simp] theorem State.stallTick_z :
    (s.stallTick).z = s.z := rfl
@[simp] theorem State.stallTick_i :
    (s.stallTick).i = s.i := rfl
@[simp] theorem State.stallTick_d :
    (s.stallTick).d = s.d := rfl
@[simp] theorem State.stallTick_v :
    (s.stallTick).v = s.v := rfl
@[simp] theorem State.stallTick_n :
    (s.stallTick).n = s.n := rfl
@[simp] theorem State.stallTick_cycles :
    (s.stallTick).cycles = s.cycles + 1 := rfl
@[simp] theorem State.stallTick_stall :
    (s.stallTick).stall = s.stall - 1 := rfl
@[simp] theorem State.stallTick_pending :
    (s.stallTick).pending = s.pending := rfl
@[simp] theorem State.stallTick_extra :
    (s.stallTick).extra = s.extra := rfl
@[simp] theorem State.stallTick_ram :
    (s.stallTick).ram = s.ram := rfl
@[simp] theorem State.stallTick_board :
    (s.stallTick).board = s.board := rfl
@[simp] theorem State.stallTick_loaded :
    (s.stallTick).loaded = s.loaded := rfl

/-! ### closeInterrupt -/

@[simp] theorem State.closeInterrupt_a :
    (s.closeInterrupt).a = s.a := rfl
@[simp] theorem State.closeInterrupt_x :
    (s.closeInterrupt).x = s.x := rfl
@[simp] theorem State.closeInterrupt_y :
    (s.closeInterrupt).y = s.y := rfl
@[simp] theorem State.closeInterrupt_sp :
    (s.closeInterrupt).sp = s.sp := rfl
@[simp] theorem State.closeInterrupt_pc :
    (s.closeInterrupt).pc = s.pc := rfl
@[simp] theorem State.closeInterrupt_c :
    (s.closeInterrupt).c = s.c := rfl
@[simp] theorem State.closeInterrupt_z :
    (s.closeInterrupt).z = s.z := rfl
@[simp] theorem State.closeInterrupt_i :
    (s.closeInterrupt).i = true := rfl
@[simp] theorem State.closeInterrupt_d :
    (s.closeInterrupt).d = s.d := rfl
@[simp] theorem State.closeInterrupt_v :
    (s.closeInterrupt).v = s.v := rfl
@[simp] theorem State.closeInterrupt_n :
    (s.closeInterrupt).n = s.n := rfl
@[simp] theorem State.closeInterrupt_cycles :
    (s.closeInterrupt).cycles = s.cycles + 7 := rfl
@[simp] theorem State.closeInterrupt_stall :
    (s.closeInterrupt).stall = s.stall := rfl
@[simp] theorem State.closeInterrupt_pending :
    (s.closeInterrupt).pending = none := rfl
@[simp] theorem State.closeInterrupt_extra :
    (s.closeInterrupt).extra = s.extra := rfl
@[simp] theorem State.closeInterrupt_ram :
    (s.closeInterrupt).ram = s.ram := rfl
@[simp] theorem State.closeInterrupt_board :
    (s.closeInterrupt).board = s.board := rfl
@[simp] theorem State.closeInterrupt_loaded :
    (s.closeInterrupt).loaded = s.loaded := rfl

/-! ### runPlatform -/

@[simp] theorem State.runPlatform_a (k : Nat) :
    (s.runPlatform k).a = s.a := rfl
@[simp] theorem State.runPlatform_x (k : Nat) :
    (s.runPlatform k).x = s.x := rfl
@[simp] theorem State.runPlatform_y (k : Nat) :
    (s.runPlatform k).y = s.y := rfl
@[simp] theorem State.runPlatform_sp (k : Nat) :
    (s.runPlatform k).sp = s.sp := rfl
@[simp] theorem State.runPlatform_pc (k : Nat) :
    (s.runPlatform k).pc = s.pc := rfl
@[simp] theorem State.runPlatform_c (k : Nat) :
    (s.runPlatform k).c = s.c := rfl
@[simp] theorem State.runPlatform_z (k : Nat) :
    (s.runPlatform k).z = s.z := rfl
@[simp] theorem State.runPlatform_i (k : Nat) :
    (s.runPlatform k).i = s.i := rfl
@[simp] theorem State.runPlatform_d (k : Nat) :
    (s.runPlatform k).d = s.d := rfl
@[simp] theorem State.runPlatform_v (k : Nat) :
    (s.runPlatform k).v = s.v := rfl
@[simp] theorem State.runPlatform_n (k : Nat) :
    (s.runPlatform k).n = s.n := rfl
@[simp] theorem State.runPlatform_cycles (k : Nat) :
    (s.runPlatform k).cycles = s.cycles := rfl
@[simp] theorem State.runPlatform_stall (k : Nat) :
    (s.runPlatform k).stall = s.stall := rfl
@[simp] theorem State.runPlatform_pending (k : Nat) :
    (s.runPlatform k).pending = (s.board.run (3 * k) s.pending).2 := rfl
@[simp] theorem State.runPlatform_extra (k : Nat) :
    (s.runPlatform k).extra = s.extra := rfl
@[simp] theorem State.runPlatform_ram (k : Nat) :
    (s.runPlatform k).ram = s.ram := rfl
@[simp] theorem State.runPlatform_board (k : Nat) :
    (s.runPlatform k).board = (s.board.run (3 * k) s.pending).1.relayFrame := rfl
@[simp] theorem State.runPlatform_loaded (k : Nat) :
    (s.runPlatform k).loaded = s.loaded := rfl

end Sys2Proof.Machine
end

