-- ==== Sys2Proof/Laws/Bus.lean ====
section
/-! SUPPORT. The bus: reads and writes answer whenever the invariant holds, what each may change, and the
stack operations and exception entry and return in closed form. -/

namespace Sys2Proof.Machine

open Sys2Proof

/-! ### What a read may change -/

theorem State.ReadsTo.refl (s : State) : s.ReadsTo s := ⟨rfl, Board.ReadsTo.refl _⟩

theorem State.ReadsTo.trans {s t u : State} (h : s.ReadsTo t) (h' : t.ReadsTo u) : s.ReadsTo u :=
  ⟨by rw [h'.processor, h.processor], h.board.trans h'.board⟩

theorem State.ReadsTo.inv {s t : State} (h : s.ReadsTo t) (hs : s.Inv) : t.Inv :=
  ⟨by rw [h.processor]; exact hs.ram, h.board.ok hs.board, by rw [h.processor]; exact hs.loaded⟩

theorem State.WritesTo.trans {s t u : State} (h : s.WritesTo t) (h' : t.WritesTo u) : s.WritesTo u := by
  unfold State.WritesTo at *
  rw [h', h]

theorem State.ReadsTo.writesTo {s t : State} (h : s.ReadsTo t) : s.WritesTo t := by
  unfold State.WritesTo
  rw [h.processor]

/-- A bus read in the form that later proofs substitute. -/
theorem State.ReadsTo.shape {s t : State} (h : s.ReadsTo t) :
    ∃ b, s.board.ReadsTo b ∧ t = { s with board := b } := ⟨_, h.board, h.processor⟩

/-- A bus write in the form that later proofs substitute. -/
theorem State.WritesTo.shape {s t : State} (h : s.WritesTo t) :
    ∃ ram board stall, t = { s with ram := ram, board := board, stall := stall } := ⟨_, _, _, h⟩

theorem Board.busRead_ok {b : Board} (h : b.Ok) (addr : Word) : ∃ u b', b.busRead addr = .ok (u, b') := by
  unfold Board.busRead
  split
  · exact Board.readRegister_ok h _
  · split
    · exact ⟨_, _, rfl⟩
    · split
      · exact ⟨_, _, rfl⟩
      · split
        · exact ⟨_, _, rfl⟩
        · split
          · exact ⟨_, _, rfl⟩
          · obtain ⟨u, hu⟩ := Mapper.read_ok h.mapper addr
            exact ⟨u, b, by rw [hu]⟩

theorem Board.busRead_readsTo {b b' : Board} {addr : Word} {u : Byte} (h : b.busRead addr = .ok (u, b')) :
    b.ReadsTo b' := by
  unfold Board.busRead at h
  split at h
  · exact Board.readRegister_readsTo h
  · split at h
    · cases h; rfl
    · split at h
      · cases h; rfl
      · split at h
        · cases h; rfl
        · split at h
          · cases h; rfl
          · split at h <;> cases h
            rfl

/-! ### `MemRead` -/

/-- A RAM read gives the byte and changes nothing (20_memory R77, R81). -/
theorem memRead_ram {addr : Word} (ha : addr.toNat < 0x2000) (s : State) :
    memRead addr s = .ok (Cells.read s.ram (ramOffset addr), s) := by
  simp [memRead, ha]

/-- A read at or above 0x6000 gives the mapper's byte and changes nothing (20_memory R77, R90). -/
theorem memRead_mapper {addr : Word} (ha : 0x6000 ≤ addr.toNat) {s : State} {u : Byte}
    (hu : s.board.mapper.read addr = .ok u) : memRead addr s = .ok (u, s) := by
  have h1 : ¬ addr.toNat < 0x2000 := by omega
  have h2 : ¬ addr.toNat < 0x4000 := by omega
  have h3 : ¬ addr.toNat = 0x4015 := by omega
  have h4 : ¬ addr.toNat = 0x4016 := by omega
  have h5 : ¬ addr.toNat < 0x4018 := by omega
  have h6 : ¬ addr.toNat < 0x6000 := by omega
  simp [memRead, Board.busRead, h1, h2, h3, h4, h5, h6, hu]

/-- A read at 0x2000 to 0x3FFF is the graphics register's read (20_memory R82). -/
theorem memRead_register {addr : Word} (ha : 0x2000 ≤ addr.toNat) (hb : addr.toNat < 0x4000) {s : State}
    {u : Byte} {b : Board} (h : s.board.readRegister (GfxRegister.ofAddress addr) = .ok (u, b)) :
    memRead addr s = .ok (u, { s with board := b }) := by
  have h1 : ¬ addr.toNat < 0x2000 := by omega
  simp only [memRead, Board.busRead, h1, hb, if_true, if_false, h]

/-- A read of plain memory gives its byte and changes nothing (20_memory R77). -/
theorem memRead_plain {s : State} (h : s.Inv) {addr : Word} (ha : plainAddress addr = true) :
    memRead addr s = .ok (s.byteAt addr, s) := by
  simp only [plainAddress, Bool.or_eq_true, decide_eq_true_eq] at ha
  by_cases h1 : addr.toNat < 0x2000
  · rw [memRead_ram h1]
    simp [State.byteAt, h1]
  · have h2 : 0x6000 ≤ addr.toNat := by omega
    have h3 : ¬ addr.toNat < 0x6000 := by omega
    obtain ⟨u, hu⟩ := Mapper.read_ok h.board.mapper addr
    rw [memRead_mapper h2 hu]
    simp [State.byteAt, h1, h3, hu]

/-- A byte of plain memory depends on RAM and the mapper only. -/
theorem State.byteAt_congr {s t : State} (hr : t.ram = s.ram) (hm : t.board.mapper = s.board.mapper)
    (addr : Word) : t.byteAt addr = s.byteAt addr := by
  simp only [State.byteAt, hr, hm]

theorem State.pointerAt_congr {s t : State} (hr : t.ram = s.ram) (hm : t.board.mapper = s.board.mapper)
    (addr : Word) : t.pointerAt addr = s.pointerAt addr := by
  simp only [State.pointerAt, State.byteAt_congr hr hm]

@[simp] theorem State.byteAt_setPc (s : State) (pc addr : Word) :
    ({ s with pc := pc } : State).byteAt addr = s.byteAt addr := State.byteAt_congr rfl rfl addr

@[simp] theorem State.pointerAt_setPc (s : State) (pc addr : Word) :
    ({ s with pc := pc } : State).pointerAt addr = s.pointerAt addr := State.pointerAt_congr rfl rfl addr

theorem memRead_ok {s : State} (h : s.Inv) (addr : Word) : ∃ u t, memRead addr s = .ok (u, t) := by
  unfold memRead
  split
  · exact ⟨_, _, rfl⟩
  · obtain ⟨u, b, hb⟩ := Board.busRead_ok h.board addr
    exact ⟨u, { s with board := b }, by rw [hb]⟩

theorem memRead_readsTo {addr : Word} {s t : State} {u : Byte} (h : memRead addr s = .ok (u, t)) :
    s.ReadsTo t := by
  unfold memRead at h
  split at h
  · cases h; exact State.ReadsTo.refl _
  · split at h <;> cases h
    rename_i hb
    exact ⟨rfl, Board.busRead_readsTo hb⟩

/-- A sequence of two reads, as in `MemRead16` and `MemRead16Bug`. -/
theorem memRead_pair_ok {s : State} (h : s.Inv) (addr addr' : Word) :
    ∃ u v t t', memRead addr s = .ok (u, t) ∧ memRead addr' t = .ok (v, t') ∧ s.ReadsTo t' := by
  obtain ⟨u, t, ht⟩ := memRead_ok h addr
  have hr := memRead_readsTo ht
  obtain ⟨v, t', ht'⟩ := memRead_ok (hr.inv h) addr'
  exact ⟨u, v, t, t', ht, ht', hr.trans (memRead_readsTo ht')⟩

theorem memRead16_ok {s : State} (h : s.Inv) (addr : Word) : ∃ w t, memRead16 addr s = .ok (w, t) := by
  obtain ⟨u, v, t, t', ht, ht', -⟩ := memRead_pair_ok h addr (addr + 1#16)
  exact ⟨wordOf u v, t', by rw [memRead16, Access.bind_of_ok ht, Access.bind_of_ok ht']; rfl⟩

theorem memRead16Bug_ok {s : State} (h : s.Inv) (addr : Word) :
    ∃ w t, memRead16Bug addr s = .ok (w, t) := by
  obtain ⟨u, v, t, t', ht, ht', -⟩ := memRead_pair_ok h addr (nextInPage addr)
  exact ⟨wordOf u v, t', by rw [memRead16Bug, Access.bind_of_ok ht, Access.bind_of_ok ht']; rfl⟩

theorem memRead16_readsTo {addr : Word} {s t : State} {w : Word} (h : memRead16 addr s = .ok (w, t)) :
    s.ReadsTo t := by
  unfold memRead16 at h
  obtain ⟨u, t', h1, h2⟩ := Access.bind_ok_iff.1 h
  obtain ⟨v, t'', h3, h4⟩ := Access.bind_ok_iff.1 h2
  cases h4
  exact (memRead_readsTo h1).trans (memRead_readsTo h3)

theorem memRead16Bug_readsTo {addr : Word} {s t : State} {w : Word}
    (h : memRead16Bug addr s = .ok (w, t)) : s.ReadsTo t := by
  unfold memRead16Bug at h
  obtain ⟨u, t', h1, h2⟩ := Access.bind_ok_iff.1 h
  obtain ⟨v, t'', h3, h4⟩ := Access.bind_ok_iff.1 h2
  cases h4
  exact (memRead_readsTo h1).trans (memRead_readsTo h3)

/-- A pointer of plain cartridge memory is read without side effects. -/
theorem memRead16_mapper {s : State} (h : s.Inv) {addr : Word} (ha : 0x6000 ≤ addr.toNat)
    (hn : addr.toNat < 0xFFFF) : memRead16 addr s = .ok (s.pointerAt addr, s) := by
  have hsucc : (addr + 1#16).toNat = addr.toNat + 1 := by
    rw [BitVec.toNat_add]; simp; omega
  obtain ⟨u, hu⟩ := Mapper.read_ok h.board.mapper addr
  obtain ⟨v, hv⟩ := Mapper.read_ok h.board.mapper (addr + 1#16)
  have h1 : ¬ addr.toNat < 0x2000 := by omega
  have h2 : ¬ addr.toNat < 0x6000 := by omega
  have h3 : ¬ (addr + 1#16).toNat < 0x2000 := by omega
  have h4 : ¬ (addr + 1#16).toNat < 0x6000 := by omega
  have hp : s.pointerAt addr = wordOf u v := by
    unfold State.pointerAt State.byteAt
    rw [if_neg h1, if_neg h2, if_neg h3, if_neg h4, hu, hv]
  rw [memRead16, Access.bind_of_ok (memRead_mapper ha hu),
    Access.bind_of_ok (memRead_mapper (by omega) hv), hp]
  rfl

/-! ### `MemWrite` -/

theorem ramOffset_lt (addr : Word) : ramOffset addr < 0x800 := Nat.mod_lt _ (by decide)

theorem State.Inv.writeRam {s : State} (h : s.Inv) (addr : Word) (u : Byte) : (s.writeRam addr u).Inv :=
  ⟨h.ram.write u (ramOffset_lt addr), h.board, h.loaded⟩

/-- A RAM write stores the byte and changes nothing else (20_memory R81, R91). -/
theorem memWrite_ram {addr : Word} (ha : addr.toNat < 0x2000) (u : Byte) (s : State) :
    memWrite addr u s = .ok ((), s.writeRam addr u) := by
  simp [memWrite, ha]

/-- A write at 0x2000 to 0x3FFF is the graphics register's write (20_memory R82, R91). -/
theorem memWrite_register {addr : Word} (ha : 0x2000 ≤ addr.toNat) (hb : addr.toNat < 0x4000) {s : State}
    {u : Byte} {b : Board} (h : s.board.writeRegister (GfxRegister.ofAddress addr) u = .ok b) :
    memWrite addr u s = .ok ((), { s with board := b }) := by
  have h1 : ¬ addr.toNat < 0x2000 := by omega
  have h2 : ¬ addr.toNat = 0x4014 := by omega
  simp only [memWrite, Board.busWrite, h1, h2, hb, if_true, if_false, h]

/-- A write at or above 0x6000 is the mapper's write (20_memory R91, R106). -/
theorem memWrite_mapper {addr : Word} (ha : 0x6000 ≤ addr.toNat) (u : Byte) (s : State) :
    memWrite addr u s =
      .ok ((), { s with board := { s.board with mapper := s.board.mapper.write addr u } }) := by
  have h1 : ¬ addr.toNat < 0x2000 := by omega
  have h2 : ¬ addr.toNat = 0x4014 := by omega
  have h3 : ¬ addr.toNat < 0x4000 := by omega
  have h4 : ¬ addr.toNat < 0x6000 := by omega
  simp only [memWrite, Board.busWrite, h1, h2, h3, h4, if_false]

theorem dmaCopy_ok {s : State} (h : s.Inv) (oamAddr page : Byte) (k : Nat) :
    ∃ t, dmaCopy oamAddr page k s = .ok ((), t) ∧ t.Inv := by
  induction k generalizing s with
  | zero => exact ⟨s, rfl, h⟩
  | succ k ih =>
    obtain ⟨u, t, ht⟩ := memRead_ok h (wordOf (BitVec.ofNat 8 (255 - k)) page)
    have hi := (memRead_readsTo ht).inv h
    obtain ⟨t', ht', hi'⟩ := ih (s := { t with board := t.board.writeOam (oamAddr + BitVec.ofNat 8 (255 - k)) u })
      ⟨hi.ram, hi.board.writeOam _ _, hi.loaded⟩
    exact ⟨t', by rw [dmaCopy, Access.bind_of_ok ht, Access.bind_modify, ht'], hi'⟩

/-- A DMA copy changes the board only. -/
theorem dmaCopy_board {oamAddr page : Byte} {k : Nat} {s t : State}
    (h : dmaCopy oamAddr page k s = .ok ((), t)) : t = { s with board := t.board } := by
  induction k generalizing s with
  | zero => cases h; rfl
  | succ k ih =>
    obtain ⟨u, t', h1, h2⟩ := Access.bind_ok_iff.1 h
    rw [Access.bind_modify] at h2
    have := ih h2
    rw [this, (memRead_readsTo h1).processor]

theorem oamDma_ok {s : State} (h : s.Inv) (page : Byte) : ∃ t, oamDma page s = .ok ((), t) ∧ t.Inv := by
  obtain ⟨t, ht, hi⟩ := dmaCopy_ok h s.board.gfx.oamAddr page 256
  exact ⟨{ t with
      board := { t.board with gfx := { t.board.gfx with oamAddr := s.board.gfx.oamAddr } }
      stall := t.stall + 513 + t.cycles % 2 },
    by rw [oamDma, Access.bind_get, Access.bind_of_ok ht]; rfl,
    hi.ram, ⟨{ hi.board.gfx with }, hi.board.mapper⟩, hi.loaded⟩

/-- OAM DMA: registers, flags, PC and RAM stay, the OAM address is restored, and the stall grows by 513
plus the parity of the cycle counter (20_memory R95, R96). -/
theorem oamDma_spec {page : Byte} {s t : State} (h : oamDma page s = .ok ((), t)) :
    t = { s with board := t.board, stall := s.stall + 513 + s.cycles % 2 }
      ∧ t.board.gfx.oamAddr = s.board.gfx.oamAddr := by
  rw [oamDma, Access.bind_get] at h
  obtain ⟨_, t', h1, h2⟩ := Access.bind_ok_iff.1 h
  have hb := dmaCopy_board h1
  cases h2
  refine ⟨?_, rfl⟩
  rw [hb]

theorem Board.busWrite_ok {b : Board} (h : b.Ok) (addr : Word) (u : Byte) :
    ∃ b', b.busWrite addr u = .ok b' ∧ b'.Ok := by
  unfold Board.busWrite
  split
  · exact Board.writeRegister_ok h _ u
  · split
    · exact ⟨b, rfl, h⟩
    · exact ⟨_, rfl, h.gfx, h.mapper.write (by omega) u⟩

/-- Every write answers and keeps the invariant. -/
theorem memWrite_ok {s : State} (h : s.Inv) (addr : Word) (u : Byte) :
    ∃ t, memWrite addr u s = .ok ((), t) ∧ t.Inv := by
  unfold memWrite
  split
  · exact ⟨_, rfl, h.writeRam addr u⟩
  · split
    · exact oamDma_ok h u
    · obtain ⟨b, hb, hok⟩ := Board.busWrite_ok h.board addr u
      exact ⟨{ s with board := b }, by rw [hb], h.ram, hok, h.loaded⟩

theorem memWrite_writesTo {addr : Word} {u : Byte} {s t : State} (h : memWrite addr u s = .ok ((), t)) :
    s.WritesTo t := by
  unfold memWrite at h
  split at h
  · cases h; rfl
  · split at h
    · unfold State.WritesTo
      rw [(oamDma_spec h).1]
    · split at h <;> cases h
      rfl

/-! ### The stack -/

theorem stackAddress_toNat (sp : Byte) : (stackAddress sp).toNat = 0x100 + sp.toNat := by
  have h : (0x01#8 ++ sp).toNat = 1 <<< 8 ||| sp.toNat := BitVec.toNat_append _ _
  rw [Nat.shiftLeft_eq, Nat.mul_comm, ← Nat.two_pow_add_eq_or_of_lt sp.isLt] at h
  exact h

theorem ramOffset_stackAddress (sp : Byte) : ramOffset (stackAddress sp) = 0x100 + sp.toNat := by
  have := sp.isLt
  rw [ramOffset, stackAddress_toNat]
  omega

/-- `Push` in closed form (20_memory R86). -/
theorem push_apply (u : Byte) (s : State) : push u s = .ok ((), s.pushed u) := by
  have hlt : (stackAddress s.sp).toNat < 0x2000 := by
    have := s.sp.isLt
    rw [stackAddress_toNat]; omega
  rw [push, Access.bind_get, Access.bind_of_ok (memWrite_ram hlt u s)]
  simp [State.pushed, State.writeRam, ramOffset_stackAddress]

/-- `Pull` in closed form (20_memory R86). -/
theorem pull_apply (s : State) : pull s = .ok (s.stackByte 1, { s with sp := s.sp + 1#8 }) := by
  have hlt : (stackAddress (s.sp + 1#8)).toNat < 0x2000 := by
    have := (s.sp + 1#8).isLt
    rw [stackAddress_toNat]; omega
  rw [pull, Access.bind_modify, Access.bind_get, memRead_ram hlt]
  simp [State.stackByte, ramOffset_stackAddress]

theorem push16_apply (w : Word) (s : State) :
    push16 w s = .ok ((), (s.pushed (highByte w)).pushed (lowByte w)) := by
  rw [push16, Access.bind_of_ok (push_apply _ _), push_apply]

theorem State.stackByte_pulled (s : State) (k : Nat) :
    ({ s with sp := s.sp + 1#8 } : State).stackByte k = s.stackByte (k + 1) := by
  have : s.sp + 1#8 + BitVec.ofNat 8 k = s.sp + BitVec.ofNat 8 (k + 1) := by
    rw [BitVec.add_assoc]
    congr 1
    apply BitVec.eq_of_toNat_eq
    simp [BitVec.toNat_add]
    omega
  simp only [State.stackByte, this]

theorem pull16_apply (s : State) :
    pull16 s = .ok (wordOf (s.stackByte 1) (s.stackByte 2), { s with sp := s.sp + 2#8 }) := by
  rw [pull16, Access.bind_of_ok (pull_apply _), Access.bind_of_ok (pull_apply _),
    State.stackByte_pulled]
  have : s.sp + 1#8 + 1#8 = s.sp + 2#8 := by rw [BitVec.add_assoc]; rfl
  simp [this]

theorem State.Inv.pushed {s : State} (h : s.Inv) (u : Byte) : (s.pushed u).Inv :=
  ⟨h.ram.write u (by have := s.sp.isLt; omega), h.board, h.loaded⟩

@[simp] theorem State.pushed_board (s : State) (u : Byte) : (s.pushed u).board = s.board := rfl

theorem State.pointerAt_pushed (s : State) (u : Byte) {addr : Word} (ha : 0x2000 ≤ addr.toNat)
    (hn : addr.toNat < 0xFFFF) : (s.pushed u).pointerAt addr = s.pointerAt addr := by
  have hsucc : (addr + 1#16).toNat = addr.toNat + 1 := by
    rw [BitVec.toNat_add]; simp; omega
  have h1 : ¬ addr.toNat < 0x2000 := by omega
  have h2 : ¬ (addr + 1#16).toNat < 0x2000 := by omega
  simp only [State.pointerAt, State.byteAt, h1, h2, if_false, State.pushed_board]

/-- The stack bytes above SP depend on RAM and SP only. -/
theorem State.stackByte_congr {s t : State} (hr : t.ram = s.ram) (hs : t.sp = s.sp) (k : Nat) :
    t.stackByte k = s.stackByte k := by
  simp only [State.stackByte, hr, hs]

/-- What lies above SP after a push: the byte pushed, then what lay there before. -/
theorem State.stackByte_pushed {s : State} (h : Cells.wf s.ram = true) (u : Byte) {k : Nat} (hk : k < 255) :
    (s.pushed u).stackByte (k + 1) = if k = 0 then u else s.stackByte k := by
  show Cells.read (Cells.write s.ram (0x100 + s.sp.toNat) u) (0x100 + (s.sp - 1#8 + BitVec.ofNat 8 (k + 1)).toNat) = _
  have hs := s.sp.isLt
  have hsum : s.sp - 1#8 + BitVec.ofNat 8 (k + 1) = s.sp + BitVec.ofNat 8 k := by
    apply BitVec.eq_of_toNat_eq
    simp only [BitVec.toNat_add, BitVec.toNat_sub, BitVec.toNat_ofNat]
    omega
  rw [Cells.read_write h, hsum]
  have hiff : 0x100 + (s.sp + BitVec.ofNat 8 k).toNat = 0x100 + s.sp.toNat ↔ k = 0 := by
    simp only [BitVec.toNat_add, BitVec.toNat_ofNat]
    omega
  simp only [hiff, State.stackByte]

/-! ### Exceptions -/

/-- Taking an exception in closed form (60_exceptions R320, R321; 44_control R284). -/
theorem enterException_apply {s : State} (h : s.Inv) (back vector : Word) (breakBit : Bool)
    (hv : 0x6000 ≤ vector.toNat) (hn : vector.toNat < 0xFFFF) :
    enterException back vector breakBit s = .ok ((),
      { ((s.pushed (highByte back)).pushed (lowByte back)).pushed (s.packP breakBit true) with
        i := true, pc := s.pointerAt vector }) := by
  have hi := ((h.pushed (highByte back)).pushed (lowByte back)).pushed (s.packP breakBit true)
  rw [enterException, Access.bind_of_ok (push16_apply _ _), Access.bind_get]
  have hp : ((s.pushed (highByte back)).pushed (lowByte back)).packP breakBit true = s.packP breakBit true := rfl
  rw [Access.bind_of_ok (push_apply _ _), hp, Access.bind_of_ok (memRead16_mapper hi hv hn)]
  simp only [Access.modify_apply]
  rw [State.pointerAt_pushed _ _ (by omega) hn, State.pointerAt_pushed _ _ (by omega) hn,
    State.pointerAt_pushed _ _ (by omega) hn]

/-- Returning from an exception in closed form (44_control R285). -/
theorem leaveException_apply (s : State) :
    leaveException s = .ok ((),
      { s.unpackP (s.stackByte 1) with
        sp := s.sp + 3#8, pc := wordOf (s.stackByte 2) (s.stackByte 3) }) := by
  rw [leaveException, Access.bind_of_ok (pull_apply _), Access.bind_modify,
    Access.bind_of_ok (pull16_apply _)]
  have hsp : s.sp + 1#8 + 2#8 = s.sp + 3#8 := by rw [BitVec.add_assoc]; rfl
  have hb : ∀ k, (({ s with sp := s.sp + 1#8 } : State).unpackP (s.stackByte 1)).stackByte k
      = s.stackByte (k + 1) := fun k => State.stackByte_pulled s k
  simp only [Access.modify_apply, hb]
  simp [State.unpackP, hsp]

end Sys2Proof.Machine
end

