-- ==== Sys2Proof/Laws/Cartridge.lean ====
section
/-! SUPPORT. Loading and reset: what a slice of an image reads, the mapper built from a header satisfies its
invariant, and the state after a reset in terms of the state before. -/

namespace Sys2Proof

variable {w : Nat}

theorem Cells.slice_cons (lo hi j : Nat) (u : BitVec w) (rest : Cells w) :
    Cells.slice lo hi ((j, u) :: rest) =
      if lo ≤ j ∧ j < hi then (j - lo, u) :: Cells.slice lo hi rest else Cells.slice lo hi rest := by
  by_cases h : lo ≤ j ∧ j < hi
  · simp [Cells.slice, h]
  · rw [if_neg h, Cells.slice, List.filter_cons_of_neg (by simpa using h)]
    rfl

/-- A slice reads the cells of its range, moved down. -/
theorem Cells.read_slice (lo hi : Nat) (m : Cells w) (k : Nat) :
    Cells.read (Cells.slice lo hi m) k = if lo + k < hi then Cells.read m (lo + k) else 0#w := by
  induction m with
  | nil => simp [Cells.slice]
  | cons p rest ih =>
    obtain ⟨j, u⟩ := p
    rw [Cells.slice_cons]
    by_cases e : lo + k = j
    · subst e
      by_cases h : lo + k < hi
      · simp [Cells.read, h]
      · simp [h, ih]
    · have e' : ¬ (lo ≤ j ∧ k = j - lo) := by omega
      split
      · rename_i h
        have e'' : ¬ k = j - lo := fun h' => e' ⟨h.1, h'⟩
        simp only [Cells.read, e, e'', if_false, ih]
      · simp only [Cells.read, e, if_false, ih]

theorem Cells.wfFrom_slice (lo hi : Nat) {m : Cells w} {n : Nat} (h : Cells.wfFrom n m = true) :
    Cells.wfFrom (n - lo) (Cells.slice lo hi m) = true := by
  induction m generalizing n with
  | nil => rfl
  | cons p rest ih =>
    obtain ⟨j, u⟩ := p
    simp only [Cells.wfFrom, Bool.and_eq_true, decide_eq_true_eq] at h
    have hr := ih h.2
    rw [Cells.slice_cons]
    split
    · have e : j + 1 - lo = j - lo + 1 := by omega
      simp only [Cells.wfFrom, Bool.and_eq_true, decide_eq_true_eq]
      exact ⟨⟨by omega, h.1.2⟩, e ▸ hr⟩
    · exact Cells.wfFrom_mono hr (by omega)

theorem Cells.below_slice (lo hi : Nat) (m : Cells w) :
    Cells.below (hi - lo) (Cells.slice lo hi m) = true := by
  simp only [Cells.slice, Cells.below, List.all_map, List.all_eq_true, List.mem_filter, decide_eq_true_eq,
    Function.comp]
  intro cell h
  have := h.2
  omega

/-- A slice of a canonical array is canonical and inside its range. -/
theorem Cells.Ok.slice (lo hi : Nat) {m : Cells w} (h : Cells.wf m = true) :
    Cells.Ok (hi - lo) (Cells.slice lo hi m) :=
  ⟨by simpa [Cells.wf] using Cells.wfFrom_slice lo hi h, Cells.below_slice lo hi m⟩

theorem Cells.Ok.mono {m : Cells w} {n n' : Nat} (h : Cells.Ok n m) (hn : n ≤ n') : Cells.Ok n' m := by
  refine ⟨h.wf, ?_⟩
  have hb := h.below
  simp only [Cells.below, List.all_eq_true, decide_eq_true_eq] at hb ⊢
  exact fun cell hc => Nat.lt_of_lt_of_le (hb cell hc) hn

namespace Machine

/-- The mapper built from a header with at least one program bank satisfies the invariant. -/
theorem buildMapper_ok {h : Header} {prog chr saveRam : Memory} (hb : 0 < h.progBanks)
    (hp : Cells.Ok (h.progBanks * 0x4000) prog) (hc : Cells.Ok (max h.chrBanks 1 * 0x2000) chr)
    (hs : Cells.Ok 0x2000 saveRam) : (buildMapper h prog chr saveRam).Ok := by
  refine ⟨⟨rfl, rfl, ?_, ?_, hp⟩, ⟨rfl, rfl, ?_, ?_, hc⟩, rfl, rfl, hb, hs, Nat.zero_le _⟩
  · simp [buildMapper, BankMemory.switchBank, BankMemory.switchPages, Config.pageSize]
  · rw [List.all_eq_true]
    intro p hp'
    simp only [buildMapper, BankMemory.switchBank, BankMemory.switchPages, Config.pageSize] at hp'
    obtain ⟨k, hk, rfl⟩ := List.mem_mapIdx.1 hp'
    have hk' : k < 32 := by simpa using hk
    show decide (_ * 0x400 ≤ h.progBanks * 0x4000) = true
    simp only [decide_eq_true_eq, List.getElem_mapIdx]
    split
    · omega
    · have : k < 16 := by omega
      simp [this]
      omega
  · simp [buildMapper, Config.pageSize]
  · rw [List.all_eq_true]
    intro p hp'
    have : p < 8 := List.mem_range.1 hp'
    show decide ((p + 1) * 0x400 ≤ max h.chrBanks 1 * 0x2000) = true
    simp only [decide_eq_true_eq]
    omega

theorem Mapper.Ok.rebuilt {m : Mapper} (h : m.Ok) : m.rebuilt.Ok := by
  refine buildMapper_ok h.progBanks (h.progSize ▸ h.prog.data) ?_ h.saveRam
  split
  · exact Cells.Ok.nil _
  · exact h.chrSize ▸ h.chr.data

theorem Gfx.Ok.reset : Gfx.Ok Gfx.reset :=
  ⟨Nat.zero_le _, Nat.zero_le _, Cells.Ok.nil _, Cells.Ok.nil _, Cells.Ok.nil _, Cells.Ok.nil _, Cells.Ok.nil _,
    Cells.Ok.nil _, Cells.Ok.nil _⟩

/-- The state during a reset, before PC is loaded (70_reset_and_hazards R401, R404, R405). -/
def State.cleared (s : State) : State :=
  { State.reset with
    pc := s.pc, ram := s.ram
    board := ⟨Gfx.reset, s.board.mapper.rebuilt, s.board.freeCount⟩, loaded := s.loaded }

theorem State.cleared_inv {s : State} (hl : s.loaded = true) (hr : Cells.Ok 0x800 s.ram)
    (hm : s.board.mapper.rebuilt.Ok) : s.cleared.Inv := ⟨hr, ⟨Gfx.Ok.reset, hm⟩, hl⟩

/-- The state after a reset, in closed form (70_reset_and_hazards R400 to R405). -/
theorem resetMachine_apply {s : State} (hl : s.loaded = true) (hr : Cells.Ok 0x800 s.ram)
    (hm : s.board.mapper.rebuilt.Ok) :
    resetMachine s = .next { s.cleared with pc := s.cleared.pointerAt Config.resetVector } := by
  have hv := memRead16_mapper (State.cleared_inv hl hr hm) (addr := Config.resetVector) (by decide) (by decide)
  rw [resetMachine, if_pos hl]
  refine Access.outcome_of_ok ?_
  rw [resetProcessor, Access.bind_modify]
  exact Access.bind_of_ok hv

end Machine
end Sys2Proof
end

