-- ==== Sys2Proof/Laws/Operands.lean ====
section
/-! SUPPORT. Operand resolution, the frame before a handler, and every handler shape: each answers when the
invariant holds, and what it answers in terms of the operand read. -/

namespace Sys2Proof.Machine

open Sys2Proof

/-! ### Resolution -/

theorem memRead16Bug_zeroPage (zp : Byte) (s : State) :
    memRead16Bug (zp.setWidth 16) s = .ok
      (wordOf (Cells.read s.ram zp.toNat) (Cells.read s.ram (zp + 1#8).toNat), s) := by
  have h8 := zp.isLt
  have hz : (zp.setWidth 16).toNat = zp.toNat := by simp [BitVec.toNat_setWidth]; omega
  have hn : (nextInPage (zp.setWidth 16)).toNat = (zp + 1#8).toNat := by
    have h : nextInPage (zp.setWidth 16) = (zp + 1#8).setWidth 16 := by
      unfold nextInPage wordOf lowByte highByte
      ext k hk
      simp only [BitVec.getElem_append, BitVec.getElem_setWidth, BitVec.getElem_extractLsb']
      have hl : (BitVec.extractLsb' 0 8 (zp.setWidth 16)) = zp := by
        ext j hj
        simp [BitVec.getElem_extractLsb', hj]
        omega
      split
      · rw [hl, BitVec.getLsbD_eq_getElem]
      · rename_i hge
        have : 8 ≤ k := by omega
        simp [this]
    rw [h, BitVec.toNat_setWidth]
    have := (zp + 1#8).isLt
    omega
  have h1 : (zp.setWidth 16).toNat < 0x2000 := by omega
  have h2 : (nextInPage (zp.setWidth 16)).toNat < 0x2000 := by
    have := (zp + 1#8).isLt
    omega
  have o1 : ramOffset (zp.setWidth 16) = zp.toNat := by unfold ramOffset; omega
  have o2 : ramOffset (nextInPage (zp.setWidth 16)) = (zp + 1#8).toNat := by
    have := (zp + 1#8).isLt
    unfold ramOffset; omega
  rw [memRead16Bug, Access.bind_of_ok (memRead_ram h1 s), Access.bind_of_ok (memRead_ram h2 s), o1, o2]
  rfl

/-- All that resolving an operand may change: the latch, and what a pointer read may change. -/
def State.ResolvesTo (s r : State) : Prop := ({ s with extra := r.extra } : State).ReadsTo r

theorem resolve_ok {s : State} (h : s.Inv) (m : Operand) : ∃ addr r, resolve m s = .ok (addr, r) := by
  have h' : ({ s with extra := false } : State).Inv := ⟨h.ram, h.board, h.loaded⟩
  unfold resolve
  rw [Access.bind_modify, Access.bind_get]
  cases m
  case indirect ptr => exact memRead16Bug_ok h' ptr
  case indexedIndirectX zp => exact memRead16Bug_ok h' _
  case indirectIndexedY zp =>
    simp only
    rw [Access.bind_of_ok (memRead16Bug_zeroPage zp _)]
    exact ⟨_, _, rfl⟩
  all_goals exact ⟨_, _, rfl⟩

theorem memRead16Bug_extra {addr : Word} {s t : State} {w : Word}
    (h : memRead16Bug addr s = .ok (w, t)) : t.extra = s.extra := by
  rw [(memRead16Bug_readsTo h).processor]

theorem resolve_resolvesTo {m : Operand} {s r : State} {addr : Word} (h : resolve m s = .ok (addr, r)) :
    s.ResolvesTo r := by
  unfold resolve at h
  rw [Access.bind_modify, Access.bind_get] at h
  cases m
  case indirect ptr | indexedIndirectX zp =>
    have he := memRead16Bug_extra h
    have hr := memRead16Bug_readsTo h
    unfold State.ResolvesTo
    rw [he]
    exact hr
  case indirectIndexedY zp =>
    simp only at h
    rw [Access.bind_of_ok (memRead16Bug_zeroPage zp _)] at h
    cases h
    exact ⟨rfl, Board.ReadsTo.refl _⟩
  all_goals
    cases h
    exact ⟨rfl, Board.ReadsTo.refl _⟩

theorem State.ResolvesTo.board {s r : State} (h : s.ResolvesTo r) : s.board.ReadsTo r.board := by
  have h' : ({ s with extra := r.extra } : State).board.ReadsTo r.board := State.ReadsTo.board h
  exact h'

theorem State.ResolvesTo.eq {s r : State} (h : s.ResolvesTo r) :
    r = { s with extra := r.extra, board := r.board } := State.ReadsTo.processor h

theorem State.ResolvesTo.inv {s r : State} (h : s.ResolvesTo r) (hs : s.Inv) : r.Inv :=
  State.ReadsTo.inv h ⟨hs.ram, hs.board, hs.loaded⟩

/-! ### The frame -/

/-- Every well-formed instruction but an absent opcode has a descriptor (30_encoding R163). -/
theorem Instr.descriptor_of_wf {i : Instr} (hw : i.wf = true) (hp : i.present = true) :
    ∃ row, i.descriptor? = some row := by
  rw [← Option.isSome_iff_exists]
  cases i
  case absent => cases hp
  case lda m | ldx m | ldy m | sta m | stx m | sty m | adc m | sbc m | cmp m | cpx m | cpy m | inc m
    | dec m | and m | ora m | eor m | bit m | asl m | lsr m | rol m | ror m | jmp m =>
    cases m <;> first | rfl | cases hw
  all_goals rfl

theorem beginOperand_apply {instr : Instr} {m : Operand} {s r : State} {addr : Word} {row : Descriptor}
    (hr : resolve m s = .ok (addr, r)) (hd : instr.descriptor? = some row) :
    beginOperand instr m s = .ok (addr, r.advance instr.size row.base) := by
  have ha : advancePast instr r = .ok ((), r.advance instr.size row.base) := by
    unfold advancePast; rw [hd]
  rw [beginOperand, Access.bind_of_ok hr, Access.bind_of_ok ha]
  rfl

theorem beginImplied_apply {instr : Instr} {row : Descriptor} (hd : instr.descriptor? = some row)
    (s : State) :
    beginImplied instr s = .ok ((), ({ s with extra := false } : State).advance instr.size row.base) := by
  rw [beginImplied, Access.bind_modify]
  unfold advancePast
  rw [hd]

theorem State.Inv.advance {s : State} (h : s.Inv) (size base : Nat) : (s.advance size base).Inv :=
  ⟨h.ram, h.board, h.loaded⟩

theorem reachesHandler_ok {instr : Instr} {m : Operand} {s : State} (h : s.Inv)
    (hw : instr.wf = true) (hp : instr.present = true) :
    ∃ addr t, ReachesHandler instr m s addr t := by
  obtain ⟨addr, r, hr⟩ := resolve_ok h m
  obtain ⟨row, hd⟩ := Instr.descriptor_of_wf hw hp
  exact ⟨addr, _, r, row, hr, hd, rfl⟩

/-- The state at which a handler runs: PC advanced, base cost added, the latch written; what a pointer
read may change on the board; nothing else. -/
theorem ReachesHandler.spec {instr : Instr} {m : Operand} {s t : State} {addr : Word}
    (h : ReachesHandler instr m s addr t) :
    ∃ row, instr.descriptor? = some row ∧ s.board.ReadsTo t.board ∧
      t = { s with
        pc := s.pc + BitVec.ofNat 16 instr.size, cycles := s.cycles + row.base
        extra := t.extra, board := t.board } := by
  obtain ⟨r, row, hr, hd, rfl⟩ := h
  have hr' := resolve_resolvesTo hr
  refine ⟨row, hd, hr'.board, ?_⟩
  have he := hr'.eq
  unfold State.advance
  rw [he]

/-- The same in the form that later proofs substitute. -/
theorem ReachesHandler.shape {instr : Instr} {m : Operand} {s t : State} {addr : Word}
    (h : ReachesHandler instr m s addr t) :
    ∃ row extra board, instr.descriptor? = some row ∧ s.board.ReadsTo board ∧
      t = { s with
        pc := s.pc + BitVec.ofNat 16 instr.size, cycles := s.cycles + row.base
        extra := extra, board := board } := by
  obtain ⟨row, hd, hb, ht⟩ := h.spec
  exact ⟨row, _, _, hd, hb, ht⟩

theorem ReachesHandler.inv {instr : Instr} {m : Operand} {s t : State} {addr : Word}
    (h : ReachesHandler instr m s addr t) (hs : s.Inv) : t.Inv := by
  obtain ⟨row, -, hb, ht⟩ := h.spec
  rw [ht]
  exact ⟨hs.ram, hb.ok hs.board, hs.loaded⟩

theorem ReachesHandler.apply {instr : Instr} {m : Operand} {s t : State} {addr : Word}
    (h : ReachesHandler instr m s addr t) : beginOperand instr m s = .ok (addr, t) := by
  obtain ⟨r, row, hr, hd, rfl⟩ := h
  exact beginOperand_apply hr hd

/-! ### Operand reads -/

theorem readOperand_ok {s : State} (h : s.Inv) (m : Operand) (addr : Word) :
    ∃ u t, readOperand m addr s = .ok (u, t) := by
  cases m
  case accumulator | immediate => exact ⟨_, _, rfl⟩
  all_goals exact memRead_ok h addr

theorem readOperand_readsTo {m : Operand} {addr : Word} {s t : State} {u : Byte}
    (h : readOperand m addr s = .ok (u, t)) : s.ReadsTo t := by
  cases m
  case accumulator | immediate => cases h; exact State.ReadsTo.refl _
  all_goals exact memRead_readsTo h

theorem readsOperand_ok {instr : Instr} {m : Operand} {s : State} (h : s.Inv)
    (hw : instr.wf = true) (hp : instr.present = true) : ∃ u t, ReadsOperand instr m s u t := by
  obtain ⟨addr, r, hr⟩ := resolve_ok h m
  obtain ⟨row, hd⟩ := Instr.descriptor_of_wf hw hp
  obtain ⟨u, t, ht⟩ := readOperand_ok (((resolve_resolvesTo hr).inv h).advance instr.size row.base) m addr
  exact ⟨u, t, addr, r, row, hr, hd, ht⟩

/-- After an operand read: PC advanced, base cost added, the latch written; what bus reads may change on
the board; nothing else. -/
theorem ReadsOperand.spec {instr : Instr} {m : Operand} {s t : State} {u : Byte}
    (h : ReadsOperand instr m s u t) :
    ∃ row, instr.descriptor? = some row ∧ s.board.ReadsTo t.board ∧
      t = { s with
        pc := s.pc + BitVec.ofNat 16 instr.size, cycles := s.cycles + row.base
        extra := t.extra, board := t.board } := by
  obtain ⟨addr, r, row, hr, hd, ht⟩ := h
  have hr' := resolve_resolvesTo hr
  have ht' := readOperand_readsTo ht
  refine ⟨row, hd, hr'.board.trans ht'.board, ?_⟩
  have he := hr'.eq
  have hp := ht'.processor
  unfold State.advance at hp
  rw [he] at hp
  rw [hp]

/-- The same in the form that later proofs substitute. -/
theorem ReadsOperand.shape {instr : Instr} {m : Operand} {s t : State} {u : Byte}
    (h : ReadsOperand instr m s u t) :
    ∃ row extra board, instr.descriptor? = some row ∧ s.board.ReadsTo board ∧
      t = { s with
        pc := s.pc + BitVec.ofNat 16 instr.size, cycles := s.cycles + row.base
        extra := extra, board := board } := by
  obtain ⟨row, hd, hb, ht⟩ := h.spec
  exact ⟨row, _, _, hd, hb, ht⟩

theorem ReadsOperand.inv {instr : Instr} {m : Operand} {s t : State} {u : Byte}
    (h : ReadsOperand instr m s u t) (hs : s.Inv) : t.Inv := by
  obtain ⟨row, -, hb, ht⟩ := h.spec
  rw [ht]
  exact ⟨hs.ram, hb.ok hs.board, hs.loaded⟩

/-! ### Handler shapes -/

theorem readHandler_apply {instr : Instr} {m : Operand} {s t : State} {u : Byte}
    (h : ReadsOperand instr m s u t) (use : Byte → State → State) :
    readHandler instr m use s = .ok ((), use u t) := by
  obtain ⟨addr, r, row, hr, hd, ht⟩ := h
  rw [readHandler, Access.bind_of_ok (beginOperand_apply hr hd), Access.bind_of_ok ht]
  rfl

theorem readCrossHandler_apply {instr : Instr} {m : Operand} {s t : State} {u : Byte}
    (h : ReadsOperand instr m s u t) (use : Byte → State → State) :
    readCrossHandler instr m use s = .ok ((), (use u t).addPageCross) := by
  rw [readCrossHandler, Access.bind_of_ok (readHandler_apply h use)]
  rfl

theorem storeHandler_apply {instr : Instr} {m : Operand} {s t t' : State} {addr : Word}
    (h : ReachesHandler instr m s addr t) (value : State → Byte)
    (hw : memWrite addr (value t) t = .ok ((), t')) : storeHandler instr m value s = .ok ((), t') := by
  rw [storeHandler, Access.bind_of_ok h.apply, Access.bind_get, hw]

theorem modifyHandler_apply {instr : Instr} {m : Operand} {s t t₁ t₂ : State} {addr : Word} {u : Byte}
    (h : ReachesHandler instr m s addr t) (f : Byte → Byte) (hr : memRead addr t = .ok (u, t₁))
    (hw : memWrite addr (f u) t₁ = .ok ((), t₂)) :
    modifyHandler instr m f s = .ok ((), t₂.setZN (f u)) := by
  rw [modifyHandler, Access.bind_of_ok h.apply, Access.bind_of_ok hr, Access.bind_of_ok hw]
  rfl

theorem shiftHandler_accumulator {instr : Instr} {row : Descriptor} (hd : instr.descriptor? = some row)
    (f : Byte → Bool → Byte × Bool) (s : State) :
    shiftHandler instr .accumulator f s = .ok ((),
      ({ ({ s with extra := false } : State).advance instr.size row.base with
        c := (f s.a s.c).2, a := (f s.a s.c).1 }).setZN (f s.a s.c).1) := by
  have hr : resolve .accumulator s = .ok (0#16, { s with extra := false }) := rfl
  rw [shiftHandler, Access.bind_of_ok (beginOperand_apply hr hd)]
  rfl

theorem shiftHandler_memory {instr : Instr} {m : Operand} (hm : memoryOperand m = true)
    {s t t₁ t₂ : State} {addr : Word} {u : Byte}
    (h : ReachesHandler instr m s addr t) (f : Byte → Bool → Byte × Bool)
    (hr : readOperand m addr t = .ok (u, t₁))
    (hw : memWrite addr (f u t₁.c).1 { t₁ with c := (f u t₁.c).2 } = .ok ((), t₂)) :
    shiftHandler instr m f s = .ok ((), t₂.setZN (f u t₁.c).1) := by
  rw [shiftHandler, Access.bind_of_ok h.apply, Access.bind_of_ok hr, Access.bind_get, Access.bind_modify]
  cases m
  case accumulator => cases hm
  all_goals
    show (memWrite addr (f u t₁.c).1 >>= fun _ => modify fun t => t.setZN (f u t₁.c).1) _ = _
    rw [Access.bind_of_ok hw]
    rfl

theorem impliedHandler_apply {instr : Instr} {row : Descriptor} (hd : instr.descriptor? = some row)
    (f : State → State) (s : State) :
    impliedHandler instr f s = .ok ((), f (({ s with extra := false } : State).advance instr.size row.base)) := by
  rw [impliedHandler, Access.bind_of_ok (beginImplied_apply hd s)]
  rfl

/-- A branch in closed form (44_control R275). -/
theorem branchHandler_apply {instr : Instr} {row : Descriptor} (hd : instr.descriptor? = some row)
    (d : Byte) (cond : State → Bool) (s : State) :
    branchHandler instr d cond s = .ok ((),
      let t := ({ s with extra := false } : State).advance instr.size row.base
      if cond t then
        { t with
          cycles := t.cycles + 1 + (pagesDiffer t.pc (relativeTarget s.pc d)).toNat
          pc := relativeTarget s.pc d }
      else t) := by
  rw [branchHandler, Access.bind_get, Access.bind_of_ok (beginImplied_apply hd s)]
  rfl

end Sys2Proof.Machine
end

