-- ==== Sys2Proof/Laws/Fetch.lean ====
section
/-! SUPPORT. Decoding and the fetch: every byte decodes to a well-formed instruction, the opcode byte alone
decides the length, and a fetch answers when the invariant holds. -/

namespace Sys2Proof

set_option maxRecDepth 10000 in
/-- Every byte decodes to a well-formed instruction: one evaluation over the 256 opcode bytes, the operand
bytes free. -/
theorem decodeBytes_wf_all (b1 b2 : Byte) :
    (List.range 256).all (fun k => (decodeBytes (BitVec.ofNat 8 k) b1 b2).wf) = true := by
  rfl

set_option maxRecDepth 10000 in
/-- The size of what a byte decodes to does not depend on the operand bytes. -/
theorem decodeBytes_size_all (b1 b2 : Byte) :
    (List.range 256).all (fun k => (decodeBytes (BitVec.ofNat 8 k) b1 b2).size
      == (decodeBytes (BitVec.ofNat 8 k) 0#8 0#8).size) = true := by
  rfl

theorem decodeBytes_wf (opcode b1 b2 : Byte) : (decodeBytes opcode b1 b2).wf = true := by
  have h := List.all_eq_true.1 (decodeBytes_wf_all b1 b2) opcode.toNat (List.mem_range.2 opcode.isLt)
  simpa using h

theorem decodeBytes_size (opcode b1 b2 : Byte) : (decodeBytes opcode b1 b2).size = instrLength opcode := by
  have h := List.all_eq_true.1 (decodeBytes_size_all b1 b2) opcode.toNat (List.mem_range.2 opcode.isLt)
  simpa [instrLength] using h

/-- The opcode byte selects an instruction of one, two or three bytes. -/
theorem instrLength_cases (opcode : Byte) :
    instrLength opcode = 1 ∨ instrLength opcode = 2 ∨ instrLength opcode = 3 := by
  unfold instrLength Instr.size
  split
  · exact .inl rfl
  · split <;> simp

theorem decode_one {opcode : Byte} (h : instrLength opcode = 1) (rest : List Byte) :
    decode (opcode :: rest) = .ok (decodeBytes opcode 0#8 0#8, rest) := by
  simp only [decode, h]

theorem decode_two {opcode : Byte} (h : instrLength opcode = 2) (b1 : Byte) (rest : List Byte) :
    decode (opcode :: b1 :: rest) = .ok (decodeBytes opcode b1 0#8, rest) := by
  simp only [decode, h]

theorem decode_three {opcode : Byte} (h : instrLength opcode = 3) (b1 b2 : Byte) (rest : List Byte) :
    decode (opcode :: b1 :: b2 :: rest) = .ok (decodeBytes opcode b1 b2, rest) := by
  simp only [decode, h]

/-! ### The bytes of a word -/

theorem wordOf_low_high (w : Word) : wordOf (lowByte w) (highByte w) = w := by
  unfold wordOf lowByte highByte
  ext k hk
  simp only [BitVec.getElem_append, BitVec.getElem_extractLsb']
  split
  · rw [Nat.zero_add, BitVec.getLsbD_eq_getElem]
  · have : 8 + (k - 8) = k := by omega
    rw [this, BitVec.getLsbD_eq_getElem]

@[simp] theorem lowByte_wordOf (lo hi : Byte) : lowByte (wordOf lo hi) = lo := by
  unfold wordOf lowByte
  ext k hk
  rw [BitVec.getElem_extractLsb', BitVec.getLsbD_append]
  simp [hk]

@[simp] theorem highByte_wordOf (lo hi : Byte) : highByte (wordOf lo hi) = hi := by
  unfold wordOf highByte
  ext k hk
  rw [BitVec.getElem_extractLsb', BitVec.getLsbD_append]
  simp [hk]

namespace Machine

/-- A fetch answers, gives a well-formed instruction, and changes only what bus reads may change. -/
theorem fetchInstr_ok {s : State} (h : s.Inv) :
    ∃ i t, fetchInstr s = .ok (i, t) ∧ i.wf = true ∧ s.ReadsTo t := by
  unfold fetchInstr
  rw [Access.bind_get]
  obtain ⟨op, t, ht⟩ := memRead_ok h s.pc
  have hr := memRead_readsTo ht
  rw [Access.bind_of_ok ht]
  rcases instrLength op with _ | _ | _ | n
  · exact ⟨_, t, rfl, decodeBytes_wf _ _ _, hr⟩
  · exact ⟨_, t, rfl, decodeBytes_wf _ _ _, hr⟩
  · obtain ⟨b1, t1, h1⟩ := memRead_ok (hr.inv h) (s.pc + 1#16)
    exact ⟨_, t1, Access.bind_of_ok h1, decodeBytes_wf _ _ _, hr.trans (memRead_readsTo h1)⟩
  · obtain ⟨b1, b2, t1, t2, h1, h2, h3⟩ := memRead_pair_ok (hr.inv h) (s.pc + 1#16) (s.pc + 2#16)
    exact ⟨_, t2, (Access.bind_of_ok h1).trans (Access.bind_of_ok h2), decodeBytes_wf _ _ _, hr.trans h3⟩

/-- The interrupt tick in closed form (60_exceptions R320, R322). -/
theorem interruptTick_apply {s : State} (h : s.Inv) (k : Interrupt) :
    interruptTick k s = .ok ((),
      if s.masks k then s.closeInterrupt
      else ({ ((s.pushed (highByte s.pc)).pushed (lowByte s.pc)).pushed (s.packP false true) with
        pc := s.pointerAt k.vector } : State).closeInterrupt) := by
  rw [interruptTick, Access.bind_get]
  split
  · rfl
  · have hv : 0x6000 ≤ k.vector.toNat ∧ k.vector.toNat < 0xFFFF := by cases k <;> decide
    rw [Access.bind_of_ok (enterException_apply h s.pc k.vector false hv.1 hv.2)]
    rfl

theorem State.Inv.runPlatform {s : State} (h : s.Inv) (c : Nat) : (s.runPlatform c).Inv :=
  ⟨h.ram, (h.board.run _ _).relayFrame, h.loaded⟩

/-- With a cartridge loaded a step is the processor's tick followed by the platform (60_exceptions R340). -/
theorem step_of_loaded {s : State} (h : s.loaded = true) :
    step s = match tick s with
      | .next t => .next (t.runPlatform (t.cycles - s.cycles))
      | .fault f => .fault f
      | .refused r => .refused r := if_pos h

end Machine
end Sys2Proof
end

