-- ==== Sys2Proof/Laws/Exec.lean ====
section
/-! SUPPORT. One lemma per instruction: what its meaning answers, in terms of the operand read, the address
resolved and the bus write. -/

namespace Sys2Proof.Machine

open Sys2Proof

variable {m : Operand} {s t : State} {u : Byte} {addr : Word}

/-! ### Instructions that read one byte -/

theorem exec_lda (h : ReadsOperand (.lda m) m s u t) :
    exec (.lda m) s = .next (({ t with a := u }).setZN u).addPageCross :=
  Access.outcome_of_ok (readCrossHandler_apply h fun u t => ({ t with a := u }).setZN u)

theorem exec_ldx (h : ReadsOperand (.ldx m) m s u t) :
    exec (.ldx m) s = .next (({ t with x := u }).setZN u).addPageCross :=
  Access.outcome_of_ok (readCrossHandler_apply h fun u t => ({ t with x := u }).setZN u)

theorem exec_ldy (h : ReadsOperand (.ldy m) m s u t) :
    exec (.ldy m) s = .next (({ t with y := u }).setZN u).addPageCross :=
  Access.outcome_of_ok (readCrossHandler_apply h fun u t => ({ t with y := u }).setZN u)

theorem exec_adc (h : ReadsOperand (.adc m) m s u t) :
    exec (.adc m) s = .next (t.setAddResult (addWithCarry t.a u t.c)).addPageCross :=
  Access.outcome_of_ok (readCrossHandler_apply h fun u t => t.setAddResult (addWithCarry t.a u t.c))

theorem exec_sbc (h : ReadsOperand (.sbc m) m s u t) :
    exec (.sbc m) s = .next (t.setAddResult (subWithCarry t.a u t.c)).addPageCross :=
  Access.outcome_of_ok (readCrossHandler_apply h fun u t => t.setAddResult (subWithCarry t.a u t.c))

theorem exec_cmp (h : ReadsOperand (.cmp m) m s u t) :
    exec (.cmp m) s = .next (t.setCompare t.a u).addPageCross :=
  Access.outcome_of_ok (readCrossHandler_apply h fun u t => t.setCompare t.a u)

theorem exec_and (h : ReadsOperand (.and m) m s u t) :
    exec (.and m) s = .next (({ t with a := t.a &&& u }).setZN (t.a &&& u)).addPageCross :=
  Access.outcome_of_ok (readCrossHandler_apply h fun u t => ({ t with a := t.a &&& u }).setZN (t.a &&& u))

theorem exec_ora (h : ReadsOperand (.ora m) m s u t) :
    exec (.ora m) s = .next (({ t with a := t.a ||| u }).setZN (t.a ||| u)).addPageCross :=
  Access.outcome_of_ok (readCrossHandler_apply h fun u t => ({ t with a := t.a ||| u }).setZN (t.a ||| u))

theorem exec_eor (h : ReadsOperand (.eor m) m s u t) :
    exec (.eor m) s = .next (({ t with a := t.a ^^^ u }).setZN (t.a ^^^ u)).addPageCross :=
  Access.outcome_of_ok (readCrossHandler_apply h fun u t => ({ t with a := t.a ^^^ u }).setZN (t.a ^^^ u))

theorem exec_cpx (h : ReadsOperand (.cpx m) m s u t) : exec (.cpx m) s = .next (t.setCompare t.x u) :=
  Access.outcome_of_ok (readHandler_apply h fun u t => t.setCompare t.x u)

theorem exec_cpy (h : ReadsOperand (.cpy m) m s u t) : exec (.cpy m) s = .next (t.setCompare t.y u) :=
  Access.outcome_of_ok (readHandler_apply h fun u t => t.setCompare t.y u)

theorem exec_bit (h : ReadsOperand (.bit m) m s u t) : exec (.bit m) s = .next (t.setBitTest u) :=
  Access.outcome_of_ok (readHandler_apply h fun u t => t.setBitTest u)

theorem exec_sbcAlias {value : Byte} (h : ReadsOperand (.sbcAlias value) (.immediate value) s u t) :
    exec (.sbcAlias value) s = .next (t.setAddResult (subWithCarry t.a u t.c)) :=
  Access.outcome_of_ok (readHandler_apply h fun u t => t.setAddResult (subWithCarry t.a u t.c))

/-! ### Instructions that store -/

theorem exec_sta {t' : State} (h : ReachesHandler (.sta m) m s addr t)
    (hw : memWrite addr t.a t = .ok ((), t')) : exec (.sta m) s = .next t' :=
  Access.outcome_of_ok (storeHandler_apply h State.a hw)

theorem exec_stx {t' : State} (h : ReachesHandler (.stx m) m s addr t)
    (hw : memWrite addr t.x t = .ok ((), t')) : exec (.stx m) s = .next t' :=
  Access.outcome_of_ok (storeHandler_apply h State.x hw)

theorem exec_sty {t' : State} (h : ReachesHandler (.sty m) m s addr t)
    (hw : memWrite addr t.y t = .ok ((), t')) : exec (.sty m) s = .next t' :=
  Access.outcome_of_ok (storeHandler_apply h State.y hw)

theorem exec_inc {t₁ t₂ : State} (h : ReachesHandler (.inc m) m s addr t)
    (hr : memRead addr t = .ok (u, t₁)) (hw : memWrite addr (u + 1#8) t₁ = .ok ((), t₂)) :
    exec (.inc m) s = .next (t₂.setZN (u + 1#8)) :=
  Access.outcome_of_ok (modifyHandler_apply h (fun u => u + 1#8) hr hw)

theorem exec_dec {t₁ t₂ : State} (h : ReachesHandler (.dec m) m s addr t)
    (hr : memRead addr t = .ok (u, t₁)) (hw : memWrite addr (u - 1#8) t₁ = .ok ((), t₂)) :
    exec (.dec m) s = .next (t₂.setZN (u - 1#8)) :=
  Access.outcome_of_ok (modifyHandler_apply h (fun u => u - 1#8) hr hw)

theorem exec_asl_memory {t₁ t₂ : State} (hm : memoryOperand m = true)
    (h : ReachesHandler (.asl m) m s addr t) (hr : readOperand m addr t = .ok (u, t₁))
    (hw : memWrite addr (shiftLeft u t₁.c).1 { t₁ with c := (shiftLeft u t₁.c).2 } = .ok ((), t₂)) :
    exec (.asl m) s = .next (t₂.setZN (shiftLeft u t₁.c).1) :=
  Access.outcome_of_ok (shiftHandler_memory hm h shiftLeft hr hw)

theorem exec_asl_accumulator (s : State) :
    exec (.asl .accumulator) s = .next
      ({ ({ s with extra := false } : State).advance 1 2 with
        c := (shiftLeft s.a s.c).2, a := (shiftLeft s.a s.c).1 }.setZN (shiftLeft s.a s.c).1) :=
  Access.outcome_of_ok
    (shiftHandler_accumulator (instr := .asl .accumulator) (row := ⟨.accumulator, 0x0A, 2⟩) rfl shiftLeft s)

theorem exec_lsr_memory {t₁ t₂ : State} (hm : memoryOperand m = true)
    (h : ReachesHandler (.lsr m) m s addr t) (hr : readOperand m addr t = .ok (u, t₁))
    (hw : memWrite addr (shiftRight u t₁.c).1 { t₁ with c := (shiftRight u t₁.c).2 } = .ok ((), t₂)) :
    exec (.lsr m) s = .next (t₂.setZN (shiftRight u t₁.c).1) :=
  Access.outcome_of_ok (shiftHandler_memory hm h shiftRight hr hw)

theorem exec_lsr_accumulator (s : State) :
    exec (.lsr .accumulator) s = .next
      ({ ({ s with extra := false } : State).advance 1 2 with
        c := (shiftRight s.a s.c).2, a := (shiftRight s.a s.c).1 }.setZN (shiftRight s.a s.c).1) :=
  Access.outcome_of_ok
    (shiftHandler_accumulator (instr := .lsr .accumulator) (row := ⟨.accumulator, 0x4A, 2⟩) rfl shiftRight s)

theorem exec_rol_memory {t₁ t₂ : State} (hm : memoryOperand m = true)
    (h : ReachesHandler (.rol m) m s addr t) (hr : readOperand m addr t = .ok (u, t₁))
    (hw : memWrite addr (rotateLeft u t₁.c).1 { t₁ with c := (rotateLeft u t₁.c).2 } = .ok ((), t₂)) :
    exec (.rol m) s = .next (t₂.setZN (rotateLeft u t₁.c).1) :=
  Access.outcome_of_ok (shiftHandler_memory hm h rotateLeft hr hw)

theorem exec_rol_accumulator (s : State) :
    exec (.rol .accumulator) s = .next
      ({ ({ s with extra := false } : State).advance 1 2 with
        c := (rotateLeft s.a s.c).2, a := (rotateLeft s.a s.c).1 }.setZN (rotateLeft s.a s.c).1) :=
  Access.outcome_of_ok
    (shiftHandler_accumulator (instr := .rol .accumulator) (row := ⟨.accumulator, 0x2A, 2⟩) rfl rotateLeft s)

theorem exec_ror_memory {t₁ t₂ : State} (hm : memoryOperand m = true)
    (h : ReachesHandler (.ror m) m s addr t) (hr : readOperand m addr t = .ok (u, t₁))
    (hw : memWrite addr (rotateRight u t₁.c).1 { t₁ with c := (rotateRight u t₁.c).2 } = .ok ((), t₂)) :
    exec (.ror m) s = .next (t₂.setZN (rotateRight u t₁.c).1) :=
  Access.outcome_of_ok (shiftHandler_memory hm h rotateRight hr hw)

theorem exec_ror_accumulator (s : State) :
    exec (.ror .accumulator) s = .next
      ({ ({ s with extra := false } : State).advance 1 2 with
        c := (rotateRight s.a s.c).2, a := (rotateRight s.a s.c).1 }.setZN (rotateRight s.a s.c).1) :=
  Access.outcome_of_ok
    (shiftHandler_accumulator (instr := .ror .accumulator) (row := ⟨.accumulator, 0x6A, 2⟩) rfl rotateRight s)

/-! ### Instructions without an operand -/

/-- The state after the frame of a one-byte instruction without an operand. -/
def State.past (s : State) (base : Nat) : State := ({ s with extra := false } : State).advance 1 base

theorem exec_tax (s : State) : exec .tax s = .next ({ s.past 2 with x := s.a }.setZN s.a) := rfl

theorem exec_tay (s : State) : exec .tay s = .next ({ s.past 2 with y := s.a }.setZN s.a) := rfl

theorem exec_txa (s : State) : exec .txa s = .next ({ s.past 2 with a := s.x }.setZN s.x) := rfl

theorem exec_tya (s : State) : exec .tya s = .next ({ s.past 2 with a := s.y }.setZN s.y) := rfl

theorem exec_tsx (s : State) : exec .tsx s = .next ({ s.past 2 with x := s.sp }.setZN s.sp) := rfl

theorem exec_txs (s : State) : exec .txs s = .next ({ s.past 2 with sp := s.x }) := rfl

theorem exec_inx (s : State) : exec .inx s = .next ({ s.past 2 with x := s.x + 1#8 }.setZN (s.x + 1#8)) := rfl

theorem exec_iny (s : State) : exec .iny s = .next ({ s.past 2 with y := s.y + 1#8 }.setZN (s.y + 1#8)) := rfl

theorem exec_dex (s : State) : exec .dex s = .next ({ s.past 2 with x := s.x - 1#8 }.setZN (s.x - 1#8)) := rfl

theorem exec_dey (s : State) : exec .dey s = .next ({ s.past 2 with y := s.y - 1#8 }.setZN (s.y - 1#8)) := rfl

theorem exec_clc (s : State) : exec .clc s = .next ({ s.past 2 with c := false }) := rfl

theorem exec_sec (s : State) : exec .sec s = .next ({ s.past 2 with c := true }) := rfl

theorem exec_cli (s : State) : exec .cli s = .next ({ s.past 2 with i := false }) := rfl

theorem exec_sei (s : State) : exec .sei s = .next ({ s.past 2 with i := true }) := rfl

theorem exec_clv (s : State) : exec .clv s = .next ({ s.past 2 with v := false }) := rfl

theorem exec_cld (s : State) : exec .cld s = .next ({ s.past 2 with d := false }) := rfl

theorem exec_sed (s : State) : exec .sed s = .next ({ s.past 2 with d := true }) := rfl

theorem exec_nop (s : State) : exec .nop s = .next (s.past 2) := rfl

theorem exec_pha (s : State) : exec .pha s = .next ((s.past 3).pushed s.a) :=
  Access.outcome_of_ok (push_apply s.a (s.past 3))

theorem exec_php (s : State) : exec .php s = .next ((s.past 3).pushed (s.packP true true)) :=
  Access.outcome_of_ok (push_apply ((s.past 3).packP true true) (s.past 3))

theorem exec_pla (s : State) :
    exec .pla s = .next ({ s.past 4 with sp := s.sp + 1#8, a := s.stackByte 1 }.setZN (s.stackByte 1)) := by
  refine Access.outcome_of_ok ?_
  rw [Access.bind_of_ok (beginImplied_apply (row := ⟨.implied, 0x68, 4⟩) rfl s), Access.bind_of_ok (pull_apply _)]
  rfl

theorem exec_plp (s : State) :
    exec .plp s = .next ({ s.past 4 with sp := s.sp + 1#8 }.unpackP (s.stackByte 1)) := by
  refine Access.outcome_of_ok ?_
  rw [Access.bind_of_ok (beginImplied_apply (row := ⟨.implied, 0x28, 4⟩) rfl s), Access.bind_of_ok (pull_apply _)]
  rfl

/-! ### Control transfer -/

theorem exec_jmp (h : ReachesHandler (.jmp m) m s addr t) : exec (.jmp m) s = .next { t with pc := addr } := by
  refine Access.outcome_of_ok ?_
  rw [Access.bind_of_ok h.apply]
  rfl

theorem exec_jsr (w : Word) (s : State) :
    exec (.jsr w) s = .next
      { (s.pushed (highByte (s.pc + 3#16 - 1#16))).pushed (lowByte (s.pc + 3#16 - 1#16)) with
        pc := w, cycles := s.cycles + 6, extra := false } := by
  refine Access.outcome_of_ok ?_
  have hr : resolve (.absolute w) s = .ok (w, { s with extra := false }) := rfl
  rw [Access.bind_of_ok (beginOperand_apply (row := ⟨.absolute, 0x20, 6⟩) hr rfl), Access.bind_get,
    Access.bind_of_ok (push16_apply _ _)]
  rfl

theorem exec_rts (s : State) :
    exec .rts s = .next { s.past 6 with
      sp := s.sp + 2#8, pc := wordOf (s.stackByte 1) (s.stackByte 2) + 1#16 } := by
  refine Access.outcome_of_ok ?_
  rw [Access.bind_of_ok (beginImplied_apply (row := ⟨.implied, 0x60, 6⟩) rfl s), Access.bind_of_ok (pull16_apply _)]
  rfl

/-- A branch in the terms of its handler (44_control R275). -/
def State.afterBranch (s : State) (d : Byte) (cond : Bool) : State :=
  if cond then
    { s.past 2 with
      pc := relativeTarget s.pc d
      cycles := s.cycles + 2 + 1 + (pagesDiffer (s.pc + 2#16) (relativeTarget s.pc d)).toNat }
  else { s.past 2 with pc := s.pc + 2#16 }

theorem branch_outcome {instr : Instr} {opcode : Nat} (hd : instr.descriptor? = some ⟨.relative, opcode, 2⟩)
    (hs : instr.size = 2) (d : Byte) (cond : State → Bool) (s : State) {taken : Bool}
    (hc : cond (({ s with extra := false } : State).advance 2 2) = taken) :
    (branchHandler instr d cond).outcome s = .next (s.afterBranch d taken) := by
  refine (Access.outcome_of_ok (branchHandler_apply hd d cond s)).trans ?_
  simp only [hs, hc]
  cases taken <;> rfl

theorem exec_bcc (d : Byte) (s : State) : exec (.bcc d) s = .next (s.afterBranch d (!s.c)) :=
  branch_outcome (instr := .bcc d) rfl rfl d (fun t => !t.c) s rfl

theorem exec_bcs (d : Byte) (s : State) : exec (.bcs d) s = .next (s.afterBranch d (s.c)) :=
  branch_outcome (instr := .bcs d) rfl rfl d (fun t => t.c) s rfl

theorem exec_beq (d : Byte) (s : State) : exec (.beq d) s = .next (s.afterBranch d (s.z)) :=
  branch_outcome (instr := .beq d) rfl rfl d (fun t => t.z) s rfl

theorem exec_bmi (d : Byte) (s : State) : exec (.bmi d) s = .next (s.afterBranch d (s.n)) :=
  branch_outcome (instr := .bmi d) rfl rfl d (fun t => t.n) s rfl

theorem exec_bne (d : Byte) (s : State) : exec (.bne d) s = .next (s.afterBranch d (!s.z)) :=
  branch_outcome (instr := .bne d) rfl rfl d (fun t => !t.z) s rfl

theorem exec_bpl (d : Byte) (s : State) : exec (.bpl d) s = .next (s.afterBranch d (!s.n)) :=
  branch_outcome (instr := .bpl d) rfl rfl d (fun t => !t.n) s rfl

theorem exec_bvc (d : Byte) (s : State) : exec (.bvc d) s = .next (s.afterBranch d (!s.v)) :=
  branch_outcome (instr := .bvc d) rfl rfl d (fun t => !t.v) s rfl

theorem exec_bvs (d : Byte) (s : State) : exec (.bvs d) s = .next (s.afterBranch d (s.v)) :=
  branch_outcome (instr := .bvs d) rfl rfl d (fun t => t.v) s rfl

theorem exec_brk (h : s.Inv) :
    exec .brk s = .next
      { ((s.pushed (highByte (s.pc + 1#16 + 1#16))).pushed (lowByte (s.pc + 1#16 + 1#16))).pushed
          (s.packP true true) with
        i := true, pc := s.pointerAt Config.irqVector, cycles := s.cycles + 7, extra := false } := by
  refine Access.outcome_of_ok ?_
  have hi : (s.past 7).Inv := ⟨h.ram, h.board, h.loaded⟩
  rw [Access.bind_of_ok (beginImplied_apply (row := ⟨.implied, 0x00, 7⟩) rfl s), Access.bind_get]
  exact enterException_apply hi _ Config.irqVector true (by decide) (by decide)

theorem exec_rti (s : State) :
    exec .rti s = .next { s.unpackP (s.stackByte 1) with
      sp := s.sp + 3#8, pc := wordOf (s.stackByte 2) (s.stackByte 3)
      cycles := s.cycles + 6, extra := false } := by
  refine Access.outcome_of_ok ?_
  rw [Access.bind_of_ok (beginImplied_apply (row := ⟨.implied, 0x40, 6⟩) rfl s)]
  exact leaveException_apply _

end Sys2Proof.Machine
end

