-- ==== Sys2Proof/Laws/PerInstr.lean ====
section
/-! SUPPORT. Statements made per instruction. `Length`: the encoding of a well-formed instruction has as many
bytes as its size says (spec/30_encoding.md R141, R175). -/

namespace Sys2Proof.Laws.Length

open Sys2Proof

/-- The encoding of a well-formed instruction has as many bytes as its size. -/
def Statement (i : Instr) : Prop := i.wf = true → (encode i).length = i.size

theorem lda (m : Operand) : Statement (.lda m) := by
  intro h; cases m <;> first | rfl | cases h

theorem ldx (m : Operand) : Statement (.ldx m) := by
  intro h; cases m <;> first | rfl | cases h

theorem ldy (m : Operand) : Statement (.ldy m) := by
  intro h; cases m <;> first | rfl | cases h

theorem sta (m : Operand) : Statement (.sta m) := by
  intro h; cases m <;> first | rfl | cases h

theorem stx (m : Operand) : Statement (.stx m) := by
  intro h; cases m <;> first | rfl | cases h

theorem sty (m : Operand) : Statement (.sty m) := by
  intro h; cases m <;> first | rfl | cases h

theorem tax : Statement .tax := fun _ => rfl

theorem tay : Statement .tay := fun _ => rfl

theorem txa : Statement .txa := fun _ => rfl

theorem tya : Statement .tya := fun _ => rfl

theorem tsx : Statement .tsx := fun _ => rfl

theorem txs : Statement .txs := fun _ => rfl

theorem pha : Statement .pha := fun _ => rfl

theorem php : Statement .php := fun _ => rfl

theorem pla : Statement .pla := fun _ => rfl

theorem plp : Statement .plp := fun _ => rfl

theorem adc (m : Operand) : Statement (.adc m) := by
  intro h; cases m <;> first | rfl | cases h

theorem sbc (m : Operand) : Statement (.sbc m) := by
  intro h; cases m <;> first | rfl | cases h

theorem cmp (m : Operand) : Statement (.cmp m) := by
  intro h; cases m <;> first | rfl | cases h

theorem cpx (m : Operand) : Statement (.cpx m) := by
  intro h; cases m <;> first | rfl | cases h

theorem cpy (m : Operand) : Statement (.cpy m) := by
  intro h; cases m <;> first | rfl | cases h

theorem inc (m : Operand) : Statement (.inc m) := by
  intro h; cases m <;> first | rfl | cases h

theorem inx : Statement .inx := fun _ => rfl

theorem iny : Statement .iny := fun _ => rfl

theorem dec (m : Operand) : Statement (.dec m) := by
  intro h; cases m <;> first | rfl | cases h

theorem dex : Statement .dex := fun _ => rfl

theorem dey : Statement .dey := fun _ => rfl

theorem and (m : Operand) : Statement (.and m) := by
  intro h; cases m <;> first | rfl | cases h

theorem ora (m : Operand) : Statement (.ora m) := by
  intro h; cases m <;> first | rfl | cases h

theorem eor (m : Operand) : Statement (.eor m) := by
  intro h; cases m <;> first | rfl | cases h

theorem bit (m : Operand) : Statement (.bit m) := by
  intro h; cases m <;> first | rfl | cases h

theorem asl (m : Operand) : Statement (.asl m) := by
  intro h; cases m <;> first | rfl | cases h

theorem lsr (m : Operand) : Statement (.lsr m) := by
  intro h; cases m <;> first | rfl | cases h

theorem rol (m : Operand) : Statement (.rol m) := by
  intro h; cases m <;> first | rfl | cases h

theorem ror (m : Operand) : Statement (.ror m) := by
  intro h; cases m <;> first | rfl | cases h

theorem jmp (m : Operand) : Statement (.jmp m) := by
  intro h; cases m <;> first | rfl | cases h

theorem jsr (target : Word) : Statement (.jsr target) := fun _ => rfl

theorem rts : Statement .rts := fun _ => rfl

theorem bcc (d : Byte) : Statement (.bcc d) := fun _ => rfl

theorem bcs (d : Byte) : Statement (.bcs d) := fun _ => rfl

theorem beq (d : Byte) : Statement (.beq d) := fun _ => rfl

theorem bmi (d : Byte) : Statement (.bmi d) := fun _ => rfl

theorem bne (d : Byte) : Statement (.bne d) := fun _ => rfl

theorem bpl (d : Byte) : Statement (.bpl d) := fun _ => rfl

theorem bvc (d : Byte) : Statement (.bvc d) := fun _ => rfl

theorem bvs (d : Byte) : Statement (.bvs d) := fun _ => rfl

theorem brk : Statement .brk := fun _ => rfl

theorem rti : Statement .rti := fun _ => rfl

theorem clc : Statement .clc := fun _ => rfl

theorem sec : Statement .sec := fun _ => rfl

theorem cli : Statement .cli := fun _ => rfl

theorem sei : Statement .sei := fun _ => rfl

theorem clv : Statement .clv := fun _ => rfl

theorem cld : Statement .cld := fun _ => rfl

theorem sed : Statement .sed := fun _ => rfl

theorem nop : Statement .nop := fun _ => rfl

theorem sbcAlias (d : Byte) : Statement (.sbcAlias d) := fun _ => rfl

theorem absent (opcode : Byte) : Statement (.absent opcode) := fun _ => rfl

end Sys2Proof.Laws.Length
end

