-- ==== Sys2Proof/Tests/Slice0.lean ====
section
/-! SUPPORT. The model's own tests. The expected results are the spec's: T, I and S vectors are those of
spec/95_test_vectors.md under their names there; the decoded words are written out from the matrix of
spec/30_encoding.md R162. At the end, for every obligation with hypotheses, a state and operands that meet
them. -/

namespace Sys2Proof.Tests

open Sys2Proof Sys2Proof.Machine

/-! ### Well-formedness: each operation refuses the modes its row does not have -/

theorem test_wf_alu :
    (Instr.lda .accumulator).wf = false ∧ (Instr.lda (.zeroPageY 0#8)).wf = false ∧
    (Instr.adc (.indirect 0#16)).wf = false ∧ (Instr.sbc .accumulator).wf = false ∧
    (Instr.cmp (.zeroPageY 0#8)).wf = false ∧ (Instr.and (.indirect 0#16)).wf = false ∧
    (Instr.ora .accumulator).wf = false ∧ (Instr.eor (.zeroPageY 0#8)).wf = false := by decide

theorem test_wf_index :
    (Instr.ldx (.zeroPageX 0#8)).wf = false ∧ (Instr.ldy (.zeroPageY 0#8)).wf = false ∧
    (Instr.cpx (.absoluteX 0#16)).wf = false ∧ (Instr.cpy (.zeroPageX 0#8)).wf = false := by decide

theorem test_wf_store :
    (Instr.sta (.immediate 0#8)).wf = false ∧ (Instr.stx (.zeroPageX 0#8)).wf = false ∧
    (Instr.sty (.absoluteX 0#16)).wf = false := by decide

theorem test_wf_modify :
    (Instr.inc .accumulator).wf = false ∧ (Instr.dec (.absoluteY 0#16)).wf = false ∧
    (Instr.asl (.immediate 0#8)).wf = false ∧ (Instr.lsr (.absoluteY 0#16)).wf = false ∧
    (Instr.rol (.indexedIndirectX 0#8)).wf = false ∧ (Instr.ror (.zeroPageY 0#8)).wf = false := by decide

theorem test_wf_bit_jmp :
    (Instr.bit (.immediate 0#8)).wf = false ∧ (Instr.jmp (.zeroPage 0#8)).wf = false := by decide

theorem test_wf_absent :
    (Instr.absent 0xEA#8).wf = false ∧ (Instr.absent 0x02#8).wf = true := by decide

/-! ### Words written out from the spec's encodings, one of each family -/

theorem test_decode_load_store :
    decode [0b10111101#8, 0xFF#8, 0x02#8] = .ok (.lda (.absoluteX 0x02FF#16), []) ∧
    decode [0b10010110#8, 0x10#8, 0xEA#8] = .ok (.stx (.zeroPageY 0x10#8), [0xEA#8]) := by decide

theorem test_decode_transfer_stack :
    decode [0b10111010#8] = .ok (.tsx, []) ∧ decode [0b00001000#8] = .ok (.php, []) := by decide

theorem test_decode_arithmetic :
    decode [0b01110001#8, 0x20#8] = .ok (.adc (.indirectIndexedY 0x20#8), []) ∧
    decode [0b11100001#8, 0x20#8] = .ok (.sbc (.indexedIndirectX 0x20#8), []) ∧
    decode [0b11101011#8, 0x03#8] = .ok (.sbcAlias 0x03#8, []) ∧
    decode [0b11011110#8, 0x34#8, 0x12#8] = .ok (.dec (.absoluteX 0x1234#16), []) := by decide

theorem test_decode_logic_shift :
    decode [0b01011001#8, 0xF0#8, 0x02#8] = .ok (.eor (.absoluteY 0x02F0#16), []) ∧
    decode [0b01101010#8] = .ok (.ror .accumulator, []) := by decide

theorem test_decode_control :
    decode [0b01101100#8, 0xFF#8, 0x02#8] = .ok (.jmp (.indirect 0x02FF#16), []) ∧
    decode [0b00100000#8, 0x00#8, 0x90#8] = .ok (.jsr 0x9000#16, []) ∧
    decode [0b11010000#8, 0xF9#8] = .ok (.bne 0xF9#8, []) ∧ decode [0b00000000#8] = .ok (.brk, []) := by decide

theorem test_decode_flags_absent :
    decode [0b11111000#8] = .ok (.sed, []) ∧ decode [0b10100111#8] = .ok (.absent 0xA7#8, []) ∧
    decode [0b10101101#8, 0x00#8] = .error (.truncated 0xAD#8) ∧ decode [] = .error .noBytes := by decide

/-- The numbering of the opcode table: the first byte is the least significant (30_encoding R141). -/
theorem test_decodeTableWord :
    decodeTableWord 24 0x02FFBD = some (.lda (.absoluteX 0x02FF#16)) ∧
    decodeTableWord 8 0xBD = some (.lda (.absoluteX 0x0000#16)) ∧ decodeTableWord 8 0x02 = some (.absent 0x02#8) := by
  decide

/-- The alias byte of the decoder is the parameter (30_encoding R166). -/
theorem test_alias_byte : decodeBytes Config.sbcAliasOpcode 0x03#8 0#8 = .sbcAlias 0x03#8 := by decide

/-! ### The start state of the vectors and what they look at -/

/-- A board with the blank graphics core and a cartridge of a variant with these program bytes. -/
def boardWith (variant : Variant) (code : Memory) : Board :=
  ⟨Gfx.reset, buildMapper ⟨variant, 2, 1, .vertical, false⟩ code [] [], 0⟩

/-- The same of variant A. -/
def testBoard (code : Memory) : Board := boardWith .fixed code

/-- The default start state of Part 2. -/
def start : State := { State.reset with pc := 0x8000#16, i := false }

/-- What a vector lists: A, X, Y, SP, PC, the flags N V D I Z C, the cycles taken and bytes of memory. -/
structure Seen where
  a      : Byte
  x      : Byte
  y      : Byte
  sp     : Byte
  pc     : Word
  flags  : BitVec 6
  cycles : Nat
  bytes  : List Byte
  deriving DecidableEq, Repr

/-- What an outcome shows, with the bytes at the given addresses. -/
def seen (o : Host.Outcome State Fault Refusal) (addrs : List Word) : Option Seen :=
  match o with
  | .next t => some ⟨t.a, t.x, t.y, t.sp, t.pc,
      BitVec.ofBool t.n ++ BitVec.ofBool t.v ++ BitVec.ofBool t.d ++ BitVec.ofBool t.i ++ BitVec.ofBool t.z
        ++ BitVec.ofBool t.c, t.cycles, addrs.map t.byteAt⟩
  | _ => none

/-- What one instruction leaves. -/
def after (i : Instr) (s : State) (addrs : List Word) : Option Seen :=
  seen (exec i s) addrs

/-- Whether an outcome is this fault. -/
def faults (o : Host.Outcome State Fault Refusal) (f : Fault) : Bool :=
  match o with
  | .fault g => g == f
  | _ => false

/-! ### One instruction: the vectors of Part 2 -/

theorem test_T9_lda :
    after (.lda (.indexedIndirectX 0xFE#8)) { start with x := 0x01#8, ram := [(0x0000, 0x02#8), (0x00FF,
      0x34#8), (0x0234, 0x77#8)] } [] =
      some ⟨0x77#8, 0x01#8, 0x00#8, 0xFD#8, 0x8002#16, 0b000000#6, 6, []⟩ := by decide

theorem test_T11_lda :
    after (.lda (.indirectIndexedY 0x20#8)) { start with y := 0x10#8, ram := [(0x0020, 0xF0#8), (0x0021,
      0x02#8), (0x0300, 0x5A#8)] } [] =
      some ⟨0x5A#8, 0x00#8, 0x10#8, 0xFD#8, 0x8002#16, 0b000000#6, 6, []⟩ := by decide

theorem test_T15_ldx :
    after (.ldx (.zeroPageY 0xFF#8)) { start with y := 0x02#8, ram := [(0x0001, 0x7F#8)] } [] =
      some ⟨0x00#8, 0x7F#8, 0x02#8, 0xFD#8, 0x8002#16, 0b000000#6, 4, []⟩ := by decide

theorem test_T16_ldx :
    after (.ldx (.absoluteY 0x02FF#16)) { start with x := 0x07#8, y := 0x01#8 } [] =
      some ⟨0x00#8, 0x00#8, 0x01#8, 0xFD#8, 0x8003#16, 0b000010#6, 5, []⟩ := by decide

theorem test_T17_ldy :
    after (.ldy (.immediate 0x00#8)) { start with y := 0x09#8 } [] =
      some ⟨0x00#8, 0x00#8, 0x00#8, 0xFD#8, 0x8002#16, 0b000010#6, 2, []⟩ := by decide

theorem test_T18_ldy :
    after (.ldy (.absoluteX 0x02FF#16)) { start with x := 0x01#8, ram := [(0x0300, 0x80#8)] } [] =
      some ⟨0x00#8, 0x01#8, 0x80#8, 0xFD#8, 0x8003#16, 0b100000#6, 5, []⟩ := by decide

theorem test_T22_sta :
    after (.sta (.indirectIndexedY 0x20#8)) { start with a := 0xAB#8, y := 0x10#8, ram := [(0x0020, 0xF0#8),
      (0x0021, 0x02#8)] } [0x0300#16] =
      some ⟨0xAB#8, 0x00#8, 0x10#8, 0xFD#8, 0x8002#16, 0b000000#6, 6, [0xAB#8]⟩ := by decide

theorem test_T23_sta :
    after (.sta (.absolute 0x0800#16)) { start with a := 0x3C#8 } [0x0000#16, 0x1800#16] =
      some ⟨0x3C#8, 0x00#8, 0x00#8, 0xFD#8, 0x8003#16, 0b000000#6, 4, [0x3C#8, 0x3C#8]⟩ := by decide

theorem test_T24_stx :
    after (.stx (.zeroPageY 0x10#8)) { start with x := 0xEE#8, y := 0xFF#8 } [0x000F#16] =
      some ⟨0x00#8, 0xEE#8, 0xFF#8, 0xFD#8, 0x8002#16, 0b000000#6, 4, [0xEE#8]⟩ := by decide

theorem test_T25_sty :
    after (.sty (.zeroPageX 0xF8#8)) { start with x := 0x10#8, y := 0x77#8 } [0x0008#16] =
      some ⟨0x00#8, 0x10#8, 0x77#8, 0xFD#8, 0x8002#16, 0b000000#6, 4, [0x77#8]⟩ := by decide

theorem test_T26_tax :
    after .tax { start with a := 0x80#8 } [] =
      some ⟨0x80#8, 0x80#8, 0x00#8, 0xFD#8, 0x8001#16, 0b100000#6, 2, []⟩ := by decide

theorem test_T27_tay :
    after .tay { start with y := 0x05#8 } [] =
      some ⟨0x00#8, 0x00#8, 0x00#8, 0xFD#8, 0x8001#16, 0b000010#6, 2, []⟩ := by decide

theorem test_T28_txa :
    after .txa { start with a := 0xFF#8, x := 0x7F#8, n := true } [] =
      some ⟨0x7F#8, 0x7F#8, 0x00#8, 0xFD#8, 0x8001#16, 0b000000#6, 2, []⟩ := by decide

theorem test_T29_tya :
    after .tya { start with y := 0xFF#8 } [] =
      some ⟨0xFF#8, 0x00#8, 0xFF#8, 0xFD#8, 0x8001#16, 0b100000#6, 2, []⟩ := by decide

theorem test_T30_tsx :
    after .tsx start [] =
      some ⟨0x00#8, 0xFD#8, 0x00#8, 0xFD#8, 0x8001#16, 0b100000#6, 2, []⟩ := by decide

theorem test_T31_txs :
    after .txs { start with n := true } [] =
      some ⟨0x00#8, 0x00#8, 0x00#8, 0x00#8, 0x8001#16, 0b100000#6, 2, []⟩ := by decide

theorem test_T32_pha :
    after .pha { start with a := 0x42#8 } [0x01FD#16] =
      some ⟨0x42#8, 0x00#8, 0x00#8, 0xFC#8, 0x8001#16, 0b000000#6, 3, [0x42#8]⟩ := by decide

theorem test_T33_pha :
    after .pha { start with a := 0x42#8, sp := 0x00#8 } [0x0100#16] =
      some ⟨0x42#8, 0x00#8, 0x00#8, 0xFF#8, 0x8001#16, 0b000000#6, 3, [0x42#8]⟩ := by decide

theorem test_T34_php :
    after .php { start with i := true, c := true } [0x01FD#16] =
      some ⟨0x00#8, 0x00#8, 0x00#8, 0xFC#8, 0x8001#16, 0b000101#6, 3, [0x35#8]⟩ := by decide

theorem test_T36_php :
    after .php { start with n := true, v := true, d := true, i := true, z := true, c := true } [0x01FD#16] =
      some ⟨0x00#8, 0x00#8, 0x00#8, 0xFC#8, 0x8001#16, 0b111111#6, 3, [0xFF#8]⟩ := by decide

theorem test_T37_pla :
    after .pla { start with a := 0x01#8, sp := 0xFC#8 } [] =
      some ⟨0x00#8, 0x00#8, 0x00#8, 0xFD#8, 0x8001#16, 0b000010#6, 4, []⟩ := by decide

theorem test_T38_pla :
    after .pla { start with sp := 0xFF#8, ram := [(0x0100, 0x80#8)] } [] =
      some ⟨0x80#8, 0x00#8, 0x00#8, 0x00#8, 0x8001#16, 0b100000#6, 4, []⟩ := by decide

theorem test_T39_plp :
    after .plp { start with sp := 0xFC#8, ram := [(0x01FD, 0xFF#8)] } [] =
      some ⟨0x00#8, 0x00#8, 0x00#8, 0xFD#8, 0x8001#16, 0b111111#6, 4, []⟩ := by decide

theorem test_T41_plp :
    after .plp { start with sp := 0xFC#8, c := true, ram := [(0x01FD, 0x30#8)] } [] =
      some ⟨0x00#8, 0x00#8, 0x00#8, 0xFD#8, 0x8001#16, 0b000000#6, 4, []⟩ := by decide

theorem test_T47_adc :
    after (.adc (.immediate 0x90#8)) { start with a := 0xD0#8 } [] =
      some ⟨0x60#8, 0x00#8, 0x00#8, 0xFD#8, 0x8002#16, 0b010001#6, 2, []⟩ := by decide

theorem test_T54_adc :
    after (.adc (.absoluteX 0x02FF#16)) { start with a := 0x20#8, x := 0x01#8, ram := [(0x0300, 0x10#8)] } [] =
      some ⟨0x30#8, 0x01#8, 0x00#8, 0xFD#8, 0x8003#16, 0b000000#6, 5, []⟩ := by decide

theorem test_T60_sbc :
    after (.sbc (.immediate 0xB0#8)) { start with a := 0x50#8, c := true } [] =
      some ⟨0xA0#8, 0x00#8, 0x00#8, 0xFD#8, 0x8002#16, 0b110000#6, 2, []⟩ := by decide

theorem test_T66_sbc :
    after (.sbc (.immediate 0x09#8)) { start with a := 0x10#8, d := true, c := true } [] =
      some ⟨0x07#8, 0x00#8, 0x00#8, 0xFD#8, 0x8002#16, 0b001001#6, 2, []⟩ := by decide

theorem test_T67_sbc_eb :
    after (.sbcAlias 0x03#8) { start with a := 0x05#8, c := true } [] =
      some ⟨0x02#8, 0x00#8, 0x00#8, 0xFD#8, 0x8002#16, 0b000001#6, 2, []⟩ := by decide

theorem test_T70_cmp :
    after (.cmp (.immediate 0x01#8)) { start with a := 0x80#8, v := true } [] =
      some ⟨0x80#8, 0x00#8, 0x00#8, 0xFD#8, 0x8002#16, 0b010001#6, 2, []⟩ := by decide

theorem test_T72_cmp :
    after (.cmp (.absoluteX 0x02FF#16)) { start with x := 0x01#8 } [] =
      some ⟨0x00#8, 0x01#8, 0x00#8, 0xFD#8, 0x8003#16, 0b000011#6, 5, []⟩ := by decide

theorem test_T73_cpx :
    after (.cpx (.immediate 0x05#8)) { start with x := 0x06#8 } [] =
      some ⟨0x00#8, 0x06#8, 0x00#8, 0xFD#8, 0x8002#16, 0b000001#6, 2, []⟩ := by decide

theorem test_T74_cpx :
    after (.cpx (.zeroPage 0x10#8)) { start with ram := [(0x0010, 0x01#8)] } [] =
      some ⟨0x00#8, 0x00#8, 0x00#8, 0xFD#8, 0x8002#16, 0b100000#6, 3, []⟩ := by decide

theorem test_T75_cpy :
    after (.cpy (.immediate 0x80#8)) { start with y := 0x7F#8 } [] =
      some ⟨0x00#8, 0x00#8, 0x7F#8, 0xFD#8, 0x8002#16, 0b100000#6, 2, []⟩ := by decide

theorem test_T76_cpy :
    after (.cpy (.immediate 0x7F#8)) { start with y := 0x7F#8 } [] =
      some ⟨0x00#8, 0x00#8, 0x7F#8, 0xFD#8, 0x8002#16, 0b000011#6, 2, []⟩ := by decide

theorem test_T78_inc :
    after (.inc (.zeroPage 0x10#8)) { start with ram := [(0x0010, 0x7F#8)] } [0x0010#16] =
      some ⟨0x00#8, 0x00#8, 0x00#8, 0xFD#8, 0x8002#16, 0b100000#6, 5, [0x80#8]⟩ := by decide

theorem test_T79_inc :
    after (.inc (.absoluteX 0x02FF#16)) { start with x := 0x01#8 } [0x0300#16] =
      some ⟨0x00#8, 0x01#8, 0x00#8, 0xFD#8, 0x8003#16, 0b000000#6, 7, [0x01#8]⟩ := by decide

theorem test_T80_inx :
    after .inx { start with x := 0xFF#8 } [] =
      some ⟨0x00#8, 0x00#8, 0x00#8, 0xFD#8, 0x8001#16, 0b000010#6, 2, []⟩ := by decide

theorem test_T81_iny :
    after .iny { start with y := 0x7F#8 } [] =
      some ⟨0x00#8, 0x00#8, 0x80#8, 0xFD#8, 0x8001#16, 0b100000#6, 2, []⟩ := by decide

theorem test_T82_dec :
    after (.dec (.zeroPage 0x10#8)) start [0x0010#16] =
      some ⟨0x00#8, 0x00#8, 0x00#8, 0xFD#8, 0x8002#16, 0b100000#6, 5, [0xFF#8]⟩ := by decide

theorem test_T83_dec :
    after (.dec (.absolute 0x0200#16)) { start with ram := [(0x0200, 0x01#8)] } [0x0200#16] =
      some ⟨0x00#8, 0x00#8, 0x00#8, 0xFD#8, 0x8003#16, 0b000010#6, 6, [0x00#8]⟩ := by decide

theorem test_T84_dex :
    after .dex start [] =
      some ⟨0x00#8, 0xFF#8, 0x00#8, 0xFD#8, 0x8001#16, 0b100000#6, 2, []⟩ := by decide

theorem test_T86_dey :
    after .dey { start with y := 0x80#8 } [] =
      some ⟨0x00#8, 0x00#8, 0x7F#8, 0xFD#8, 0x8001#16, 0b000000#6, 2, []⟩ := by decide

theorem test_T87_and :
    after (.and (.immediate 0x0F#8)) { start with a := 0xF0#8 } [] =
      some ⟨0x00#8, 0x00#8, 0x00#8, 0xFD#8, 0x8002#16, 0b000010#6, 2, []⟩ := by decide

theorem test_T89_and :
    after (.and (.indirectIndexedY 0x20#8)) { start with a := 0xFF#8, y := 0x01#8, ram := [(0x0020, 0xFF#8),
      (0x0021, 0x02#8), (0x0300, 0x3C#8)] } [] =
      some ⟨0x3C#8, 0x00#8, 0x01#8, 0xFD#8, 0x8002#16, 0b000000#6, 6, []⟩ := by decide

theorem test_T90_ora :
    after (.ora (.immediate 0x80#8)) { start with a := 0x01#8 } [] =
      some ⟨0x81#8, 0x00#8, 0x00#8, 0xFD#8, 0x8002#16, 0b100000#6, 2, []⟩ := by decide

theorem test_T94_eor :
    after (.eor (.absoluteY 0x02F0#16)) { start with a := 0x01#8, y := 0x0F#8, ram := [(0x02FF, 0x01#8)] } [] =
      some ⟨0x00#8, 0x00#8, 0x0F#8, 0xFD#8, 0x8003#16, 0b000010#6, 4, []⟩ := by decide

theorem test_T95_bit :
    after (.bit (.zeroPage 0x10#8)) { start with a := 0x01#8, ram := [(0x0010, 0xC0#8)] } [] =
      some ⟨0x01#8, 0x00#8, 0x00#8, 0xFD#8, 0x8002#16, 0b110010#6, 3, []⟩ := by decide

theorem test_T98_bit :
    after (.bit (.absolute 0x0200#16)) { start with a := 0x80#8, ram := [(0x0200, 0x80#8)] } [] =
      some ⟨0x80#8, 0x00#8, 0x00#8, 0xFD#8, 0x8003#16, 0b100000#6, 4, []⟩ := by decide

theorem test_T99_asl :
    after (.asl .accumulator) { start with a := 0x81#8 } [] =
      some ⟨0x02#8, 0x00#8, 0x00#8, 0xFD#8, 0x8001#16, 0b000001#6, 2, []⟩ := by decide

theorem test_T103_asl :
    after (.asl (.absoluteX 0x02FF#16)) { start with x := 0x01#8, ram := [(0x0300, 0xC0#8)] } [0x0300#16] =
      some ⟨0x00#8, 0x01#8, 0x00#8, 0xFD#8, 0x8003#16, 0b100001#6, 7, [0x80#8]⟩ := by decide

theorem test_T105_lsr :
    after (.lsr .accumulator) { start with a := 0x80#8, n := true, c := true } [] =
      some ⟨0x40#8, 0x00#8, 0x00#8, 0xFD#8, 0x8001#16, 0b000000#6, 2, []⟩ := by decide

theorem test_T106_lsr :
    after (.lsr (.zeroPage 0x10#8)) { start with ram := [(0x0010, 0x03#8)] } [0x0010#16] =
      some ⟨0x00#8, 0x00#8, 0x00#8, 0xFD#8, 0x8002#16, 0b000001#6, 5, [0x01#8]⟩ := by decide

theorem test_T107_rol :
    after (.rol .accumulator) { start with a := 0x40#8, c := true } [] =
      some ⟨0x81#8, 0x00#8, 0x00#8, 0xFD#8, 0x8001#16, 0b100000#6, 2, []⟩ := by decide

theorem test_T110_rol :
    after (.rol (.zeroPageX 0x10#8)) { start with x := 0x01#8, ram := [(0x0011, 0xFF#8)] } [0x0011#16] =
      some ⟨0x00#8, 0x01#8, 0x00#8, 0xFD#8, 0x8002#16, 0b100001#6, 6, [0xFE#8]⟩ := by decide

theorem test_T111_ror :
    after (.ror .accumulator) { start with a := 0x02#8, c := true } [] =
      some ⟨0x81#8, 0x00#8, 0x00#8, 0xFD#8, 0x8001#16, 0b100000#6, 2, []⟩ := by decide

theorem test_T114_ror :
    after (.ror (.absolute 0x0200#16)) { start with c := true, ram := [(0x0200, 0x01#8)] } [0x0200#16] =
      some ⟨0x00#8, 0x00#8, 0x00#8, 0xFD#8, 0x8003#16, 0b100001#6, 6, [0x80#8]⟩ := by decide

theorem test_T116_jmp :
    after (.jmp (.absolute 0x8000#16)) start [] =
      some ⟨0x00#8, 0x00#8, 0x00#8, 0xFD#8, 0x8000#16, 0b000000#6, 3, []⟩ := by decide

theorem test_T117_jmp :
    after (.jmp (.indirect 0x02FF#16)) { start with ram := [(0x0200, 0x12#8), (0x02FF, 0x34#8), (0x0300,
      0x56#8)] } [] =
      some ⟨0x00#8, 0x00#8, 0x00#8, 0xFD#8, 0x1234#16, 0b000000#6, 5, []⟩ := by decide

theorem test_T120_jsr :
    after (.jsr 0x9000#16) { start with pc := 0x80FE#16 } [0x01FD#16, 0x01FC#16] =
      some ⟨0x00#8, 0x00#8, 0x00#8, 0xFB#8, 0x9000#16, 0b000000#6, 6, [0x81#8, 0x00#8]⟩ := by decide

theorem test_T121_jsr :
    after (.jsr 0x9000#16) { start with sp := 0x00#8 } [0x0100#16, 0x01FF#16] =
      some ⟨0x00#8, 0x00#8, 0x00#8, 0xFE#8, 0x9000#16, 0b000000#6, 6, [0x80#8, 0x02#8]⟩ := by decide

theorem test_T122_rts :
    after .rts { start with sp := 0xFB#8, ram := [(0x01FC, 0x02#8), (0x01FD, 0x80#8)] } [] =
      some ⟨0x00#8, 0x00#8, 0x00#8, 0xFD#8, 0x8003#16, 0b000000#6, 6, []⟩ := by decide

theorem test_T123_rts :
    after .rts { start with sp := 0xFB#8, ram := [(0x01FC, 0xFF#8), (0x01FD, 0xFF#8)] } [] =
      some ⟨0x00#8, 0x00#8, 0x00#8, 0xFD#8, 0x0000#16, 0b000000#6, 6, []⟩ := by decide

theorem test_T124_bcc :
    after (.bcc 0x04#8) start [] =
      some ⟨0x00#8, 0x00#8, 0x00#8, 0xFD#8, 0x8006#16, 0b000000#6, 3, []⟩ := by decide

theorem test_T125_bcc :
    after (.bcc 0x04#8) { start with c := true } [] =
      some ⟨0x00#8, 0x00#8, 0x00#8, 0xFD#8, 0x8002#16, 0b000001#6, 2, []⟩ := by decide

theorem test_T126_bcs :
    after (.bcs 0x04#8) start [] =
      some ⟨0x00#8, 0x00#8, 0x00#8, 0xFD#8, 0x8002#16, 0b000000#6, 2, []⟩ := by decide

theorem test_T127_bcs :
    after (.bcs 0x80#8) { start with c := true } [] =
      some ⟨0x00#8, 0x00#8, 0x00#8, 0xFD#8, 0x7F82#16, 0b000001#6, 4, []⟩ := by decide

theorem test_T128_beq :
    after (.beq 0xFE#8) { start with z := true } [] =
      some ⟨0x00#8, 0x00#8, 0x00#8, 0xFD#8, 0x8000#16, 0b000010#6, 3, []⟩ := by decide

theorem test_T130_bmi :
    after (.bmi 0x7F#8) { start with n := true } [] =
      some ⟨0x00#8, 0x00#8, 0x00#8, 0xFD#8, 0x8081#16, 0b100000#6, 3, []⟩ := by decide

theorem test_T133_bne :
    after (.bne 0x00#8) { start with pc := 0x80FE#16 } [] =
      some ⟨0x00#8, 0x00#8, 0x00#8, 0xFD#8, 0x8100#16, 0b000000#6, 3, []⟩ := by decide

theorem test_T134_bne :
    after (.bne 0xFD#8) { start with pc := 0x8100#16 } [] =
      some ⟨0x00#8, 0x00#8, 0x00#8, 0xFD#8, 0x80FF#16, 0b000000#6, 4, []⟩ := by decide

theorem test_T135_bpl :
    after (.bpl 0x80#8) start [] =
      some ⟨0x00#8, 0x00#8, 0x00#8, 0xFD#8, 0x7F82#16, 0b000000#6, 4, []⟩ := by decide

theorem test_T138_bpl :
    after (.bpl 0x10#8) { start with pc := 0xFFF0#16 } [] =
      some ⟨0x00#8, 0x00#8, 0x00#8, 0xFD#8, 0x0002#16, 0b000000#6, 4, []⟩ := by decide

theorem test_T136_bvc :
    after (.bvc 0x02#8) { start with v := true } [] =
      some ⟨0x00#8, 0x00#8, 0x00#8, 0xFD#8, 0x8002#16, 0b010000#6, 2, []⟩ := by decide

theorem test_T137_bvs :
    after (.bvs 0x02#8) { start with pc := 0x80FC#16, v := true } [] =
      some ⟨0x00#8, 0x00#8, 0x00#8, 0xFD#8, 0x8100#16, 0b010000#6, 4, []⟩ := by decide

theorem test_T139_brk :
    after .brk { start with c := true, board := testBoard [(0x7FFF, 0x90#8)] } [0x01FD#16, 0x01FC#16, 0x01FB#16]
      =
      some ⟨0x00#8, 0x00#8, 0x00#8, 0xFA#8, 0x9000#16, 0b000101#6, 7, [0x80#8, 0x02#8, 0x31#8]⟩ := by decide

theorem test_T140_brk :
    after .brk { start with n := true, d := true, i := true, board := testBoard [(0x7FFF, 0x90#8)] } [0x01FD#16,
      0x01FC#16, 0x01FB#16] =
      some ⟨0x00#8, 0x00#8, 0x00#8, 0xFA#8, 0x9000#16, 0b101100#6, 7, [0x80#8, 0x02#8, 0xBC#8]⟩ := by decide

theorem test_T141_rti :
    after .rti { start with sp := 0xFA#8, i := true, ram := [(0x01FB, 0x31#8), (0x01FC, 0x02#8), (0x01FD,
      0x80#8)] } [] =
      some ⟨0x00#8, 0x00#8, 0x00#8, 0xFD#8, 0x8002#16, 0b000001#6, 6, []⟩ := by decide

theorem test_T142_rti :
    after .rti { start with sp := 0xFA#8, ram := [(0x01FB, 0xCF#8), (0x01FC, 0x34#8), (0x01FD, 0x12#8)] } [] =
      some ⟨0x00#8, 0x00#8, 0x00#8, 0xFD#8, 0x1234#16, 0b111111#6, 6, []⟩ := by decide

theorem test_T143_clc :
    after .clc { start with c := true } [] =
      some ⟨0x00#8, 0x00#8, 0x00#8, 0xFD#8, 0x8001#16, 0b000000#6, 2, []⟩ := by decide

theorem test_T144_sec :
    after .sec start [] =
      some ⟨0x00#8, 0x00#8, 0x00#8, 0xFD#8, 0x8001#16, 0b000001#6, 2, []⟩ := by decide

theorem test_T145_cli :
    after .cli { start with i := true } [] =
      some ⟨0x00#8, 0x00#8, 0x00#8, 0xFD#8, 0x8001#16, 0b000000#6, 2, []⟩ := by decide

theorem test_T146_sei :
    after .sei start [] =
      some ⟨0x00#8, 0x00#8, 0x00#8, 0xFD#8, 0x8001#16, 0b000100#6, 2, []⟩ := by decide

theorem test_T147_clv :
    after .clv { start with v := true } [] =
      some ⟨0x00#8, 0x00#8, 0x00#8, 0xFD#8, 0x8001#16, 0b000000#6, 2, []⟩ := by decide

theorem test_T148_cld :
    after .cld { start with d := true } [] =
      some ⟨0x00#8, 0x00#8, 0x00#8, 0xFD#8, 0x8001#16, 0b000000#6, 2, []⟩ := by decide

theorem test_T149_sed :
    after .sed start [] =
      some ⟨0x00#8, 0x00#8, 0x00#8, 0xFD#8, 0x8001#16, 0b001000#6, 2, []⟩ := by decide

theorem test_T150_nop :
    after .nop { start with a := 0x12#8, x := 0x34#8, y := 0x56#8, n := true, c := true } [] =
      some ⟨0x12#8, 0x34#8, 0x56#8, 0xFD#8, 0x8001#16, 0b100001#6, 2, []⟩ := by decide

theorem test_T152_absent : faults (exec (.absent 0x02#8) start) (.absentOpcode 0x02#8 0x8000#16) = true := by
  decide

/-! ### Ticks that are not instruction ticks: Part 3 -/

/-- The start state of Part 3. -/
def waiting : State :=
  { start with
    pc := 0x8123#16
    board := testBoard [(0x0123, 0x02#8), (0x7FFB, 0x90#8), (0x7FFD, 0x80#8), (0x7FFE, 0x10#8), (0x7FFF, 0x90#8)] }

theorem test_I1_nmi :
    seen (tick { waiting with pending := some .nmi, c := true, n := true }) [0x01FD#16, 0x01FC#16, 0x01FB#16] =
      some ⟨0#8, 0#8, 0#8, 0xFA#8, 0x9000#16, 0b100101#6, 7, [0x81#8, 0x23#8, 0xA1#8]⟩ := by decide

theorem test_I3_irq :
    seen (tick { waiting with pending := some .irq, v := true, d := true }) [0x01FD#16, 0x01FC#16, 0x01FB#16] =
      some ⟨0#8, 0#8, 0#8, 0xFA#8, 0x9010#16, 0b011100#6, 7, [0x81#8, 0x23#8, 0x68#8]⟩ := by decide

theorem test_I4_masked :
    seen (tick { waiting with pending := some .irq, i := true, c := true }) [0x01FD#16] =
      some ⟨0#8, 0#8, 0#8, 0xFD#8, 0x8123#16, 0b000101#6, 7, [0#8]⟩ := by decide

theorem test_I5_stall :
    seen (tick { waiting with pending := some .irq, stall := 2 }) [] =
      some ⟨0#8, 0#8, 0#8, 0xFD#8, 0x8123#16, 0b000000#6, 1, []⟩ := by decide

theorem test_I7_absent : faults (tick waiting) (.absentOpcode 0x02#8 0x8123#16) = true := by decide

theorem test_I8_reset :
    seen (resetMachine { waiting with cycles := 12345, sp := 0x20#8, a := 0x77#8, ram := [(5, 7#8)] })
      [0x0005#16] = some ⟨0#8, 0#8, 0#8, 0xFD#8, 0x8000#16, 0b000100#6, 0, [7#8]⟩ := by decide

/-! ### The platform -/

/-- S7: a step runs the NOP at PC and costs 2 cycles. -/
theorem test_step_nop :
    seen (step { start with board := testBoard [(0, 0xEA#8)] }) [] =
      some ⟨0#8, 0#8, 0#8, 0xFD#8, 0x8001#16, 0b000000#6, 2, []⟩ := by decide

/-- `withFetchWord` places the word at the reset PC, and the next step runs it (T2). -/
theorem test_withFetchWord :
    seen (step (State.reset.withFetchWord 16 0x80A9)) [] =
      some ⟨0x80#8, 0#8, 0#8, 0xFD#8, 0x0002#16, 0b100100#6, 2, []⟩ := by decide

/-- S5: bank 3 in the low 16 KiB: offset 0x1234 of the window is byte 3 * 0x4000 + 0x1234 of the data. -/
theorem test_S5_switchBank :
    (({ data := [(0xD234, 0x5A#8)], size := 0x20000, windowSize := 0x8000, fixed := false, pageSize := 0x400,
        pointers := List.range 32 } : BankMemory).switchBank 0x0000 0x4000 3).resolve 0x1234 = some 0xD234 := by
  decide

/-- The stall of an OAM DMA copy for both parities (S8; 20_memory R96): its last three bytes here. -/
theorem test_S8_dma_end :
    (match dmaCopy 10#8 0x02#8 3 { start with ram := [(0x02FD, 1#8), (0x02FF, 3#8)] } with
      | .ok (_, t) => t.board.gfx.oam
      | .error _ => []) = [(7, 1#8), (9, 3#8)] := by decide

/-- The NMI request at scanline 241, cycle 1 (60_exceptions R355). -/
theorem test_nmi_request :
    (({ testBoard [] with gfx := { Gfx.reset with scanline := 241, cycle := 1, nmiEnable := true } } : Board).tick.2
      = some .nmi) ∧
    ({ testBoard [] with gfx := { Gfx.reset with scanline := 241, cycle := 1 } } : Board).tick.2 = none := by decide

/-- The last position of a frame leads to the first, and the parity toggles (60_exceptions R365). -/
theorem test_raster_wrap :
    (let g := ({ Gfx.reset with scanline := 261, cycle := 340 } : Gfx).advance
     (g.cycle, g.scanline, g.frameParity)) = (0, 0, true) := by decide

/-- The odd-frame skip ends at cycle 1 (S6; 60_exceptions R366). -/
theorem test_odd_skip :
    (let g := ({ Gfx.reset with scanline := 261, cycle := 340, frameParity := true
                                flags := { Gfx.reset.flags with showBackground := true } } : Gfx).advance
     (g.cycle, g.scanline, g.frameParity)) = (1, 0, false) := by decide

/-- Without a cartridge there is no tick (70_reset_and_hazards R421). -/
theorem test_unload : (match step (unloadCartridge start) with | .refused r => r == .noCartridge | _ => false) = true := by
  decide

/-- A run of two ticks over two NOPs costs 4 cycles; a JMP to its own address is detected, a NOP is none
(70_reset_and_hazards R420). -/
theorem test_run :
    seen (run 2 { start with board := testBoard [(0, 0xEA#8), (1, 0xEA#8)] }) [] =
      some ⟨0#8, 0#8, 0#8, 0xFD#8, 0x8002#16, 0b000000#6, 4, []⟩ ∧
    ({ start with board := testBoard [(0, 0x4C#8), (2, 0x80#8)] } : State).jumpsToItself = true ∧
    ({ start with board := testBoard [(0, 0xEA#8)] } : State).jumpsToItself = false := by decide

/-- Coarse-X goes up by 1, and its wrap toggles the nametable-select bit, with the field and the bit of the family
(60_exceptions R357). -/
theorem test_coarse_x :
    advanceCoarseX 0x001F#15 10 0x2BFE#15 = 0x2BFF#15 ∧ advanceCoarseX 0x001F#15 10 0x2BFF#15 = 0x2FE0#15 ∧
    advanceCoarseX 0x001F#15 10 0x2FFF#15 = 0x2BE0#15 := by decide

/-! ### Witnesses: for every obligation with hypotheses, a state and operands that meet them -/

theorem boardWith_ok (variant : Variant) {code : Memory} (h : Cells.Ok 0x8000 code) :
    (boardWith variant code).Ok := by
  cases variant <;> exact ⟨Gfx.Ok.reset, buildMapper_ok (by decide) h (Cells.Ok.nil _) (Cells.Ok.nil _)⟩

theorem testBoard_ok {code : Memory} (h : Cells.Ok 0x8000 code) : (testBoard code).Ok := boardWith_ok .fixed h

/-- A state with RAM, program bytes and vectors that hold something. -/
def sample : State :=
  { start with
    x := 0x01#8, c := true, ram := [(0x0010, 0x80#8), (0x01FE, 0x42#8)]
    board := testBoard [(0, 0xEA#8), (1, 0x02#8), (0x7FFB, 0x90#8), (0x7FFD, 0x80#8), (0x7FFF, 0x90#8)] }

/-- The invariant holds of it: the hypothesis of ResetRegisters, StackLaws, ReturnLaws, RamMirrors, OamDma,
WriteDispatch and of every other obligation about a state. -/
theorem sample_inv : sample.Inv :=
  ⟨⟨by decide, by decide⟩, testBoard_ok ⟨by decide, by decide⟩, rfl⟩

/-- Whether an outcome is a next state. -/
def isNext (o : Host.Outcome State Fault Refusal) : Bool :=
  match o with
  | .next _ => true
  | _ => false

theorem exists_next {o : Host.Outcome State Fault Refusal} (h : isNext o = true) : ∃ t, o = .next t := by
  cases o with
  | next t => exact ⟨t, rfl⟩
  | fault | refused => cases h

/-- An image of a cartridge with the given mapper id in header byte 6, one program bank, and one byte at
each end of it. -/
def imageOf (byte6 : Byte) : Memory :=
  if byte6 = 0#8 then [(4, 1#8), (16, 0xA9#8), (0x400F, 0x60#8)]
  else [(4, 1#8), (6, byte6), (16, 0xA9#8), (0x400F, 0x60#8)]

/-- LoadAndUnloadCartridge: ids 0 and 4 are recognised, 3 and 5 are not; the first and the last byte of the bank. -/
theorem witness_LoadAndUnloadCartridge :
    Cells.wf (imageOf 0x00#8) = true ∧ Cells.read (imageOf 0x00#8) 4 ≠ 0#8 ∧
    imageMapperId (imageOf 0x00#8) ∈ [0, 1, 2, 4] ∧ imageMapperId (imageOf 0x40#8) ∈ [0, 1, 2, 4] ∧
    imageMapperId (imageOf 0x30#8) ∉ [0, 1, 2, 4] ∧ imageMapperId (imageOf 0x50#8) ∉ [0, 1, 2, 4] ∧
    Cells.read (imageOf 0x00#8) 0x400F = 0x60#8 :=
  ⟨by decide, by decide, by decide, by decide, by decide, by decide, rfl⟩

/-- StepKeepsInvariant, and the first case of OnlyAbsentOpcodesFault. -/
theorem witness_StepKeepsInvariant : sample.Inv ∧ ∃ t, step sample = .next t :=
  ⟨sample_inv, exists_next (by decide)⟩

/-- OnlyAbsentOpcodesFault, its second case, and AbsentOpcodeFaults: the byte 0x02 at PC. -/
theorem witness_OnlyAbsentOpcodesFault :
    ({ sample with pc := 0x8001#16 } : State).Inv ∧
    (∃ t, memRead 0x8001#16 { sample with pc := 0x8001#16 } = .ok (0x02#8, t)) ∧
    absentOpcodes.contains (0x02#8).toNat = true ∧
    faults (step { sample with pc := 0x8001#16 }) (.absentOpcode 0x02#8 0x8001#16) = true :=
  ⟨⟨sample_inv.ram, sample_inv.board, sample_inv.loaded⟩,
    ⟨_, memRead_mapper (by decide) (show Mapper.read _ _ = .ok (0x02#8) from by
      simp only [Mapper.read, BankMemory.read]; decide)⟩, by decide, by decide⟩

/-- CompletionAndAbsentHandler, DecodeEncode, RegisterAndFlagFrame, CycleCost: well-formed present
instructions, one for each premise a clause has. -/
theorem witness_frames :
    ([Instr.nop, .jmp (.indirect 0x02FF#16), .asl .accumulator, .sbcAlias 0xFF#8].all
      fun i => i.wf && i.present && (storesTo i).isNone) = true ∧
    writesA .nop = false ∧ writesA (.asl .accumulator) = true ∧ writesA (.asl (.zeroPage 0x10#8)) = false ∧
    writesX .nop = false ∧ writesY .nop = false ∧ writesSp .nop = false ∧ writesC .nop = false ∧
    writesZN .nop = false ∧ writesI .nop = false ∧ writesD .nop = false ∧ writesV .nop = false := by decide

/-- CompletionAndAbsentHandler, its second clause: a term outside its row, in plain memory. -/
theorem witness_CompletionAndAbsentHandler :
    (Instr.sta (.immediate 0#8)).wf = false ∧ (Instr.sta (.immediate 0#8)).present = true ∧
    plainAddress sample.pc = true ∧
    faults (exec (.sta (.immediate 0#8)) sample) (.absentHandler 0xEA#8 0x8000#16) = true := by decide

/-- EncodeDecode: bytes that decode, with a rest. -/
theorem witness_EncodeDecode : ∃ i rest, decode [0xBD#8, 0xFF#8, 0x02#8, 0xEA#8] = .ok (i, rest) := ⟨_, _, rfl⟩

/-- AbsentBytes: both cases, at the first and the last byte of each. -/
theorem witness_AbsentBytes :
    absentOpcodes.contains (0x02#8).toNat = true ∧ absentOpcodes.contains (0xFF#8).toNat = true ∧
    absentOpcodes.contains (0x00#8).toNat = false ∧ absentOpcodes.contains (0xFE#8).toNat = false := by decide

theorem sample_bytes : sample.byteAt 0x8000#16 = 0xEA#8 ∧ sample.byteAt 0x8001#16 = 0x02#8 ∧
    sample.byteAt 0x8002#16 = 0x00#8 := by decide

/-- StepRunsDecoded: the bytes at PC lie in plain memory and decode; also at the top of RAM. -/
theorem witness_StepRunsDecoded :
    sample.Inv ∧ sample.stall = 0 ∧ sample.pending = none ∧ plainAddress 0x8000#16 = true ∧
    plainAddress 0x8002#16 = true ∧ plainAddress 0x1FFF#16 = true ∧ plainAddress 0x2000#16 = false ∧
    plainAddress 0x5FFF#16 = false ∧ plainAddress 0x6000#16 = true ∧
    decode [sample.byteAt 0x8000#16, sample.byteAt 0x8001#16, sample.byteAt 0x8002#16]
      = .ok (.nop, [0x02#8, 0x00#8]) :=
  ⟨sample_inv, rfl, rfl, by decide, by decide, by decide, by decide, by decide, by decide,
    by rw [sample_bytes.1, sample_bytes.2.1, sample_bytes.2.2]; rfl⟩

/-- TickOrder: its three cases. -/
theorem witness_TickOrder :
    0 < ({ sample with stall := 1 } : State).stall ∧
    (({ sample with pending := some .irq } : State).stall = 0 ∧
      ({ sample with pending := some .irq } : State).pending = some .irq) ∧
    sample.stall = 0 ∧ sample.pending = none := by decide

/-- InterruptEntry, for both requests, the NMI with I set; and an unmasked request of ReturnLaws. -/
theorem witness_InterruptEntry :
    ({ sample with pending := some .nmi, i := true } : State).Inv ∧
    ({ sample with pending := some .irq } : State).Inv ∧
    ({ sample with pending := some .irq } : State).i = false ∧
    ({ sample with i := true } : State).masks .nmi = false ∧ sample.masks .irq = false :=
  ⟨⟨sample_inv.ram, sample_inv.board, sample_inv.loaded⟩, ⟨sample_inv.ram, sample_inv.board, sample_inv.loaded⟩, rfl, rfl, rfl⟩

/-- MaskedIrq. -/
theorem witness_MaskedIrq :
    let s : State := { sample with pending := some .irq, i := true }
    s.stall = 0 ∧ s.pending = some .irq ∧ s.i = true := ⟨rfl, rfl, rfl⟩

/-- ProgramCounterAdvance: an instruction that never writes PC, and a branch that is not taken. -/
theorem witness_ProgramCounterAdvance :
    writesPc .nop = false ∧ (Instr.bcc 0x80#8).mode = some .relative ∧ branchTaken (.bcc 0x80#8) sample = false ∧
    (Instr.bcc 0x80#8).wf = true ∧ branchTaken (.bcs 0x80#8) sample = true := by decide

/-- CycleCost: the three cases of a stall, a taken and a latch-consulting instruction. -/
theorem witness_CycleCost :
    0 < ({ sample with stall := 1 } : State).stall ∧ consultsLatch (.lda (.absoluteX 0x02FF#16)) = true ∧
    (Instr.lda (.absoluteX 0x02FF#16)).wf = true := by decide

/-- MemoryFrame: an instruction that pushes three bytes, and addresses beside the bytes it pushes. -/
theorem witness_MemoryFrame :
    storesTo .brk = none ∧ pushes .brk = 3 ∧
    ((List.range 3).all fun k => !sameCell (stackAddress (sample.sp - BitVec.ofNat 8 k)) 0x01FE#16
      && !sameCell (stackAddress (sample.sp - BitVec.ofNat 8 k)) 0x01FA#16) = true ∧
    sameCell (stackAddress sample.sp) 0x01FD#16 = true := by decide

/-- StoreFrame: the stores, both premises on the other address, and both clauses on the address. -/
theorem witness_StoreFrame :
    (Instr.sta (.absolute 0x2007#16)).wf = true ∧
    storesTo (.sta (.absolute 0x2007#16)) = some (.absolute 0x2007#16) ∧
    (Instr.rol (.zeroPageX 0xFF#8)).wf = true ∧
    storesTo (.rol (.zeroPageX 0xFF#8)) = some (.zeroPageX 0xFF#8) ∧ storesTo (.rol .accumulator) = none ∧
    sameCell 0x0010#16 0x0811#16 = false ∧ sameCell 0x0010#16 0x0810#16 = true ∧
    sameCell 0x1FFF#16 0x2000#16 = false ∧ sample.board.mapper.header.variant = .fixed := by decide

/-- EffectiveAddresses: a pointer in the last byte of a page. -/
theorem witness_EffectiveAddresses :
    ∃ lo hi s1 s2, memRead 0x01FF#16 { sample with extra := false } = .ok (lo, s1) ∧
      memRead ((0x01FF#16 &&& 0xFF00#16) ||| ((0x01FF#16 + 1#16) &&& 0x00FF#16)) s1 = .ok (hi, s2) :=
  ⟨_, _, _, _, memRead_ram (by decide) _, memRead_ram (by decide) _⟩

/-- OperandReads: an operand read of each of its clauses, the last from plain memory. -/
theorem witness_OperandReads :
    (∃ u t, ReadsOperand (.asl .accumulator) .accumulator sample u t) ∧
    (∃ u t, ReadsOperand (.lda (.immediate 0xFF#8)) (.immediate 0xFF#8) sample u t) ∧
    (∃ u t, ReadsOperand (.lda (.zeroPageX 0x0F#8)) (.zeroPageX 0x0F#8) sample u t) ∧
    (∃ addr r, resolve (.zeroPageX 0x0F#8) sample = .ok (addr, r) ∧ plainAddress addr = true) :=
  ⟨readsOperand_ok sample_inv (by decide) rfl, readsOperand_ok sample_inv (by decide) rfl,
    readsOperand_ok sample_inv (by decide) rfl, _, _, rfl, by decide⟩

/-- Loads, Stores, AddWithCarry, DecimalIgnored, SubtractWithCarry, Compares, IncrementDecrementMemory,
LogicalOperations, BitTest, ShiftsAndRotates: a well-formed form of each instruction named. -/
theorem witness_forms :
    ([Instr.lda (.indirectIndexedY 0xFF#8), .ldx (.absoluteY 0xFFFF#16), .ldy (.absoluteX 0#16),
      .sta (.indexedIndirectX 0#8), .stx (.zeroPageY 0xFF#8), .sty (.zeroPageX 0#8)] ++
     [Instr.adc (.immediate 0xFF#8), .sbc (.absolute 0x2002#16), .cmp (.zeroPage 0#8), .cpx (.immediate 0#8),
      .cpy (.absolute 0#16), .inc (.absoluteX 0xFFFF#16), .dec (.zeroPage 0#8)] ++
     [Instr.and (.absoluteY 0#16), .ora (.zeroPageX 0#8), .eor (.indexedIndirectX 0#8), .bit (.absolute 0#16),
      .asl (.zeroPage 0#8), .lsr (.absolute 0#16), .rol (.absoluteX 0#16), .ror (.zeroPageX 0#8)]).all
      Instr.wf = true ∧ Operand.zeroPage 0#8 ≠ .accumulator := by decide

/-- WriteDispatch and DeviceReads: the ends of every range, and no address in two of them. -/
theorem witness_WriteDispatch :
    (0x1FFF#16).toNat < 0x2000 ∧ ¬ (0x2000#16).toNat < 0x2000 ∧
    (0x2000 ≤ (0x2000#16).toNat ∧ (0x3FFF#16).toNat < 0x4000) ∧
    (0x4000 ≤ (0x4000#16).toNat ∧ (0x5FFF#16).toNat < 0x6000 ∧ 0x5FFF#16 ≠ 0x4014#16) ∧
    (0x6000 ≤ (0x6000#16).toNat ∧ (0x7FFF#16).toNat < 0x8000) ∧ 0x8000 ≤ (0x8000#16).toNat ∧
    (0x4000 ≤ (0x4013#16).toNat ∧ (0x4013#16).toNat ≤ 0x4013) ∧
    sample.board.mapper.header.variant = .fixed := by decide

/-- RamMirrors: the ends of RAM and of its mirrors, alike and different modulo 0x800. -/
theorem witness_RamMirrors :
    (0x0000#16).toNat < 0x2000 ∧ (0x1FFF#16).toNat < 0x2000 ∧
    (0x1FFF#16).toNat % 0x800 = (0x07FF#16).toNat % 0x800 ∧
    ¬ (0x1FFF#16).toNat % 0x800 = (0x0000#16).toNat % 0x800 := by decide

/-- DeviceReads: the addresses of its rows and the ends of its last range. -/
theorem witness_DeviceReads :
    (0x4018 ≤ (0x4018#16).toNat ∧ (0x5FFF#16).toNat < 0x6000) ∧ ¬ 0x4018 ≤ (0x4017#16).toNat ∧
    ¬ 0x4018 ≤ (0x4014#16).toNat := by decide

/-- OamDma: pages of plain memory at the ends of the ranges, both parities of the cycle counter. -/
theorem witness_OamDma :
    (0x1F#8).toNat < 0x20 ∧ 0x60 ≤ (0x60#8).toNat ∧ ¬ ((0x20#8).toNat < 0x20 ∨ 0x60 ≤ (0x20#8).toNat) ∧
    sample.cycles % 2 = 0 ∧ ({ sample with cycles := 9 } : State).cycles % 2 = 1 := by decide

/-- SwitchBank: the low window of 32 pages, its last byte, and an empty window. -/
theorem witness_SwitchBank :
    let b : BankMemory := ⟨[], 0x20000, 0x8000, false, 0x400, List.range 32⟩
    0 < b.pageSize ∧ b.pageSize ∣ 0x0000 ∧ b.pageSize ∣ 0x4000 ∧
    0x4000 ≤ b.pointers.length * b.pageSize ∧ 0x8000 ≤ b.pointers.length * b.pageSize ∧
    0x3FFF < 0x4000 - 0x0000 ∧ 0x4000 ≤ b.windowSize ∧ 3 * (0x4000 - 0x0000) + 0x3FFF < b.size :=
  ⟨by decide, ⟨0, rfl⟩, ⟨16, rfl⟩, by decide, by decide, by decide, by decide, by decide⟩

/-- ShiftRegisterWrites, its first clause. -/
theorem witness_shiftRegister_reset :
    (buildMapper ⟨.shiftRegister, 2, 1, .vertical, false⟩ [] [] []).header.variant = .shiftRegister ∧
    0x8000 ≤ (0x8000#16).toNat ∧ (0x80#8).getLsbD 7 = true := by decide

/-- ShiftRegisterWrites, its other clauses: an empty register, a write that accumulates, both ends of the addresses. -/
theorem witness_ShiftRegisterWrites :
    let m := buildMapper ⟨.shiftRegister, 2, 1, .vertical, false⟩ [] [] []
    m.header.variant = .shiftRegister ∧ m.shift = 0#5 ∧ m.shiftCount = 0 ∧ m.shiftCount < 4 ∧
    0x8000 ≤ (0x8000#16).toNat ∧ 0x8000 ≤ (0xFFFF#16).toNat ∧ (0x7F#8).getLsbD 7 = false := by decide

/-- The sample with another cartridge. -/
def sampleWith (variant : Variant) : State := { sample with board := boardWith variant [(0, 0xEA#8)] }

theorem sampleWith_inv (variant : Variant) : (sampleWith variant).Inv :=
  ⟨sample_inv.ram, boardWith_ok variant ⟨by decide, by decide⟩, sample_inv.loaded⟩

/-- SwitchableWrites: a cartridge of variant C with two banks, and both ends of the addresses. -/
theorem witness_SwitchableWrites :
    (sampleWith .switchable).Inv ∧ (sampleWith .switchable).board.mapper.header.variant = .switchable ∧
    0x8000 ≤ (0x8000#16).toNat ∧ 0x8000 ≤ (0xFFFF#16).toNat :=
  ⟨sampleWith_inv _, rfl, by decide, by decide⟩

/-- ScanlineRegistersAndCounter: a mapper of variant D before a reload, at 0 and counting. -/
theorem witness_ScanlineRegistersAndCounter :
    let m : Mapper := { (sampleWith .scanlineIrq).board.mapper with reload := true, latch := 0xFF#8, irqEnable := true }
    let m' : Mapper := { m with reload := false, counter := 1#8 }
    m.header.variant = .scanlineIrq ∧ m.reload = true ∧ (List.range 255).length ≤ m.latch.toNat ∧
    (m'.header.variant = .scanlineIrq ∧ m'.reload = false ∧ m'.counter ≠ 0#8 ∧ m'.irqEnable = true ∧
      (m'.tick 0).1.counter = 0#8) ∧ 0x8000 ≤ (0x8000#16).toNat :=
  ⟨rfl, rfl, by rw [List.length_range]; decide, ⟨rfl, rfl, by decide, rfl, rfl⟩, by decide⟩

/-- Forwarding and Runs: a tick, and a run, that reach a next state. -/
theorem witness_Forwarding : sample.Inv ∧ (∃ t, tick sample = .next t) ∧ ∃ t, run 1 sample = .next t :=
  ⟨sample_inv, exists_next (by decide), exists_next (by decide)⟩

/-- GraphicsRegisterReads, WriteDispatch: the ends of the range, one address of every register, both
values of the write-toggle. -/
theorem witness_GraphicsRegisters :
    (0x2000 ≤ (0x2000#16).toNat ∧ (0x3FFF#16).toNat < 0x4000) ∧
    ((List.range 8).all fun k => (0x2000#16 + BitVec.ofNat 16 k).toNat % 8 == k) = true ∧
    (0x3FFF#16).toNat % 8 = 7 ∧ sample.board.gfx.writeToggle = false ∧
    ({ sample.board.gfx with writeToggle := true } : Gfx).writeToggle = true := by decide

/-- GraphicsAddressSpace: the ends of both windows, and cartridges with and without graphics banks. -/
theorem witness_GraphicsAddressSpace :
    0x1FFF < 0x2000 ∧ (0x2000 ≤ 0x2000 ∧ 0x3EFF < 0x3F00) ∧ sample.board.Ok ∧
    sample.board.mapper.header.chrBanks ≠ 0 ∧
    (buildMapper ⟨.fixed, 1, 0, .vertical, false⟩ [] [] []).header.chrBanks = 0 ∧
    (⟨Gfx.reset, buildMapper ⟨.fixed, 1, 0, .vertical, false⟩ [] [] [], 0⟩ : Board).Ok :=
  ⟨by decide, by decide, sample_inv.board, by decide, rfl,
    Gfx.Ok.reset, buildMapper_ok (by decide) (Cells.Ok.nil _) (Cells.Ok.nil _) (Cells.Ok.nil _)⟩

/-- Runs, its last clause: a JMP to its own address in plain memory. -/
theorem witness_Runs :
    let s : State := { sample with pc := 0x0010#16, ram := [(0x0010, 0x4C#8), (0x0011, 0x10#8)] }
    s.Inv ∧ s.stall = 0 ∧ s.pending = none ∧ plainAddress s.pc = true ∧ plainAddress (s.pc + 1#16) = true ∧
    plainAddress (s.pc + 2#16) = true ∧
    [s.byteAt s.pc, s.byteAt (s.pc + 1#16), s.byteAt (s.pc + 2#16)] = encode (.jmp (.absolute s.pc)) :=
  ⟨⟨⟨by decide, by decide⟩, sample_inv.board, sample_inv.loaded⟩, rfl, rfl, by decide, by decide, by decide,
    by decide⟩

/-- InterruptRequests: the positions, on both sides of each premise. -/
theorem witness_requests :
    let g : Gfx := { Gfx.reset with scanline := 241, cycle := 1, nmiEnable := true }
    let g' : Gfx := { Gfx.reset with cycle := 340 }
    g.scanline = 241 ∧ g.cycle = 1 ∧ g.nmiEnable = true ∧ g'.cycle = 340 ∧ g.cycle ≠ 340 ∧
    sample.board.mapper.header.variant ≠ .scanlineIrq := by decide

/-- RasterReturns. -/
theorem witness_RasterReturns :
    sample.board.gfx.cycle = 0 ∧ sample.board.gfx.scanline = 0 ∧
    sample.board.gfx.flags.showBackground = false ∧ sample.board.gfx.flags.showSprites = false ∧
    sample.board.gfx.nmiEnable = false ∧ sample.board.mapper.header.variant ≠ .scanlineIrq := by decide

/-- GraphicsAddressSpace and DataPortReads: the board, the ends of the palette, and VRAM addresses on both sides of
the palette range. -/
theorem witness_DataPortReads :
    sample.board.Ok ∧ (0x1F < 0x20) ∧
    ({ sample.board.gfx with vramAddr := 0x3EFF#15 } : Gfx).vramAddr.toNat % 0x4000 < 0x3F00 ∧
    0x3F00 ≤ ({ sample.board.gfx with vramAddr := 0x3F00#15 } : Gfx).vramAddr.toNat % 0x4000 :=
  ⟨sample_inv.board, by decide, by decide, by decide⟩

end Sys2Proof.Tests
end

section
/-! Bank switching (spec/20_memory.md R101, R102): what `switchPages` does to the page pointers, where the
switched window then resolves, and from both the statement about `switchBank`. -/

namespace Sys2Proof.Machine

open Sys2Proof

variable (b : BankMemory) (first pages index : Nat)

@[simp] theorem BankMemory.switchPages_data : (b.switchPages first pages index).data = b.data := rfl

@[simp] theorem BankMemory.switchPages_size : (b.switchPages first pages index).size = b.size := rfl

@[simp] theorem BankMemory.switchPages_windowSize :
    (b.switchPages first pages index).windowSize = b.windowSize := rfl

@[simp] theorem BankMemory.switchPages_pageSize :
    (b.switchPages first pages index).pageSize = b.pageSize := rfl

@[simp] theorem BankMemory.switchPages_pointers_length :
    (b.switchPages first pages index).pointers.length = b.pointers.length := by
  simp [BankMemory.switchPages]

theorem BankMemory.switchPages_switchPages :
    (b.switchPages first pages index).switchPages first pages index = b.switchPages first pages index := by
  simp only [BankMemory.switchPages, List.mapIdx_mapIdx]
  congr 2
  funext k page
  by_cases hk : first ≤ k ∧ k < first + pages <;> simp [hk]

variable {b first pages index}

theorem BankMemory.switchPages_getElem?_inside {j : Nat} (hj : j < pages)
    (hlen : first + j < b.pointers.length) :
    (b.switchPages first pages index).pointers[first + j]? = some (index * pages + j) := by
  simp [BankMemory.switchPages, List.getElem?_mapIdx, List.getElem?_eq_getElem hlen, hj]

theorem BankMemory.switchPages_getElem?_outside {j : Nat} (hj : j < first ∨ first + pages ≤ j) :
    (b.switchPages first pages index).pointers[j]? = b.pointers[j]? := by
  have hout : ¬ (first ≤ j ∧ j < first + pages) := by omega
  simp [BankMemory.switchPages, List.getElem?_mapIdx, hout]

theorem BankMemory.resolve_of_pointer {addr page : Nat} (hp : b.pointers[addr / b.pageSize]? = some page)
    (hw : addr < b.windowSize) (hs : page * b.pageSize + addr % b.pageSize < b.size) :
    b.resolve addr = some (page * b.pageSize + addr % b.pageSize) := by
  simp [BankMemory.resolve, hp, hw, hs]

/-- The switched window resolves to the bank: window and bank are both `pages` consecutive pages, so an offset
keeps its page number and its place in the page. -/
theorem BankMemory.switchPages_resolve {k : Nat} (hk : k < pages * b.pageSize)
    (hlen : first + pages ≤ b.pointers.length) (hw : (first + pages) * b.pageSize ≤ b.windowSize)
    (hs : index * (pages * b.pageSize) + k < b.size) :
    (b.switchPages first pages index).resolve (first * b.pageSize + k) =
      some (index * (pages * b.pageSize) + k) := by
  have hpos : 0 < b.pageSize := Nat.pos_of_mul_pos_left (Nat.zero_lt_of_lt hk)
  have hj : k / b.pageSize < pages := Nat.div_lt_of_lt_mul (Nat.mul_comm _ _ ▸ hk)
  have hdiv : (first * b.pageSize + k) / b.pageSize = first + k / b.pageSize := by
    rw [Nat.add_comm, Nat.add_mul_div_right _ _ hpos, Nat.add_comm]
  have hmod : (first * b.pageSize + k) % b.pageSize = k % b.pageSize := Nat.mul_add_mod_self_right ..
  have hbank : (index * pages + k / b.pageSize) * b.pageSize + k % b.pageSize =
      index * (pages * b.pageSize) + k := by
    rw [Nat.add_mul, Nat.add_assoc, Nat.div_add_mod', Nat.mul_assoc]
  have haddr : first * b.pageSize + k < b.windowSize := by
    rw [Nat.add_mul] at hw; omega
  have hptr := BankMemory.switchPages_getElem?_inside (index := index) hj
    (show first + k / b.pageSize < b.pointers.length by omega)
  have hres := BankMemory.resolve_of_pointer (b := b.switchPages first pages index) (hdiv ▸ hptr) haddr
  simp only [BankMemory.switchPages_pageSize, BankMemory.switchPages_size, hmod, hbank] at hres
  exact hres hs

theorem BankMemory.read_of_resolve {addr k : Nat} (h : b.resolve addr = some k) :
    b.read addr = .ok (Cells.read b.data k) := by
  simp [BankMemory.read, h]

/-- Page-aligned bounds of a `switchBank` are page numbers times the page size. -/
theorem BankMemory.switchBank_aligned (hpos : 0 < b.pageSize) (p0 p1 n : Nat) :
    b.switchBank (b.pageSize * p0) (b.pageSize * p1) n = b.switchPages p0 (p1 - p0) n := by
  simp [BankMemory.switchBank, Nat.mul_div_cancel_left _ hpos]

end Sys2Proof.Machine

namespace Sys2Proof

open Machine

/-- Settles O50: aligned bounds make `switchBank` a `switchPages`, and each clause is a law of that. -/
theorem switchBank : Obligations.SwitchBank := by
  rintro b _ _ n hpos ⟨p0, rfl⟩ ⟨p1, rfl⟩ hle hlen
  have hp : p0 ≤ p1 := Nat.le_of_mul_le_mul_left hle hpos
  have hp1 : p1 ≤ b.pointers.length := Nat.le_of_mul_le_mul_left (hlen.trans_eq (Nat.mul_comm ..)) hpos
  have hidem : (b.switchPages p0 (p1 - p0) n).switchBank (b.pageSize * p0) (b.pageSize * p1) n =
      b.switchPages p0 (p1 - p0) n :=
    (BankMemory.switchBank_aligned (b := b.switchPages p0 (p1 - p0) n) hpos p0 p1 n).trans
      (BankMemory.switchPages_switchPages ..)
  simp only [BankMemory.switchBank_aligned hpos, Nat.mul_div_cancel_left _ hpos]
  refine ⟨hidem, rfl, BankMemory.switchPages_pointers_length .., fun j hj => ?_, fun j hj => ?_,
    fun k hk hw hs => ?_⟩
  · exact BankMemory.switchPages_getElem?_inside hj (by omega)
  · exact BankMemory.switchPages_getElem?_outside hj
  · rw [← Nat.mul_sub, Nat.mul_comm b.pageSize] at hk hs ⊢
    rw [Nat.mul_comm b.pageSize] at hw ⊢
    exact BankMemory.read_of_resolve
      (BankMemory.switchPages_resolve hk (by omega) (by rwa [Nat.add_sub_cancel' hp]) hs)

end Sys2Proof
end

section
/-! The opcode byte alone decides (spec/30_encoding.md R140, R164, R165): which mode and descriptors a byte selects,
how many bytes it needs, and what the absent bytes decode to, fetch as and mean. -/

namespace Sys2Proof

set_option maxRecDepth 10000 in
/-- The opcode byte alone selects mode and descriptors: one evaluation over its 256 values, the operand bytes free. -/
theorem decodeBytes_mode_descriptors (opcode b1 b2 : Byte) :
    (decodeBytes opcode b1 b2).mode = (decodeBytes opcode 0#8 0#8).mode ∧
    (decodeBytes opcode b1 b2).descriptors = (decodeBytes opcode 0#8 0#8).descriptors := by
  have hall : (List.range 256).all (fun k =>
      (decodeBytes (BitVec.ofNat 8 k) b1 b2).mode == (decodeBytes (BitVec.ofNat 8 k) 0#8 0#8).mode &&
      (decodeBytes (BitVec.ofNat 8 k) b1 b2).descriptors
        == (decodeBytes (BitVec.ofNat 8 k) 0#8 0#8).descriptors) = true := by rfl
  simpa using List.all_eq_true.1 hall opcode.toNat (List.mem_range.2 opcode.isLt)

set_option maxRecDepth 10000 in
/-- A byte of the list of R164 is outside the matrix of R162. -/
theorem decodeBytes_absent {opcode : Byte} (h : absentOpcodes.contains opcode.toNat = true) (b1 b2 : Byte) :
    decodeBytes opcode b1 b2 = .absent opcode := by
  have hall : absentOpcodes.all (fun k =>
      decodeBytes (BitVec.ofNat 8 k) b1 b2 == .absent (BitVec.ofNat 8 k)) = true := by rfl
  simpa using List.all_eq_true.1 hall opcode.toNat (List.contains_iff_mem.1 h)

theorem instrLength_absent {opcode : Byte} (h : absentOpcodes.contains opcode.toNat = true) :
    instrLength opcode = 1 := by
  rw [instrLength, decodeBytes_absent h]
  rfl

theorem decode_ok_iff (opcode : Byte) (rest : List Byte) :
    (∃ p, decode (opcode :: rest) = .ok p) ↔ instrLength opcode ≤ rest.length + 1 := by
  rcases instrLength_cases opcode with h | h | h
  · simp [decode_one h, h]
  · cases rest with
    | nil => simp [decode, h]
    | cons b1 rest => simp [decode_two h, h]
  · match rest with
    | [] => simp [decode, h]
    | [b1] => simp [decode, h]
    | b1 :: b2 :: rest => simp [decode_three h, h]

namespace Machine

theorem exec_absent (opcode : Byte) (s : State) :
    exec (.absent opcode) s = .fault (.absentOpcode opcode s.pc) := rfl

/-- The fetch of a one-byte instruction reads its opcode byte and nothing more. -/
theorem fetchInstr_one {s t : State} {opcode : Byte} (hread : memRead s.pc s = .ok (opcode, t))
    (h : instrLength opcode = 1) : fetchInstr s = .ok (decodeBytes opcode 0#8 0#8, t) := by
  rw [fetchInstr, Access.bind_get, Access.bind_of_ok hread, h]
  rfl

theorem fetchInstr_absent {s t : State} {opcode : Byte} (hread : memRead s.pc s = .ok (opcode, t))
    (h : absentOpcodes.contains opcode.toNat = true) : fetchInstr s = .ok (.absent opcode, t) := by
  rw [fetchInstr_one hread (instrLength_absent h), decodeBytes_absent h]

end Machine

open Machine

/-- Settles O11: the fetch gives the absent instruction in a state with the same PC, and its meaning is the fault. -/
theorem absentOpcodeFaults : Obligations.AbsentOpcodeFaults := by
  refine ⟨exec_absent, fun s t opcode hread h => ?_⟩
  obtain ⟨b, -, rfl⟩ := (memRead_readsTo hread).shape
  rw [instructionTick, fetchInstr_absent hread h]
  exact exec_absent opcode _

/-- Settles O12: each clause is a lemma about what the opcode byte decides. -/
theorem opcodeDecidesLength : Obligations.OpcodeDecidesLength := by
  intro opcode b1 b2
  obtain ⟨hmode, hrows⟩ := decodeBytes_mode_descriptors opcode b1 b2
  have hlen : 1 ≤ instrLength opcode ∧ instrLength opcode ≤ 3 := by
    have := instrLength_cases opcode
    omega
  exact ⟨decodeBytes_size opcode b1 b2, hlen.1, hlen.2, hmode, hrows, decode_ok_iff opcode⟩

end Sys2Proof
end

section
/-! Register transfers (spec/41_transfer_stack.md R211 to R215). -/

namespace Sys2Proof

open Machine

/-- What a one-byte instruction of `base` cycles does besides its own effect (spec/60_exceptions.md R313, R316). -/
theorem Machine.State.past_eq (s : State) (base : Nat) :
    s.past base = { s with pc := s.pc + 1#16, cycles := s.cycles + base, extra := false } := rfl

/-- Settles O27: each transfer is its `exec` rule, with the frame `past 2` and the flags of `setZN` written out. -/
theorem transfers : Obligations.Transfers := by
  refine ⟨rfl, rfl, rfl, rfl, rfl, fun s => ?_⟩
  simp only [exec_tax, exec_tay, exec_txa, exec_tya, exec_tsx, State.past_eq, State.setZN, and_self]

end Sys2Proof
end

section
/-! An operation's rows (spec/30_encoding.md R141, R163): its descriptors decide both in which modes it is well
formed and with which opcode byte it is encoded. -/

namespace Sys2Proof

theorem Instr.wf_of_mode {i : Instr} {mode : Mode} (hp : i.present = true) (hm : i.mode = some mode) :
    i.wf = i.modes.contains mode := by
  cases i
  case absent => cases hp
  all_goals
    cases hm
    rfl

theorem encode_of_descriptor {i : Instr} {row : Descriptor} (hp : i.present = true)
    (hd : i.descriptor? = some row) : encode i = BitVec.ofNat 8 row.opcode :: i.operandBytes := by
  unfold encode
  split
  · cases hp
  · rw [hd]

/-- An operation whose mode and operand bytes are its operand's, and whose descriptors are `rows` with one row for
each of its modes. -/
structure Instr.TakesRows (operation : Operand → Instr) (rows : List Descriptor) : Prop where
  present     : ∀ m, (operation m).present = true
  mode        : ∀ m, (operation m).mode = some m.mode
  modes       : ∀ m, (operation m).modes = rows.map Descriptor.mode
  descriptors : ∀ m, (operation m).descriptors = rows
  bytes       : ∀ m, (operation m).operandBytes = m.bytes
  nodup       : (rows.map Descriptor.mode).Nodup

theorem Instr.TakesRows.descriptor {operation : Operand → Instr} {rows : List Descriptor}
    (h : Instr.TakesRows operation rows) {m : Operand} {row : Descriptor} (hrow : row ∈ rows)
    (hm : row.mode = m.mode) : (operation m).descriptor? = some row := by
  have hfind : rows.find? (fun r => r.mode == m.mode) = some row := by
    obtain ⟨r, hr⟩ := Option.isSome_iff_exists.1
      (List.find?_isSome (p := fun r => r.mode == m.mode).2 ⟨row, hrow, by simp [hm]⟩)
    have hmode : r.mode = row.mode := by simpa [hm] using List.find?_some hr
    rw [hr, List.inj_on_of_nodup_map h.nodup (List.mem_of_find?_eq_some hr) hrow hmode]
  simp only [Instr.descriptor?, h.mode, h.descriptors, Option.bind_some, hfind]

/-- Such an operation encodes its descriptors. -/
theorem Instr.TakesRows.encodes {operation : Operand → Instr} {rows : List Descriptor}
    (h : Instr.TakesRows operation rows) :
    Machine.Encodes operation (rows.map fun row => (row.mode, BitVec.ofNat 8 row.opcode)) := by
  refine fun m => ⟨?_, fun opcode hmem => ?_⟩
  · rw [Instr.wf_of_mode (h.present m) (h.mode m), h.modes, List.contains_iff_mem, List.map_map]
    rfl
  · obtain ⟨row, hrow, hpair⟩ := List.mem_map.1 hmem
    obtain ⟨hmode, rfl⟩ := Prod.mk.inj hpair
    rw [encode_of_descriptor (h.present m) (h.descriptor hrow hmode), h.bytes]

end Sys2Proof
end

section
/-! Addition, increment and decrement (spec/42_arithmetic.md R231, R232, R238 to R243). -/

namespace Sys2Proof.Machine

open Sys2Proof

variable {instr : Instr} {m : Operand} {s t : State} {u : Byte} {addr : Word}

/-! ### The operand read keeps the accumulator and the carry -/

theorem ReadsOperand.a_eq (h : ReadsOperand instr m s u t) : t.a = s.a := by
  obtain ⟨row, extra, board, -, -, rfl⟩ := h.shape
  rfl

theorem ReadsOperand.c_eq (h : ReadsOperand instr m s u t) : t.c = s.c := by
  obtain ⟨row, extra, board, -, -, rfl⟩ := h.shape
  rfl

/-! ### The decimal flag decides nothing in an operand read -/

theorem memRead_setD (h : memRead addr s = .ok (u, t)) (d : Bool) :
    memRead addr { s with d := d } = .ok (u, { t with d := d }) := by
  unfold memRead at h ⊢
  split at h
  · rename_i ha
    cases h
    exact if_pos ha
  · rename_i ha
    split at h <;> cases h
    rename_i board hb
    rw [if_neg ha, hb]

theorem memRead16Bug_setD {w : Word} (h : memRead16Bug addr s = .ok (w, t)) (d : Bool) :
    memRead16Bug addr { s with d := d } = .ok (w, { t with d := d }) := by
  obtain ⟨lo, t', hlo, h⟩ := Access.bind_ok_iff.1 h
  obtain ⟨hi, t'', hhi, h⟩ := Access.bind_ok_iff.1 h
  cases h
  rw [memRead16Bug, Access.bind_of_ok (memRead_setD hlo d), Access.bind_of_ok (memRead_setD hhi d)]
  rfl

theorem resolve_setD (h : resolve m s = .ok (addr, t)) (d : Bool) :
    resolve m { s with d := d } = .ok (addr, { t with d := d }) := by
  rw [resolve, Access.bind_modify, Access.bind_get] at h ⊢
  cases m
  case indirect | indexedIndirectX => exact memRead16Bug_setD h d
  case indirectIndexedY =>
    obtain ⟨base, t', hbase, h⟩ := Access.bind_ok_iff.1 h
    cases h
    exact Access.bind_of_ok (memRead16Bug_setD hbase d)
  all_goals
    cases h
    rfl

theorem readOperand_setD (h : readOperand m addr s = .ok (u, t)) (d : Bool) :
    readOperand m addr { s with d := d } = .ok (u, { t with d := d }) := by
  cases m
  case accumulator | immediate =>
    cases h
    rfl
  all_goals exact memRead_setD h d

theorem ReadsOperand.setD (h : ReadsOperand instr m s u t) (d : Bool) :
    ReadsOperand instr m { s with d := d } u { t with d := d } := by
  obtain ⟨addr, r, row, hr, hrow, hu⟩ := h
  exact ⟨addr, { r with d := d }, row, resolve_setD hr d, hrow, readOperand_setD hu d⟩

/-! ### A byte read, changed and written back -/

/-- Under the invariant a handler that modifies memory gets its byte and stores the new one (20_memory R78). -/
theorem modifies_ok (hs : s.Inv) (hw : instr.wf = true) (hp : instr.present = true) (f : Byte → Byte) :
    ∃ addr h u h' t, ReachesHandler instr m s addr h ∧ memRead addr h = .ok (u, h') ∧
      memWrite addr (f u) h' = .ok ((), t) := by
  obtain ⟨addr, h, hh⟩ := reachesHandler_ok (m := m) hs hw hp
  have hinv := hh.inv hs
  obtain ⟨u, h', hu⟩ := memRead_ok hinv addr
  obtain ⟨t, ht, -⟩ := memWrite_ok ((memRead_readsTo hu).inv hinv) addr (f u)
  exact ⟨addr, h, u, h', t, hh, hu, ht⟩

end Sys2Proof.Machine

namespace Sys2Proof.Arithmetic

open Machine

/-- Settles O29: after the operand read A and C are still those of `s`, and `exec_adc` adds with them. -/
theorem addWithCarry : Obligations.AddWithCarry := by
  have hrows : Instr.TakesRows .adc (Instr.adc .accumulator).descriptors :=
    ⟨fun _ => rfl, fun _ => rfl, fun _ => rfl, fun _ => rfl, fun _ => rfl, by decide⟩
  refine ⟨hrows.encodes, fun m s hs hw => ?_⟩
  obtain ⟨u, t, ht⟩ := readsOperand_ok hs hw rfl
  refine ⟨u, t, ht, ?_⟩
  rw [exec_adc ht, ht.a_eq, ht.c_eq]
  rfl

/-- Settles O30: the operand read is the same under either D, and neither handler looks at D afterwards. -/
theorem decimalIgnored : Obligations.DecimalIgnored := by
  refine fun m s d hs => ⟨fun hw => ?_, fun hw => ?_⟩
  · obtain ⟨u, t, ht⟩ := readsOperand_ok hs hw rfl
    exact ⟨_, exec_adc ht, exec_adc (ht.setD d)⟩
  · obtain ⟨u, t, ht⟩ := readsOperand_ok hs hw rfl
    exact ⟨_, exec_sbc ht, exec_sbc (ht.setD d)⟩

/-- Settles O33: each is its `exec` rule, with the read and the write that the invariant guarantees. -/
theorem incrementDecrementMemory : Obligations.IncrementDecrementMemory := by
  have hinc : Instr.TakesRows .inc (Instr.inc .accumulator).descriptors :=
    ⟨fun _ => rfl, fun _ => rfl, fun _ => rfl, fun _ => rfl, fun _ => rfl, by decide⟩
  have hdec : Instr.TakesRows .dec (Instr.dec .accumulator).descriptors :=
    ⟨fun _ => rfl, fun _ => rfl, fun _ => rfl, fun _ => rfl, fun _ => rfl, by decide⟩
  refine ⟨hinc.encodes, hdec.encodes, fun m s hs => ⟨fun hw => ?_, fun hw => ?_⟩⟩
  · obtain ⟨addr, h, u, h', t, hh, hu, ht⟩ := modifies_ok hs hw rfl (· + 1#8)
    exact ⟨addr, h, u, h', t, hh, hu, ht, exec_inc hh hu ht⟩
  · obtain ⟨addr, h, u, h', t, hh, hu, ht⟩ := modifies_ok hs hw rfl (· - 1#8)
    exact ⟨addr, h, u, h', t, hh, hu, ht, exec_dec hh hu ht⟩

/-- Settles O34: each is its `exec` rule, with the frame `past 2` and the flags of `setZN` written out. -/
theorem incrementDecrementIndex : Obligations.IncrementDecrementIndex := by
  refine ⟨rfl, rfl, rfl, rfl, fun s => ?_⟩
  simp only [exec_inx, exec_iny, exec_dex, exec_dey, State.past_eq, State.setZN, and_self]

end Sys2Proof.Arithmetic
end

section
/-! Logic, bit test, shifts and rotates (spec/43_logic_shift.md R251 to R258). -/

namespace Sys2Proof.Machine

open Sys2Proof

variable {instr : Instr} {m : Operand} {s t : State} {u : Byte} {addr : Word}

/-! ### The rows of the family -/

theorem logic_takesRows :
    Instr.TakesRows .and (Instr.and .accumulator).descriptors ∧
    Instr.TakesRows .ora (Instr.ora .accumulator).descriptors ∧
    Instr.TakesRows .eor (Instr.eor .accumulator).descriptors ∧
    Instr.TakesRows .bit (Instr.bit .accumulator).descriptors := by
  refine ⟨?_, ?_, ?_, ?_⟩ <;>
    exact ⟨fun _ => rfl, fun _ => rfl, fun _ => rfl, fun _ => rfl, fun _ => rfl, by decide⟩

theorem shift_takesRows :
    Instr.TakesRows .asl (Instr.asl .accumulator).descriptors ∧
    Instr.TakesRows .lsr (Instr.lsr .accumulator).descriptors ∧
    Instr.TakesRows .rol (Instr.rol .accumulator).descriptors ∧
    Instr.TakesRows .ror (Instr.ror .accumulator).descriptors := by
  refine ⟨?_, ?_, ?_, ?_⟩ <;>
    exact ⟨fun _ => rfl, fun _ => rfl, fun _ => rfl, fun _ => rfl, fun _ => rfl, by decide⟩

/-! ### The results bit by bit -/

theorem rotateLeft_eq (u : Byte) (c : Bool) :
    rotateLeft u c = (u.extractLsb' 0 7 ++ BitVec.ofBool c, u.getLsbD 7) := by
  refine Prod.ext (BitVec.eq_of_getLsbD_eq fun k hk => ?_) rfl
  rw [BitVec.getLsbD_append (x := u.extractLsb' 0 7) (y := BitVec.ofBool c)]
  cases k with
  | zero => simp [rotateLeft]
  | succ k =>
    have hk7 : k < 7 := by omega
    simp [rotateLeft, hk, hk7, -BitVec.getLsbD_eq_getElem]

theorem rotateRight_eq (u : Byte) (c : Bool) :
    rotateRight u c = (BitVec.ofBool c ++ u.extractLsb' 1 7, u.getLsbD 0) := by
  refine Prod.ext (BitVec.eq_of_getLsbD_eq fun k hk => ?_) rfl
  rw [BitVec.getLsbD_append (x := BitVec.ofBool c) (y := u.extractLsb' 1 7)]
  by_cases hk7 : k < 7
  · simp [rotateRight, hk7, Nat.add_comm]
  · obtain rfl : k = 7 := by omega
    simp [rotateRight]

theorem shiftLeft_eq_rotateLeft (u : Byte) (c : Bool) : shiftLeft u c = rotateLeft u false := by
  simp [shiftLeft, rotateLeft]

theorem shiftRight_eq_rotateRight (u : Byte) (c : Bool) : shiftRight u c = rotateRight u false := by
  simp [shiftRight, rotateRight]

/-- N after a right shift or rotate is the bit that entered at the top. -/
theorem State.setZN_ofBool_append (t : State) (c : Bool) (u : BitVec 7) :
    t.setZN (BitVec.ofBool c ++ u) = { t with z := (BitVec.ofBool c ++ u : Byte) == 0#8, n := c } := by
  have hmsb : (BitVec.ofBool c ++ u : Byte).msb = c := BitVec.msb_append.trans (by simp)
  rw [State.setZN, hmsb]

/-! ### The byte of memory that a shift reads and writes back -/

theorem readOperand_memory (ha : m ≠ .accumulator) (hi : ∀ v, m ≠ .immediate v) (addr : Word) :
    readOperand m addr = memRead addr := by
  cases m
  case accumulator => exact absurd rfl ha
  case immediate v => exact absurd rfl (hi v)
  all_goals rfl

theorem memoryOperand_of_ne (ha : m ≠ .accumulator) : memoryOperand m = true := by
  cases m
  case accumulator => exact absurd rfl ha
  all_goals rfl

theorem ReachesHandler.readsOperand {t' : State} (h : ReachesHandler instr m s addr t)
    (hu : readOperand m addr t = .ok (u, t')) : ReadsOperand instr m s u t' := by
  obtain ⟨r, row, hr, hrow, rfl⟩ := h
  exact ⟨addr, r, row, hr, hrow, hu⟩

/-- Under the invariant a shift of memory reads the byte once, sets the carry and writes the result once. -/
theorem shiftHandler_memory_ok (hs : s.Inv) (hw : instr.wf = true) (hp : instr.present = true)
    (ha : m ≠ .accumulator) (hi : ∀ v, m ≠ .immediate v) (f : Byte → Bool → Byte × Bool) :
    ∃ addr h u h' t, ReachesHandler instr m s addr h ∧ memRead addr h = .ok (u, h') ∧
      memWrite addr (f u s.c).1 { h' with c := (f u s.c).2 } = .ok ((), t) ∧
      (shiftHandler instr m f).outcome s = .next (t.setZN (f u s.c).1) := by
  obtain ⟨addr, h, hh⟩ := reachesHandler_ok (m := m) hs hw hp
  obtain ⟨u, h', hu⟩ := memRead_ok (hh.inv hs) addr
  have hread : readOperand m addr h = .ok (u, h') := by rw [readOperand_memory ha hi, hu]
  have hh' := hh.readsOperand hread
  have hinv := hh'.inv hs
  obtain ⟨t, ht, -⟩ := memWrite_ok (s := { h' with c := (f u s.c).2 }) ⟨hinv.ram, hinv.board, hinv.loaded⟩
    addr (f u s.c).1
  refine ⟨addr, h, u, h', t, hh, hu, ht, Access.outcome_of_ok ?_⟩
  rw [← hh'.c_eq] at ht ⊢
  exact shiftHandler_memory (memoryOperand_of_ne ha) hh f hread ht

end Sys2Proof.Machine

namespace Sys2Proof

open Machine

/-- Settles O36: after the operand read A is still that of `s`, and each is its `exec` rule. -/
theorem logicalOperations : Obligations.LogicalOperations := by
  obtain ⟨hand, hora, heor, -⟩ := logic_takesRows
  refine ⟨hand.encodes, hora.encodes, heor.encodes, fun m s hs => ⟨fun hw => ?_, fun hw => ?_, fun hw => ?_⟩⟩
  · obtain ⟨u, t, ht⟩ := readsOperand_ok hs hw rfl
    exact ⟨u, t, ht, by rw [exec_and ht, ht.a_eq]; rfl⟩
  · obtain ⟨u, t, ht⟩ := readsOperand_ok hs hw rfl
    exact ⟨u, t, ht, by rw [exec_ora ht, ht.a_eq]; rfl⟩
  · obtain ⟨u, t, ht⟩ := readsOperand_ok hs hw rfl
    exact ⟨u, t, ht, by rw [exec_eor ht, ht.a_eq]; rfl⟩

/-- Settles O37: after the operand read A is still that of `s`, and `exec_bit` tests it. -/
theorem bitTest : Obligations.BitTest := by
  obtain ⟨-, -, -, hbit⟩ := logic_takesRows
  refine ⟨hbit.encodes, fun m s hs hw => ?_⟩
  obtain ⟨u, t, ht⟩ := readsOperand_ok hs hw rfl
  exact ⟨u, t, ht, by rw [exec_bit ht, ← ht.a_eq]; rfl⟩

/-- Settles O38: each form is its handler's rule with the result in the bit by bit form of its `_eq` lemma. -/
theorem shiftsAndRotates : Obligations.ShiftsAndRotates := by
  obtain ⟨hasl, hlsr, hrol, hror⟩ := shift_takesRows
  refine ⟨hasl.encodes, hlsr.encodes, hrol.encodes, hror.encodes,
    fun s => ⟨_, _, _, _, rfl, rfl, rfl, rfl, ?_, ?_, ?_, ?_⟩,
    fun m s hs ha => ⟨fun hw => ?_, fun hw => ?_, fun hw => ?_, fun hw => ?_⟩⟩
  · rw [exec_asl_accumulator, shiftLeft_eq_rotateLeft, rotateLeft_eq]
    rfl
  · rw [exec_lsr_accumulator, shiftRight_eq_rotateRight, rotateRight_eq, State.setZN_ofBool_append]
    rfl
  · rw [exec_rol_accumulator, rotateLeft_eq]
    rfl
  · rw [exec_ror_accumulator, rotateRight_eq, State.setZN_ofBool_append]
    rfl
  · obtain ⟨addr, h, u, h', t, hh, hu, ht, hx⟩ :=
      shiftHandler_memory_ok hs hw rfl ha (by rintro v rfl; cases hw) shiftLeft
    rw [shiftLeft_eq_rotateLeft, rotateLeft_eq] at ht hx
    exact ⟨addr, h, u, h', t, _, hh, hu, rfl, ht, hx⟩
  · obtain ⟨addr, h, u, h', t, hh, hu, ht, hx⟩ :=
      shiftHandler_memory_ok hs hw rfl ha (by rintro v rfl; cases hw) shiftRight
    simp only [shiftRight_eq_rotateRight, rotateRight_eq, State.setZN_ofBool_append] at ht hx
    exact ⟨addr, h, u, h', t, _, hh, hu, rfl, ht, hx⟩
  · obtain ⟨addr, h, u, h', t, hh, hu, ht, hx⟩ :=
      shiftHandler_memory_ok hs hw rfl ha (by rintro v rfl; cases hw) rotateLeft
    rw [rotateLeft_eq] at ht hx
    exact ⟨addr, h, u, h', t, _, hh, hu, rfl, ht, hx⟩
  · obtain ⟨addr, h, u, h', t, hh, hu, ht, hx⟩ :=
      shiftHandler_memory_ok hs hw rfl ha (by rintro v rfl; cases hw) rotateRight
    simp only [rotateRight_eq, State.setZN_ofBool_append] at ht hx
    exact ⟨addr, h, u, h', t, _, hh, hu, rfl, ht, hx⟩

end Sys2Proof
end

section
/-! Jumps (spec/44_control.md R271, R272). -/

namespace Sys2Proof.Machine

open Sys2Proof

theorem jmp_takesRows : Instr.TakesRows .jmp [⟨.absolute, 0x4C, 3⟩, ⟨.indirect, 0x6C, 5⟩] :=
  ⟨fun _ => rfl, fun _ => rfl, fun _ => rfl, fun _ => rfl, fun _ => rfl, by decide⟩

/-- The page wrap of the pointer's high byte in the masks of R272: the addition carries within the low byte only. -/
theorem nextInPage_eq_masks (ptr : Word) :
    nextInPage ptr = (ptr &&& 0xFF00#16) ||| ((ptr + 1#16) &&& 0x00FF#16) := by
  have hlow : lowByte ptr + 1#8 = (ptr + 1#16).setWidth 8 := by
    rw [BitVec.setWidth_add _ _ (by decide), lowByte, ← BitVec.setWidth_eq_extractLsb' (by decide)]
    rfl
  have hmaskHigh : ∀ k < 16, (0xFF00#16).getLsbD k = decide (8 ≤ k) := by decide
  have hmaskLow : ∀ k < 16, (0x00FF#16).getLsbD k = decide (k < 8) := by decide
  rw [nextInPage, hlow, wordOf, highByte]
  refine BitVec.eq_of_getLsbD_eq fun k hk => ?_
  rw [BitVec.getLsbD_append, BitVec.getLsbD_or, BitVec.getLsbD_and, BitVec.getLsbD_and, hmaskHigh k hk,
    hmaskLow k hk, BitVec.getLsbD_setWidth, BitVec.getLsbD_extractLsb']
  by_cases hk8 : k < 8
  · simp [hk8]
  · have hsub : k - 8 < 8 := by omega
    have hadd : 8 + (k - 8) = k := by omega
    simp [hk8, hsub, hadd, Nat.le_of_not_lt hk8]

theorem State.ReadsTo.cycles_eq {s t : State} (h : s.ReadsTo t) : t.cycles = s.cycles := by
  obtain ⟨board, -, rfl⟩ := h.shape
  rfl

/-- An indirect operand resolves to the two bytes read at the pointer and at the next address in its page. -/
theorem resolve_indirect {ptr : Word} {lo hi : Byte} {s h h' : State}
    (hlo : memRead ptr { s with extra := false } = .ok (lo, h))
    (hhi : memRead (nextInPage ptr) h = .ok (hi, h')) :
    resolve (.indirect ptr) s = .ok (hi ++ lo, h') := by
  rw [resolve, Access.bind_modify, Access.bind_get]
  dsimp only
  rw [memRead16Bug, Access.bind_of_ok hlo, Access.bind_of_ok hhi]
  rfl

end Sys2Proof.Machine

namespace Sys2Proof

open Machine

/-- Settles O39: `exec_jmp` at the resolved target; under the invariant both reads of an indirect pointer answer
and leave the cycle count. -/
theorem jumps : Obligations.Jumps := by
  refine ⟨jmp_takesRows.encodes, fun w s => ?absolute, fun ptr s hs => ?indirect⟩
  case absolute =>
    have hreach : ReachesHandler (.jmp (.absolute w)) (.absolute w) s w
        (({ s with extra := false } : State).advance 3 3) :=
      ⟨_, ⟨.absolute, 0x4C, 3⟩, rfl, rfl, rfl⟩
    exact exec_jmp hreach
  case indirect =>
    have hcleared : ({ s with extra := false } : State).Inv := ⟨hs.ram, hs.board, hs.loaded⟩
    obtain ⟨lo, hi, h, h', hlo, hhi, hreads⟩ := memRead_pair_ok hcleared ptr (nextInPage ptr)
    have hreach : ReachesHandler (.jmp (.indirect ptr)) (.indirect ptr) s (hi ++ lo) (h'.advance 3 5) :=
      ⟨h', ⟨.indirect, 0x6C, 5⟩, resolve_indirect hlo hhi, rfl, rfl⟩
    have hcycles : h'.cycles = s.cycles := hreads.cycles_eq
    refine ⟨lo, hi, h, h', hlo, nextInPage_eq_masks ptr ▸ hhi, ?_⟩
    rw [exec_jmp hreach, ← hcycles]
    rfl

end Sys2Proof
end

section
/-! Carry and overflow flag instructions (spec/45_flags_system.md R291, R292, R295). -/

namespace Sys2Proof

open Machine

/-- Settles O43: each is its `exec` rule, one flag set over the frame `past 2`. -/
theorem carryAndOverflowInstructions : Obligations.CarryAndOverflowInstructions := by
  refine ⟨rfl, rfl, rfl, fun s => ?_⟩
  simp only [exec_clc, exec_sec, exec_clv, State.past_eq, and_self]

end Sys2Proof
end

section
/-! How far PC moves (spec/60_exceptions.md R316): each handler shape leaves PC at the size added by the frame, and
so does a branch that is not taken. -/

namespace Sys2Proof

theorem Operand.mode_ne_relative (m : Operand) : m.mode ≠ .relative := by
  cases m <;> exact Mode.noConfusion

end Sys2Proof

namespace Sys2Proof.Machine

open Sys2Proof

variable {i : Instr} {m : Operand} {s t : State} {u : Byte} {addr : Word}

/-- The outcome is a next state whose PC is that of `s` plus the size of `i`. -/
def AdvancesPc (i : Instr) (s : State) (outcome : Host.Outcome State Fault Refusal) : Prop :=
  ∃ t, outcome = .next t ∧ t.pc = s.pc + BitVec.ofNat 16 i.size

/-! ### PC across a read, a write and the frame -/

theorem State.ReadsTo.pc_eq (h : s.ReadsTo t) : t.pc = s.pc := by
  obtain ⟨board, -, rfl⟩ := h.shape
  rfl

theorem State.WritesTo.pc_eq (h : s.WritesTo t) : t.pc = s.pc := by
  obtain ⟨ram, board, stall, rfl⟩ := h.shape
  rfl

theorem ReadsOperand.pc_eq (h : ReadsOperand i m s u t) : t.pc = s.pc + BitVec.ofNat 16 i.size := by
  obtain ⟨row, extra, board, -, -, rfl⟩ := h.shape
  rfl

theorem ReachesHandler.pc_eq (h : ReachesHandler i m s addr t) : t.pc = s.pc + BitVec.ofNat 16 i.size := by
  obtain ⟨row, extra, board, -, -, rfl⟩ := h.shape
  rfl

/-! ### The handler shapes -/

section
variable (hs : s.Inv) (hw : i.wf = true) (hp : i.present = true)
include hs hw hp

theorem readHandler_advancesPc {use : Byte → State → State} (huse : ∀ u t, (use u t).pc = t.pc) :
    AdvancesPc i s ((readHandler i m use).outcome s) := by
  obtain ⟨u, t, ht⟩ := readsOperand_ok (m := m) hs hw hp
  exact ⟨_, Access.outcome_of_ok (readHandler_apply ht use), (huse u t).trans ht.pc_eq⟩

theorem readCrossHandler_advancesPc {use : Byte → State → State} (huse : ∀ u t, (use u t).pc = t.pc) :
    AdvancesPc i s ((readCrossHandler i m use).outcome s) := by
  obtain ⟨u, t, ht⟩ := readsOperand_ok (m := m) hs hw hp
  exact ⟨_, Access.outcome_of_ok (readCrossHandler_apply ht use), (huse u t).trans ht.pc_eq⟩

theorem storeHandler_advancesPc (value : State → Byte) :
    AdvancesPc i s ((storeHandler i m value).outcome s) := by
  obtain ⟨addr, t, ht⟩ := reachesHandler_ok (m := m) hs hw hp
  obtain ⟨t', hwrite, -⟩ := memWrite_ok (ht.inv hs) addr (value t)
  exact ⟨t', Access.outcome_of_ok (storeHandler_apply ht value hwrite),
    (memWrite_writesTo hwrite).pc_eq.trans ht.pc_eq⟩

theorem modifyHandler_advancesPc (f : Byte → Byte) :
    AdvancesPc i s ((modifyHandler i m f).outcome s) := by
  obtain ⟨addr, t, u, t₁, t₂, ht, hread, hwrite⟩ := modifies_ok (m := m) hs hw hp f
  exact ⟨_, Access.outcome_of_ok (modifyHandler_apply ht f hread hwrite),
    ((memWrite_writesTo hwrite).pc_eq.trans (memRead_readsTo hread).pc_eq).trans ht.pc_eq⟩

theorem shiftHandler_advancesPc (hi : ∀ v, m ≠ .immediate v) (f : Byte → Bool → Byte × Bool) :
    AdvancesPc i s ((shiftHandler i m f).outcome s) := by
  by_cases ha : m = .accumulator
  · subst ha
    obtain ⟨row, hrow⟩ := Instr.descriptor_of_wf hw hp
    exact ⟨_, Access.outcome_of_ok (shiftHandler_accumulator hrow f s), rfl⟩
  · obtain ⟨addr, t, u, t₁, t₂, ht, hread, hwrite, hnext⟩ := shiftHandler_memory_ok hs hw hp ha hi f
    exact ⟨_, hnext, ((memWrite_writesTo hwrite).pc_eq.trans (memRead_readsTo hread).pc_eq).trans ht.pc_eq⟩

end

/-! ### The instructions -/

/-- An instruction that is not a control-flow opcode: its handler changes PC in the frame only. -/
theorem exec_advancesPc_of_not_writesPc (hs : s.Inv) (hw : i.wf = true) (hp : i.present = true)
    (hpc : writesPc i = false) :
    AdvancesPc i s (exec i s) := by
  cases i
  case lda | ldx | ldy | adc | sbc | cmp | and | ora | eor =>
    exact readCrossHandler_advancesPc hs hw hp fun _ _ => rfl
  case cpx | cpy | bit => exact readHandler_advancesPc hs hw hp fun _ _ => rfl
  case sbcAlias =>
    obtain ⟨u, t, ht⟩ := readsOperand_ok hs hw hp
    exact ⟨_, exec_sbcAlias ht, ht.pc_eq⟩
  case sta | stx | sty => exact storeHandler_advancesPc hs hw hp _
  case inc | dec => exact modifyHandler_advancesPc hs hw hp _
  case asl | lsr | rol | ror => exact shiftHandler_advancesPc hs hw hp (by rintro v rfl; cases hw) _
  case pha => exact ⟨_, exec_pha s, rfl⟩
  case php => exact ⟨_, exec_php s, rfl⟩
  case pla => exact ⟨_, exec_pla s, rfl⟩
  case plp => exact ⟨_, exec_plp s, rfl⟩
  case jmp | jsr | rts | rti | brk | bcc | bcs | beq | bmi | bne | bpl | bvc | bvs => cases hpc
  case absent => cases hp
  -- What is left has no operand and no bus access, so its meaning computes to the frame `past` and one update.
  all_goals exact ⟨_, rfl, rfl⟩

/-- The instructions of mode relative are the branches: two bytes, and `afterBranch` on their own condition. -/
theorem exec_of_relative (hm : i.mode = some .relative) (s : State) :
    i.size = 2 ∧ ∃ d, exec i s = .next (s.afterBranch d (branchTaken i s)) := by
  cases i
  case bcc d => exact ⟨rfl, d, exec_bcc d s⟩
  case bcs d => exact ⟨rfl, d, exec_bcs d s⟩
  case beq d => exact ⟨rfl, d, exec_beq d s⟩
  case bmi d => exact ⟨rfl, d, exec_bmi d s⟩
  case bne d => exact ⟨rfl, d, exec_bne d s⟩
  case bpl d => exact ⟨rfl, d, exec_bpl d s⟩
  case bvc d => exact ⟨rfl, d, exec_bvc d s⟩
  case bvs d => exact ⟨rfl, d, exec_bvs d s⟩
  case lda m | ldx m | ldy m | sta m | stx m | sty m | adc m | sbc m | cmp m | cpx m | cpy m | inc m
    | dec m | and m | ora m | eor m | bit m | asl m | lsr m | rol m | ror m | jmp m =>
    exact absurd (Option.some.inj hm) (Operand.mode_ne_relative m)
  all_goals cases hm

theorem exec_advancesPc_of_not_taken (hm : i.mode = some .relative) (ht : branchTaken i s = false) :
    AdvancesPc i s (exec i s) := by
  obtain ⟨hsize, d, hexec⟩ := exec_of_relative hm s
  rw [ht] at hexec
  exact ⟨_, hexec, by rw [hsize]; rfl⟩

end Sys2Proof.Machine

namespace Sys2Proof

open Machine

/-- Settles O18: off the control-flow opcodes by the handler's shape, on a branch not taken by its `exec` rule. -/
theorem programCounterAdvance : Obligations.ProgramCounterAdvance := by
  intro i s hs hw hp hcase
  have hadv : AdvancesPc i s (exec i s) := by
    rcases hcase with hpc | ⟨hm, ht⟩
    · exact exec_advancesPc_of_not_writesPc hs hw hp hpc
    · exact exec_advancesPc_of_not_taken hm ht
  obtain ⟨t, hnext, hpc⟩ := hadv
  exact ⟨t, hnext, by rw [hpc, add_sub_cancel_left]⟩

end Sys2Proof
end

section
/-! The three forms of a tick (spec/60_exceptions.md R310, R311). -/

namespace Sys2Proof

namespace Machine

variable {s : State} {policy : MaskedIrqPolicy}

theorem tickUnder_of_stall (h : 0 < s.stall) : tickUnder policy s = .next s.stallTick := if_pos h

theorem tickUnder_of_due {k : Interrupt} (h : s.stall = 0) (hk : dueInterrupt policy s = some k) :
    tickUnder policy s = (interruptTick k).outcome s := by
  rw [tickUnder, if_neg (Nat.not_lt.2 h.le), hk]

theorem tickUnder_of_none_due (h : s.stall = 0) (hk : dueInterrupt policy s = none) :
    tickUnder policy s = instructionTick s := by
  rw [tickUnder, if_neg (Nat.not_lt.2 h.le), hk]

/-- Under the policy taken every pending request is due, a masked IRQ too (60_exceptions R322; log 5). -/
theorem dueInterrupt_maskedIrqPolicy (s : State) : dueInterrupt Config.maskedIrqPolicy s = s.pending := by
  unfold dueInterrupt Config.maskedIrqPolicy
  cases s.pending <;> rfl

end Machine

open Machine

/-- Settles O14: each form is the rule of its case, and what is due is what is pending. -/
theorem tickOrder : Obligations.TickOrder := fun s =>
  ⟨tickUnder_of_stall,
    fun h _ hk => tickUnder_of_due h ((dueInterrupt_maskedIrqPolicy s).trans hk),
    fun h hk => tickUnder_of_none_due h ((dueInterrupt_maskedIrqPolicy s).trans hk)⟩

end Sys2Proof
end

section
/-! What an instruction does to the whole machine (spec/10_state.md R30 to R40, spec/60_exceptions.md R313): the frame
leaves everything but PC, the cycle count, the latch and what bus reads may change; after it an instruction computes
on registers, pushes, or stores to its operand. -/

namespace Sys2Proof.Machine

open Sys2Proof

variable {i : Instr} {m : Operand} {s h t : State} {u : Byte} {addr : Word}

/-- The state after the frame of `i`: PC advanced, the base cost added, the latch written, and what bus reads may
change on the board (60_exceptions R313). -/
def Framed (i : Instr) (s h : State) : Prop :=
  ∃ row, i.descriptor? = some row ∧ s.board.ReadsTo h.board ∧
    h = { s with
      pc := s.pc + BitVec.ofNat 16 i.size, cycles := s.cycles + row.base
      extra := h.extra, board := h.board }

theorem framed_advance {row : Descriptor} (hd : i.descriptor? = some row) (s : State) :
    Framed i s (({ s with extra := false } : State).advance i.size row.base) :=
  ⟨row, hd, Board.ReadsTo.refl _, rfl⟩

/-- The registers and flags of which `i` is not named as a writer are as before (10_state R30 to R33, R40). -/
structure RegisterFrame (i : Instr) (s t : State) : Prop where
  a    : writesA i = false → t.a = s.a
  x    : writesX i = false → t.x = s.x
  y    : writesY i = false → t.y = s.y
  sp   : writesSp i = false → t.sp = s.sp
  c    : writesC i = false → t.c = s.c
  z    : writesZN i = false → t.z = s.z
  n    : writesZN i = false → t.n = s.n
  intr : writesI i = false → t.i = s.i
  d    : writesD i = false → t.d = s.d
  v    : writesV i = false → t.v = s.v

/-- The cycles a handler adds to the base cost (30_encoding R177; 44_control R275). -/
def handlerCycles (i : Instr) (s t : State) : Nat :=
  (if consultsLatch i then t.extra.toNat else 0)
    + (if branchTaken i s then
        1 + (if (s.pc + 2#16).extractLsb' 8 8 = t.pc.extractLsb' 8 8 then 0 else 1)
      else 0)

/-- What holds of the state an instruction leaves, whatever the instruction. -/
structure Effect (i : Instr) (s t : State) : Prop where
  registers : RegisterFrame i s t
  pending   : t.pending = s.pending
  inv       : t.Inv
  cycles    : ∃ row, i.descriptor? = some row ∧ t.cycles = s.cycles + row.base + handlerCycles i s t
  quiet     : storesTo i = none → t.stall = s.stall ∧ s.board.ReadsTo t.board ∧
    ∃ us : List Byte, us.length = pushes i ∧ t.ram = (us.foldl State.pushed s).ram

/-! ### Instructions that do not store to an operand -/

/-- From `h` to `t` the handler wrote nothing but registers, flags, PC and the cycle count. -/
def Computed (h t : State) : Prop :=
  t = { h with
    a := t.a, x := t.x, y := t.y, sp := t.sp, pc := t.pc, cycles := t.cycles
    c := t.c, z := t.z, i := t.i, d := t.d, v := t.v, n := t.n }

theorem afterBranch_computed (s : State) (d : Byte) (taken : Bool) :
    Computed (({ s with extra := false } : State).advance 2 2) (s.afterBranch d taken) := by
  cases taken <;> rfl

theorem afterBranch_registerFrame (s : State) (d : Byte) (taken : Bool) :
    RegisterFrame i (({ s with extra := false } : State).advance 2 2) (s.afterBranch d taken) := by
  cases taken <;> constructor <;> exact fun _ => rfl

theorem handlerCycles_afterBranch (hl : consultsLatch i = false) (d : Byte) :
    (s.afterBranch d (branchTaken i s)).cycles =
      s.cycles + 2 + handlerCycles i s (s.afterBranch d (branchTaken i s)) := by
  cases ht : branchTaken i s
  · simp [handlerCycles, hl, ht, State.afterBranch, State.past_eq]
  · by_cases hpage : (s.pc + 2#16).extractLsb' 8 8 = (relativeTarget s.pc d).extractLsb' 8 8
    · simp [handlerCycles, hl, ht, State.afterBranch, pagesDiffer, highByte, hpage]
    · have hne := bne_iff_ne.2 hpage
      simp [handlerCycles, hl, ht, State.afterBranch, pagesDiffer, highByte, hpage, hne]

/-- An instruction that stores to no operand: its frame, the bytes it pushes, and a computation on registers, flags
and PC. -/
theorem exec_computes (hs : s.Inv) (hw : i.wf = true) (hp : i.present = true) (hstore : storesTo i = none) :
    ∃ h t, ∃ us : List Byte, exec i s = .next t ∧ Framed i s h ∧ us.length = pushes i ∧
      Computed { h with ram := (us.foldl State.pushed h).ram } t ∧
      t.cycles = h.cycles + handlerCycles i s t ∧ RegisterFrame i h t := by
  have hbranch := fun hm => exec_of_relative (i := i) hm s
  cases i
  case' lda | ldx | ldy | adc | sbc | cmp | and | ora | eor =>
    obtain ⟨u, h, hread⟩ := readsOperand_ok hs hw hp
    refine ⟨h, _, [], Access.outcome_of_ok (readCrossHandler_apply hread _), hread.spec, rfl, rfl, rfl, ?_⟩
  case' cpx | cpy | bit =>
    obtain ⟨u, h, hread⟩ := readsOperand_ok hs hw hp
    refine ⟨h, _, [], Access.outcome_of_ok (readHandler_apply hread _), hread.spec, rfl, rfl, rfl, ?_⟩
  case' sbcAlias value =>
    obtain ⟨u, h, hread⟩ := readsOperand_ok (m := .immediate value) hs hw hp
    refine ⟨h, _, [], exec_sbcAlias hread, hread.spec, rfl, rfl, rfl, ?_⟩
  case' asl m | lsr m | rol m | ror m =>
    obtain rfl : m = .accumulator := by cases m <;> simp [storesTo, memoryOperand] at hstore ⊢
    obtain ⟨row, hrow⟩ := Instr.descriptor_of_wf hw hp
    refine ⟨_, _, [], Access.outcome_of_ok (shiftHandler_accumulator hrow _ s), framed_advance hrow s, rfl, rfl, rfl, ?_⟩
  case' jmp =>
    obtain ⟨addr, h, hreach⟩ := reachesHandler_ok hs hw hp
    refine ⟨h, _, [], exec_jmp hreach, hreach.spec, rfl, rfl, rfl, ?_⟩
  case' pla => refine ⟨_, _, [], exec_pla s, framed_advance rfl s, rfl, rfl, rfl, ?_⟩
  case' plp => refine ⟨_, _, [], exec_plp s, framed_advance rfl s, rfl, rfl, rfl, ?_⟩
  case' rts => refine ⟨_, _, [], exec_rts s, framed_advance rfl s, rfl, rfl, rfl, ?_⟩
  case' rti => refine ⟨_, _, [], exec_rti s, framed_advance rfl s, rfl, rfl, rfl, ?_⟩
  case bcc | bcs | beq | bmi | bne | bpl | bvc | bvs =>
    obtain ⟨-, d, hexec⟩ := hbranch rfl
    exact ⟨_, _, [], hexec, framed_advance rfl s, rfl, afterBranch_computed _ _ _, handlerCycles_afterBranch rfl d,
      afterBranch_registerFrame _ _ _⟩
  case' pha => refine ⟨_, _, [_], exec_pha s, framed_advance rfl s, rfl, rfl, rfl, ?_⟩
  case' php => refine ⟨_, _, [_], exec_php s, framed_advance rfl s, rfl, rfl, rfl, ?_⟩
  case' jsr w => refine ⟨_, _, [_, _], exec_jsr w s, framed_advance rfl s, rfl, rfl, rfl, ?_⟩
  case' brk => refine ⟨_, _, [_, _, _], exec_brk hs, framed_advance rfl s, rfl, rfl, rfl, ?_⟩
  case sta | stx | sty | inc | dec => cases hstore
  case absent => cases hp
  case' tax | tay | txa | tya | tsx | txs | inx | iny | dex | dey | clc | sec | cli | sei | clv | cld | sed | nop =>
    refine ⟨_, _, [], rfl, framed_advance rfl s, rfl, rfl, rfl, ?_⟩
  all_goals constructor <;> intro hw <;> cases hw <;> rfl

/-! ### Instructions that store -/

/-- An instruction that stores: its frame, at most one read of the operand and a new carry, one write of a byte at the
resolved address, then at most new Z and N. -/
theorem exec_stores (hs : s.Inv) (hw : i.wf = true) (hstore : storesTo i = some m) :
    ∃ addr h b c u t' z n, ReachesHandler i m s addr h ∧ h.board.ReadsTo b ∧
      memWrite addr u { h with board := b, c := c } = .ok ((), t') ∧ exec i s = .next { t' with z := z, n := n } ∧
      (writesC i = false → c = h.c) ∧ (writesZN i = false → z = t'.z ∧ n = t'.n) := by
  cases i
  case sta | stx | sty =>
    cases hstore
    obtain ⟨addr, h, hreach⟩ := reachesHandler_ok hs hw rfl
    obtain ⟨t, ht, -⟩ := memWrite_ok (hreach.inv hs) addr _
    exact ⟨addr, h, h.board, h.c, _, t, t.z, t.n, hreach, Board.ReadsTo.refl _, ht,
      Access.outcome_of_ok (storeHandler_apply hreach _ ht), fun _ => rfl, fun _ => ⟨rfl, rfl⟩⟩
  case inc | dec =>
    cases hstore
    obtain ⟨addr, h, u, h', t, hreach, hread, ht⟩ := modifies_ok hs hw rfl _
    obtain ⟨b, hb, rfl⟩ := (memRead_readsTo hread).shape
    exact ⟨addr, h, b, h.c, _, t, _, _, hreach, hb, ht,
      Access.outcome_of_ok (modifyHandler_apply hreach _ hread ht), fun _ => rfl, nofun⟩
  case asl m' | lsr m' | rol m' | ror m' =>
    have hne : m' ≠ .accumulator := by rintro rfl; cases hstore
    obtain rfl : m' = m := by simpa [storesTo, memoryOperand_of_ne hne] using hstore
    obtain ⟨addr, h, u, h', t, hreach, hread, ht, hnext⟩ :=
      shiftHandler_memory_ok hs hw rfl hne (by rintro v rfl; cases hw) _
    obtain ⟨b, hb, rfl⟩ := (memRead_readsTo hread).shape
    exact ⟨addr, h, b, _, _, t, _, _, hreach, hb, ht, hnext, nofun, nofun⟩
  all_goals cases hstore

/-! ### Every instruction -/

theorem State.Inv.foldl_pushed (hs : s.Inv) (us : List Byte) : (us.foldl State.pushed s).Inv := by
  induction us generalizing s with
  | nil => exact hs
  | cons u us ih => exact ih (hs.pushed u)

theorem Framed.inv (hf : Framed i s h) (hs : s.Inv) : h.Inv := by
  obtain ⟨row, -, hb, hh⟩ := hf
  rw [hh]
  exact ⟨hs.ram, hb.ok hs.board, hs.loaded⟩

theorem handlerCycles_of_storesTo (hstore : storesTo i = some m) (s t : State) : handlerCycles i s t = 0 := by
  cases i
  case sta | stx | sty | inc | dec | asl | lsr | rol | ror => rfl
  all_goals cases hstore

/-- The parts of the machine that only pushes and bus reads reach. -/
theorem Computed.rest (hc : Computed h t) : t.ram = h.ram ∧ t.board = h.board ∧ t.loaded = h.loaded ∧
    t.stall = h.stall ∧ t.pending = h.pending := by
  refine ⟨?_, ?_, ?_, ?_, ?_⟩ <;> rw [hc]

theorem State.ram_foldl_pushed_congr (us : List Byte) (hram : t.ram = s.ram) (hsp : t.sp = s.sp) :
    (us.foldl State.pushed t).ram = (us.foldl State.pushed s).ram := by
  induction us generalizing s t with
  | nil => exact hram
  | cons u us ih => exact ih (by simp only [State.pushed, hram, hsp]) (by simp only [State.pushed, hsp])

theorem exec_computes_effect (hs : s.Inv) (hw : i.wf = true) (hp : i.present = true) (hstore : storesTo i = none) :
    ∃ t, exec i s = .next t ∧ Effect i s t := by
  obtain ⟨h, t, us, hexec, hf, hlen, hc, hcyc, hreg⟩ := exec_computes hs hw hp hstore
  obtain ⟨hram, hboard, hloaded, hstall, hpending⟩ := hc.rest
  have hinv : t.Inv :=
    ⟨hram ▸ ((hf.inv hs).foldl_pushed us).ram, hboard ▸ (hf.inv hs).board, hloaded ▸ (hf.inv hs).loaded⟩
  obtain ⟨row, hrow, hb, hh⟩ := hf
  rw [hh] at hram hloaded hstall hpending hcyc hreg
  exact ⟨t, hexec,
    { registers := { hreg with }
      pending := hpending
      inv := hinv
      cycles := ⟨row, hrow, hcyc⟩
      quiet := fun _ => ⟨hstall, hboard ▸ hb, us, hlen, hram.trans (State.ram_foldl_pushed_congr us rfl rfl)⟩ }⟩

theorem exec_stores_effect (hs : s.Inv) (hw : i.wf = true) (hstore : storesTo i = some m) :
    ∃ t, exec i s = .next t ∧ Effect i s t := by
  obtain ⟨addr, h, b, c, u, t, z, n, hreach, hb, hwrite, hexec, hwc, hwzn⟩ := exec_stores hs hw hstore
  have hinv := hreach.inv hs
  obtain ⟨t', ht', hinv'⟩ := memWrite_ok (s := { h with board := b, c := c })
    ⟨hinv.ram, hb.ok hinv.board, hinv.loaded⟩ addr u
  cases hwrite.symm.trans ht'
  refine ⟨_, hexec, ?_⟩
  have hcyc := handlerCycles_of_storesTo hstore
  obtain ⟨row, extra, board, hrow, -, rfl⟩ := hreach.shape
  obtain ⟨ram, board', stall, rfl⟩ := (memWrite_writesTo ht').shape
  exact
    { registers :=
        { a := fun _ => rfl, x := fun _ => rfl, y := fun _ => rfl, sp := fun _ => rfl, c := hwc
          z := fun hz => (hwzn hz).1, n := fun hz => (hwzn hz).2
          intr := fun _ => rfl, d := fun _ => rfl, v := fun _ => rfl }
      pending := rfl
      inv := ⟨hinv'.ram, hinv'.board, hinv'.loaded⟩
      cycles := ⟨row, hrow, by rw [hcyc]; rfl⟩
      quiet := by rw [hstore]; exact nofun }

/-- Every instruction with a descriptor completes, with these effects. -/
theorem exec_effect (hs : s.Inv) (hw : i.wf = true) (hp : i.present = true) :
    ∃ t, exec i s = .next t ∧ Effect i s t := by
  cases hstore : storesTo i with
  | none => exact exec_computes_effect hs hw hp hstore
  | some m => exact exec_stores_effect hs hw hstore

end Sys2Proof.Machine
end

section
/-! Every step goes on with the invariant, but for the fetch of an absent opcode byte (spec/60_exceptions.md R327,
R334); and the fault of a term without a descriptor (spec/00_scope.md R16). -/

namespace Sys2Proof

set_option maxRecDepth 10000 in
/-- A byte outside the list of R164 selects an instruction: one evaluation over the 256 opcode bytes. -/
theorem decodeBytes_present {opcode : Byte} (h : absentOpcodes.contains opcode.toNat = false) (b1 b2 : Byte) :
    (decodeBytes opcode b1 b2).present = true := by
  have hall : (List.range 256).all (fun k =>
      absentOpcodes.contains k || (decodeBytes (BitVec.ofNat 8 k) b1 b2).present) = true := by rfl
  have hk := List.all_eq_true.1 hall opcode.toNat (List.mem_range.2 opcode.isLt)
  simpa only [h, Bool.false_or, BitVec.ofNat_toNat, BitVec.setWidth_eq] using hk

/-- The mode of a descriptor is one of the operation's modes, in the same order. -/
theorem Instr.descriptors_modes (i : Instr) : i.descriptors.map Descriptor.mode = i.modes := by
  cases i <;> rfl

/-- An ill-formed term has no descriptor (30_encoding R160). -/
theorem Instr.descriptor_of_not_wf {i : Instr} (hw : i.wf = false) (hp : i.present = true) :
    i.descriptor? = none := by
  cases hm : i.mode with
  | none => simp only [Instr.descriptor?, hm, Option.bind_none]
  | some mode =>
    rw [Instr.wf_of_mode hp hm, ← Instr.descriptors_modes, List.contains_eq_mem, decide_eq_false_iff_not] at hw
    simp only [Instr.descriptor?, hm, Option.bind_some, List.find?_eq_none, beq_iff_eq]
    exact fun row hrow hmode => hw (List.mem_map.2 ⟨row, hrow, hmode⟩)

namespace Machine

variable {i : Instr} {m : Operand} {s t : State} {f : Fault} {α β : Type}

/-! ### Terms without a descriptor -/

theorem Access.bind_of_error {act : Access α} {k : α → Access β} (h : act s = .error f) :
    (act >>= k) s = .error f := by
  rw [Access.bind_apply, h]

theorem Access.outcome_of_error {act : Access Unit} (h : act s = .error f) : act.outcome s = .fault f := by
  rw [Access.outcome, h]

theorem State.peek_plain (hs : s.Inv) {addr : Word} (ha : plainAddress addr = true) :
    s.peek addr = s.byteAt addr := by
  rw [State.peek, memRead_plain hs ha]

/-- Without a descriptor the frame faults with the byte at PC and PC (log 30). -/
theorem beginOperand_absentHandler (hs : s.Inv) (hd : i.descriptor? = none) (ha : plainAddress s.pc = true)
    (m : Operand) : beginOperand i m s = .error (.absentHandler (s.byteAt s.pc) s.pc) := by
  obtain ⟨addr, r, hr⟩ := resolve_ok hs m
  have hto := resolve_resolvesTo hr
  have hpc : r.pc = s.pc := by rw [hto.eq]
  have hram : r.ram = s.ram := by rw [hto.eq]
  have hbyte : r.peek r.pc = s.byteAt s.pc := by
    rw [hpc, State.peek_plain (hto.inv hs) ha]
    exact State.byteAt_congr hram hto.board.mapper _
  rw [beginOperand, Access.bind_of_ok hr]
  refine Access.bind_of_error ?_
  rw [advancePast, hd, hbyte, hpc]

theorem exec_absentHandler (hs : s.Inv) (hw : i.wf = false) (hp : i.present = true)
    (ha : plainAddress s.pc = true) : exec i s = .fault (.absentHandler (s.byteAt s.pc) s.pc) := by
  have hbegin := beginOperand_absentHandler hs (Instr.descriptor_of_not_wf hw hp) ha
  cases i
  case lda m | ldx m | ldy m | adc m | sbc m | cmp m | and m | ora m | eor m =>
    exact Access.outcome_of_error (Access.bind_of_error (Access.bind_of_error (hbegin m)))
  case cpx m | cpy m | bit m | sta m | stx m | sty m | inc m | dec m | asl m | lsr m | rol m | ror m | jmp m =>
    exact Access.outcome_of_error (Access.bind_of_error (hbegin m))
  case absent => cases hp
  all_goals cases hw

/-! ### A step -/

/-- A fetch gives what the byte at PC selects, with operand bytes that bus reads gave. -/
theorem fetchInstr_decodes (hs : s.Inv) :
    ∃ opcode r b1 b2 t, memRead s.pc s = .ok (opcode, r) ∧ fetchInstr s = .ok (decodeBytes opcode b1 b2, t) ∧
      s.ReadsTo t := by
  obtain ⟨opcode, r, hr⟩ := memRead_ok hs s.pc
  have hreads := memRead_readsTo hr
  unfold fetchInstr
  rw [Access.bind_get, Access.bind_of_ok hr]
  rcases instrLength_cases opcode with h | h | h <;> rw [h]
  · exact ⟨opcode, r, _, _, r, hr, rfl, hreads⟩
  · obtain ⟨b1, t, ht⟩ := memRead_ok (hreads.inv hs) (s.pc + 1#16)
    exact ⟨opcode, r, _, _, t, hr, Access.bind_of_ok ht, hreads.trans (memRead_readsTo ht)⟩
  · obtain ⟨b1, b2, t1, t2, h1, h2, h3⟩ := memRead_pair_ok (hreads.inv hs) (s.pc + 1#16) (s.pc + 2#16)
    exact ⟨opcode, r, _, _, t2, hr, (Access.bind_of_ok h1).trans (Access.bind_of_ok h2), hreads.trans h3⟩

/-- The byte at PC is absent, and nothing comes before its fetch. -/
def FetchesAbsent (s : State) (opcode : Byte) : Prop :=
  s.stall = 0 ∧ s.pending = none ∧ ∃ t, memRead s.pc s = .ok (opcode, t) ∧
    absentOpcodes.contains opcode.toNat = true

/-- An interrupt tick completes, keeps the invariant and costs 7 cycles (60_exceptions R320, R322). -/
theorem interruptTick_ok (hs : s.Inv) (k : Interrupt) :
    ∃ t, interruptTick k s = .ok ((), t) ∧ t.Inv ∧ t.cycles = s.cycles + 7 := by
  refine ⟨_, interruptTick_apply hs k, ?_⟩
  split
  · exact ⟨⟨hs.ram, hs.board, hs.loaded⟩, rfl⟩
  · have hpushed := ((hs.pushed (highByte s.pc)).pushed (lowByte s.pc)).pushed (s.packP false true)
    exact ⟨⟨hpushed.ram, hpushed.board, hpushed.loaded⟩, rfl⟩

/-- A processor tick goes on with the invariant, or it has fetched an absent opcode byte. -/
theorem tick_cases (hs : s.Inv) :
    (∃ t, tick s = .next t ∧ t.Inv) ∨
      ∃ opcode, FetchesAbsent s opcode ∧ tick s = .fault (.absentOpcode opcode s.pc) := by
  obtain ⟨hstalled, hinterrupt, hinstruction⟩ := tickOrder s
  by_cases hstall : 0 < s.stall
  · exact .inl ⟨_, hstalled hstall, hs.ram, hs.board, hs.loaded⟩
  replace hstall : s.stall = 0 := by omega
  cases hpending : s.pending with
  | some k =>
    obtain ⟨t, ht, hinv, -⟩ := interruptTick_ok hs k
    exact .inl ⟨t, (hinterrupt hstall k hpending).trans (Access.outcome_of_ok ht), hinv⟩
  | none =>
    rw [hinstruction hstall hpending]
    obtain ⟨opcode, r, b1, b2, t, hr, hfetch, hreads⟩ := fetchInstr_decodes hs
    cases habsent : absentOpcodes.contains opcode.toNat with
    | true => exact .inr ⟨opcode, ⟨hstall, hpending, r, hr, habsent⟩, absentOpcodeFaults.2 s r opcode hr habsent⟩
    | false =>
      obtain ⟨u, hu, heffect⟩ :=
        exec_effect (hreads.inv hs) (decodeBytes_wf opcode b1 b2) (decodeBytes_present habsent b1 b2)
      exact .inl ⟨u, by rw [instructionTick, hfetch]; exact hu, heffect.inv⟩

/-- The same of a step: the platform keeps the invariant. -/
theorem step_cases (hs : s.Inv) :
    (∃ t, step s = .next t ∧ t.Inv) ∨
      ∃ opcode, FetchesAbsent s opcode ∧ step s = .fault (.absentOpcode opcode s.pc) := by
  rw [step_of_loaded hs.loaded]
  rcases tick_cases hs with ⟨t, ht, hinv⟩ | ⟨opcode, habsent, ht⟩ <;> rw [ht]
  · exact .inl ⟨_, rfl, hinv.runPlatform _⟩
  · exact .inr ⟨opcode, habsent, rfl⟩

end Machine

open Machine

/-- Settles O4: a step that gives a next state is the first case of `step_cases`. -/
theorem stepKeepsInvariant : Obligations.StepKeepsInvariant := by
  intro s t hs ht
  rcases step_cases hs with ⟨t', ht', hinv⟩ | ⟨opcode, -, hfault⟩
  · cases ht.symm.trans ht'
    exact hinv
  · cases ht.symm.trans hfault

/-- Settles O5: the two cases of `step_cases`. -/
theorem onlyAbsentOpcodesFault : Obligations.OnlyAbsentOpcodesFault := by
  intro s hs
  rcases step_cases hs with ⟨t, ht, -⟩ | ⟨opcode, ⟨hstall, hpending, t, hr, habsent⟩, hfault⟩
  · exact .inl ⟨t, ht⟩
  · exact .inr ⟨hstall, hpending, opcode, t, hr, habsent, hfault⟩

/-- Settles O6: `exec_effect` for the terms of the table, `exec_absentHandler` for the others. -/
theorem completionAndAbsentHandler : Obligations.CompletionAndAbsentHandler := by
  refine ⟨fun i s hs hw hp => ?_, fun i s hs hw hp ha => exec_absentHandler hs hw hp ha⟩
  obtain ⟨t, ht, heffect⟩ := exec_effect hs hw hp
  exact ⟨t, ht, heffect.inv⟩

/-- Settles O17: the registers, flags and slot of `exec_effect`. -/
theorem registerAndFlagFrame : Obligations.RegisterAndFlagFrame := by
  refine ⟨fun i s hs hw hp => ?_, fun i s hs hw hp => ?_⟩
  all_goals obtain ⟨t, ht, heffect⟩ := exec_effect hs hw hp
  · obtain ⟨ha, hx, hy, hsp⟩ := heffect.registers
    exact ⟨t, ht, ha, hx, hy, hsp, heffect.pending, fun hstore => (heffect.quiet hstore).1⟩
  · obtain ⟨-, -, -, -, hc, hz, hn, hi, hd, hv⟩ := heffect.registers
    exact ⟨t, ht, hc, fun hzn => ⟨hz hzn, hn hzn⟩, hi, hd, hv⟩

end Sys2Proof
end

section
/-! Encoding and decoding are inverse (spec/30_encoding.md R140, R141, R162 to R164). -/

namespace Sys2Proof

/-! ### Decoding an encoding -/

/-- The encoding splits an operand word into its bytes and the decoder joins them again. -/
theorem decode_encode {i : Instr} (hw : i.wf = true) (rest : List Byte) :
    decode (encode i ++ rest) = .ok (i, rest) := by
  cases i
  case lda m | ldx m | ldy m | sta m | stx m | sty m | adc m | sbc m | cmp m | cpx m | cpy m | inc m | dec m
    | and m | ora m | eor m | bit m | asl m | lsr m | rol m | ror m | jmp m =>
    cases m
    case accumulator => cases hw <;> exact decode_one rfl rest
    case immediate b | zeroPage b | zeroPageX b | zeroPageY b | indexedIndirectX b | indirectIndexedY b =>
      cases hw <;> exact decode_two rfl b rest
    case absolute w | absoluteX w | absoluteY w | indirect w =>
      cases hw
      all_goals
        conv_rhs => rw [← wordOf_low_high w]
        exact decode_three rfl (lowByte w) (highByte w) rest
  case jsr w =>
    conv_rhs => rw [← wordOf_low_high w]
    exact decode_three rfl (lowByte w) (highByte w) rest
  case sbcAlias b | bcc b | bcs b | beq b | bmi b | bne b | bpl b | bvc b | bvs b => exact decode_two rfl b rest
  case absent opcode => exact (decode_one (instrLength_absent hw) rest).trans (by rw [decodeBytes_absent hw])
  all_goals exact decode_one rfl rest

/-! ### Encoding what was decoded -/

set_option maxRecDepth 10000 in
/-- Each opcode byte is that of its descriptor, and the operand bytes come back: one evaluation over the 256 opcode
bytes, the operand bytes free and a word left as the bytes it was joined from. -/
theorem encode_decodeBytes_all (b1 b2 : Byte) :
    (List.range 256).map (fun k => encode (decodeBytes (BitVec.ofNat 8 k) b1 b2)) =
      (List.range 256).map fun k => match instrLength (BitVec.ofNat 8 k) with
        | 3 => [BitVec.ofNat 8 k, lowByte (wordOf b1 b2), highByte (wordOf b1 b2)]
        | n => [BitVec.ofNat 8 k, b1].take n := by
  rfl

theorem encode_decodeBytes (opcode b1 b2 : Byte) :
    encode (decodeBytes opcode b1 b2) = [opcode, b1, b2].take (instrLength opcode) := by
  have h := List.map_inj_left.1 (encode_decodeBytes_all b1 b2) opcode.toNat (List.mem_range.2 opcode.isLt)
  simp only [BitVec.ofNat_toNat, BitVec.setWidth_eq, lowByte_wordOf, highByte_wordOf] at h
  rcases instrLength_cases opcode with hlen | hlen | hlen <;> rw [h, hlen] <;> rfl

/-- What decodes is the instruction its bytes select, and it has used as many bytes as the opcode byte asks for. -/
theorem decode_ok_cases {bytes rest : List Byte} {i : Instr} (h : decode bytes = .ok (i, rest)) :
    ∃ opcode b1 b2, i = decodeBytes opcode b1 b2 ∧ bytes = [opcode, b1, b2].take (instrLength opcode) ++ rest := by
  cases bytes with
  | nil => cases h
  | cons opcode tail =>
    rcases instrLength_cases opcode with hlen | hlen | hlen
    · rw [decode_one hlen] at h
      cases h
      exact ⟨opcode, 0#8, 0#8, rfl, by rw [hlen]; rfl⟩
    · match tail with
      | [] => simp [decode, hlen] at h
      | b1 :: tail =>
        rw [decode_two hlen] at h
        cases h
        exact ⟨opcode, b1, 0#8, rfl, by rw [hlen]; rfl⟩
    · match tail with
      | [] | [_] => simp [decode, hlen] at h
      | b1 :: b2 :: tail =>
        rw [decode_three hlen] at h
        cases h
        exact ⟨opcode, b1, b2, rfl, by rw [hlen]; rfl⟩

/-- Settles O7: by the instruction's operand, which decides how many bytes follow the opcode byte. -/
theorem decodeEncode : Obligations.DecodeEncode := fun _ rest hw => decode_encode hw rest

/-- Settles O8: the bytes used are those of the instruction they select, and they are its encoding. -/
theorem encodeDecode : Obligations.EncodeDecode := by
  intro bytes rest i h
  obtain ⟨opcode, b1, b2, rfl, rfl⟩ := decode_ok_cases h
  exact ⟨decodeBytes_wf opcode b1 b2, by rw [encode_decodeBytes]⟩

/-- Settles O9: each word by evaluating the decoder. -/
theorem decodedWords : Obligations.DecodedWords :=
  ⟨rfl, rfl, rfl, rfl, rfl, rfl, rfl, rfl, rfl, rfl, rfl, rfl⟩

/-- Settles O10: the list is counted; on it `decodeBytes_absent`, off it `decodeBytes_present`. -/
theorem absentBytes : Obligations.AbsentBytes := by
  refine ⟨rfl, by decide, fun opcode b1 b2 => ⟨fun h => decodeBytes_absent h b1 b2, fun h => ?_⟩⟩
  have hpresent := decodeBytes_present h b1 b2
  obtain ⟨row, hrow⟩ := Machine.Instr.descriptor_of_wf (decodeBytes_wf opcode b1 b2) hpresent
  exact ⟨hpresent, by rw [hrow]; rfl⟩

end Sys2Proof
end

section
/-! Cycles (spec/30_encoding.md R163, R176, R177): the base costs from the descriptors, the rest from the handlers. -/

namespace Sys2Proof

namespace Machine

/-- An operation costs what its rows say. -/
theorem costs_of_descriptors {operation : Operand → Instr} {rows : List (Mode × Nat)}
    (hp : ∀ m, (operation m).present = true) (hmode : ∀ m, (operation m).mode = some m.mode)
    (hrows : ∀ m, ((operation m).descriptors.all fun row => rows.contains (row.mode, row.base)) = true) :
    Costs rows operation := by
  intro m hw
  obtain ⟨row, hrow⟩ := Instr.descriptor_of_wf hw (hp m)
  have hfind := hrow
  simp only [Instr.descriptor?, hmode, Option.bind_some] at hfind
  have hm : row.mode = m.mode := by simpa using List.find?_some hfind
  have hmem := List.all_eq_true.1 (hrows m) row (List.mem_of_find?_eq_some hfind)
  exact ⟨row.base, by rw [baseCycles, hrow]; rfl, hm ▸ List.contains_iff_mem.1 hmem⟩

end Machine

open Machine

/-- Settles O19: `costs_of_descriptors` for the base costs, `exec_effect` and the two other ticks for what they add. -/
theorem cycleCost : Obligations.CycleCost := by
  refine ⟨?reads, ?stores, ?modifies, ?jmp, fun w d p hp => ?_, fun d i hi => ?_, fun i s hs hw hp => ?_,
    fun k s hs => ?_, fun s hstall => ⟨_, (tickOrder s).1 hstall, rfl⟩⟩
  case reads | stores | modifies =>
    intro operation hop
    fin_cases hop <;> exact costs_of_descriptors (fun _ => rfl) (fun _ => rfl) fun _ => rfl
  case jmp => exact costs_of_descriptors (fun _ => rfl) (fun _ => rfl) fun _ => rfl
  · fin_cases hp <;> rfl
  · fin_cases hi <;> rfl
  · obtain ⟨t, ht, heffect⟩ := exec_effect hs hw hp
    obtain ⟨row, hrow, hcyc⟩ := heffect.cycles
    exact ⟨t, row, ht, hrow, hcyc.trans (Nat.add_assoc ..).symm⟩
  · obtain ⟨t, ht, -, hcyc⟩ := interruptTick_ok hs k
    exact ⟨t, ht, hcyc⟩

end Sys2Proof
end

section
/-! A byte of plain memory after a write to RAM (spec/20_memory.md R81, R86), and so after pushes. -/

namespace Sys2Proof

namespace Machine

variable {s : State} {addr other : Word}

theorem sameCell_ram (ha : addr.toNat < 0x2000) :
    sameCell addr other = true ↔ other.toNat < 0x2000 ∧ ramOffset addr = ramOffset other := by
  simp only [sameCell, Bool.or_eq_true, Bool.and_eq_true, beq_iff_eq, decide_eq_true_eq]
  constructor
  · rintro (rfl | ⟨⟨-, hother⟩, hoffset⟩)
    · exact ⟨ha, rfl⟩
    · exact ⟨hother, hoffset⟩
  · exact fun ⟨hother, hoffset⟩ => .inr ⟨⟨ha, hother⟩, hoffset⟩

theorem State.byteAt_ram (ha : addr.toNat < 0x2000) (s : State) :
    s.byteAt addr = Cells.read s.ram (ramOffset addr) := if_pos ha

/-- From 0x2000 on a byte does not depend on RAM. -/
theorem State.byteAt_congr_mapper {t : State} (hm : t.board.mapper = s.board.mapper) (ha : ¬ addr.toNat < 0x2000) :
    t.byteAt addr = s.byteAt addr := by
  simp only [State.byteAt, ha, if_false, hm]

theorem State.byteAt_writeRam (hs : s.Inv) (ha : addr.toNat < 0x2000) (u : Byte) (other : Word) :
    (s.writeRam addr u).byteAt other = if sameCell addr other then u else s.byteAt other := by
  have hcell := sameCell_ram (other := other) ha
  by_cases hother : other.toNat < 0x2000
  · have hread : (s.writeRam addr u).byteAt other = if ramOffset other = ramOffset addr then u else s.byteAt other := by
      rw [State.byteAt_ram hother, State.byteAt_ram hother]
      exact Cells.read_write hs.ram.wf _ _ u
    rw [hread]
    exact if_congr (by rw [hcell, eq_comm]; exact (and_iff_right hother).symm) rfl rfl
  · rw [if_neg fun h => hother (hcell.1 h).1]
    exact State.byteAt_congr_mapper rfl hother

theorem stackAddress_lt (sp : Byte) : (stackAddress sp).toNat < 0x2000 := by
  have := sp.isLt
  rw [stackAddress_toNat]
  omega

/-- A push changes the cell at 0x0100 | SP and no other (41_transfer_stack R221). -/
theorem State.byteAt_pushed (hs : s.Inv) (u : Byte) (other : Word) :
    (s.pushed u).byteAt other = if sameCell (stackAddress s.sp) other then u else s.byteAt other := by
  rw [← State.byteAt_writeRam hs (stackAddress_lt s.sp)]
  have hram : (s.pushed u).ram = (s.writeRam (stackAddress s.sp) u).ram := by
    rw [State.writeRam_ram, ramOffset_stackAddress]
    rfl
  exact State.byteAt_congr hram rfl other

theorem State.board_foldl_pushed (s : State) (us : List Byte) : (us.foldl State.pushed s).board = s.board := by
  induction us generalizing s with
  | nil => rfl
  | cons u us ih => exact ih (s.pushed u)

theorem State.byteAt_foldl_pushed (hs : s.Inv) (us : List Byte)
    (hother : ∀ k, k < us.length → sameCell (stackAddress (s.sp - BitVec.ofNat 8 k)) other = false) :
    (us.foldl State.pushed s).byteAt other = s.byteAt other := by
  induction us generalizing s with
  | nil => rfl
  | cons u us ih =>
    have hfirst : sameCell (stackAddress s.sp) other = false := by simpa using hother 0 (by simp)
    rw [List.foldl_cons, ih (hs.pushed u) fun k hk => ?_, State.byteAt_pushed hs, hfirst]
    · rfl
    · have hnext := hother (k + 1) (by simpa using hk)
      have hsp : s.sp - BitVec.ofNat 8 (k + 1) = (s.pushed u).sp - BitVec.ofNat 8 k := by
        show _ = s.sp - 1#8 - BitVec.ofNat 8 k
        rw [BitVec.sub_sub, ← BitVec.ofNat_add, Nat.add_comm]
      rwa [hsp] at hnext

end Machine

open Machine

/-- Settles O20: an instruction that stores to no operand pushes bytes and reads, and a byte depends on RAM and the
mapper only. -/
theorem memoryFrame : Obligations.MemoryFrame := by
  intro i s hs hw hp hstore
  obtain ⟨t, ht, heffect⟩ := exec_effect hs hw hp
  obtain ⟨-, hboard, us, hlen, hram⟩ := heffect.quiet hstore
  refine ⟨t, ht, hboard, fun addr haddr => ?_⟩
  rw [← State.byteAt_foldl_pushed hs us (hlen ▸ haddr)]
  exact State.byteAt_congr hram (hboard.mapper.trans (by rw [State.board_foldl_pushed])) addr

end Sys2Proof
end

section
/-! What a bus write reaches, by address (spec/20_memory.md R91, R92, R106; spec/60_exceptions.md R372 to R376). -/

namespace Sys2Proof

namespace Machine

variable {s t : State} {addr other : Word} {u : Byte}

theorem toNat_eq_dma : addr.toNat = 0x4014 ↔ addr = 0x4014#16 :=
  ⟨fun h => BitVec.eq_of_toNat_eq h, fun h => congrArg BitVec.toNat h⟩

/-- The audio, controller and unmapped rows take a write without effect (R92; log 34). -/
theorem memWrite_device (ha : 0x4000 ≤ addr.toNat) (hb : addr.toNat < 0x6000) (hdma : addr ≠ 0x4014#16) (u : Byte)
    (s : State) : memWrite addr u s = .ok ((), s) := by
  have hram : ¬ addr.toNat < 0x2000 := by omega
  have hreg : ¬ addr.toNat < 0x4000 := by omega
  simp only [memWrite, Board.busWrite, hram, toNat_eq_dma, hdma, hreg, hb, if_true, if_false]

/-- A write in the graphics address space reaches the graphics core and the graphics Bank Memory only. -/
theorem Board.graphicsWrite_frame {b b' : Board} {g : Nat} (h : b.graphicsWrite g u = .ok b') :
    b'.mapper = { b.mapper with chr := b'.mapper.chr } ∧ b'.freeCount = b.freeCount := by
  unfold Board.graphicsWrite at h
  split at h
  · split at h
    · split at h <;> cases h
      exact ⟨rfl, rfl⟩
    · cases h
      exact ⟨rfl, rfl⟩
  · split at h
    · cases h
      exact ⟨rfl, rfl⟩
    · split at h <;> cases h
      exact ⟨rfl, rfl⟩

theorem Board.writeRegister_frame {b b' : Board} {r : GfxRegister} (h : b.writeRegister r u = .ok b') :
    b'.mapper = { b.mapper with chr := b'.mapper.chr } ∧ b'.freeCount = b.freeCount := by
  cases r
  case data =>
    unfold Board.writeRegister at h
    cases hw : b.graphicsWrite b.gfx.portAddress u with
    | error f => simp only [hw] at h; cases h
    | ok b₁ =>
      simp only [hw] at h
      cases h
      have hframe := Board.graphicsWrite_frame hw
      exact hframe
  all_goals
    cases h
    exact ⟨rfl, rfl⟩

/-! ### A mapper register -/

@[simp] theorem BankMemory.switchWindow_data (b : BankMemory) (w : BankWindow) : (b.switchWindow w).data = b.data := by
  simp only [BankMemory.switchWindow]
  split <;> rfl

theorem Mapper.applyShift_saveRam_data (m : Mapper) (target : ShiftTarget) (value : BitVec 5) :
    (m.applyShift target value).saveRam = m.saveRam ∧
      (m.applyShift target value).prog.data = m.prog.data ∧ (m.applyShift target value).chr.data = m.chr.data := by
  cases target <;> simp [Mapper.applyShift]

/-- A mapper register moves page pointers, never a byte of a memory (R100, R106). -/
theorem Mapper.writeRegister_saveRam_data (m : Mapper) (addr : Word) (u : Byte) :
    (m.writeRegister addr u).saveRam = m.saveRam ∧
      (m.writeRegister addr u).prog.data = m.prog.data ∧ (m.writeRegister addr u).chr.data = m.chr.data := by
  unfold Mapper.writeRegister
  split
  · exact ⟨rfl, rfl, rfl⟩
  · unfold Mapper.writeShift
    split
    · exact ⟨rfl, rfl, rfl⟩
    · dsimp only
      split
      · exact Mapper.applyShift_saveRam_data ..
      · exact ⟨rfl, rfl, rfl⟩
  · exact ⟨rfl, rfl, rfl⟩
  · unfold Mapper.writeScanline
    split
    case h_6 =>
      unfold Mapper.writeScanlineBank
      dsimp only
      split <;> simp
    all_goals exact ⟨rfl, rfl, rfl⟩

theorem Mapper.write_register {m : Mapper} (ha : 0x8000 ≤ addr.toNat) (u : Byte) :
    m.write addr u = m.writeRegister addr u := if_neg (by omega)

theorem Mapper.write_saveRam {m : Mapper} (ha : addr.toNat < 0x8000) (u : Byte) :
    m.write addr u = { m with saveRam := Cells.write m.saveRam (addr.toNat - 0x6000) u } := if_pos ha

theorem Mapper.writeRegister_fixed {m : Mapper} (h : m.header.variant = .fixed) (addr : Word) (u : Byte) :
    m.writeRegister addr u = m := by
  rw [Mapper.writeRegister, h]

/-! ### A graphics register -/

/-- The number of a register (60_exceptions R372; D28). -/
def GfxRegister.number : GfxRegister → Nat
  | .control => 0 | .mask => 1 | .status => 2 | .oamAddress => 3
  | .oamData => 4 | .scroll => 5 | .address => 6 | .data => 7

theorem GfxRegister.ofAddress_of_number {r : GfxRegister} (h : addr.toNat % 8 = r.number) :
    GfxRegister.ofAddress addr = r := by
  rw [GfxRegister.ofAddress, h]
  cases r <;> rfl

theorem Gfx.writeAddress_first {g : Gfx} (h : g.writeToggle = false) (u : Byte) :
    g.writeAddress u = { g with
      tempAddr := mergeBits (phasePart Config.addressBits g.writeToggle) (Config.addressTemp g.writeToggle u) g.tempAddr
      writeToggle := true } := if_neg (by rw [h]; exact Bool.false_ne_true)

theorem Gfx.writeAddress_second {g : Gfx} (h : g.writeToggle = true) (u : Byte) :
    let temp := mergeBits (phasePart Config.addressBits g.writeToggle) (Config.addressTemp g.writeToggle u) g.tempAddr
    g.writeAddress u =
      { g with tempAddr := temp, vramAddr := temp, fineY := Config.fineYOf temp, writeToggle := false } := if_pos h

theorem Board.writeRegister_address {b : Board} {g : Gfx} (h : b.gfx.writeAddress u = g) :
    b.writeRegister .address u = .ok { b with gfx := g } := by
  rw [Board.writeRegister, h]

end Machine

open Machine

/-- Settles O26: the rows of the address map, and below 0x4000 the registers by their number. -/
theorem writeDispatch : Obligations.WriteDispatch := by
  refine ⟨fun addr u s hs => ⟨fun h => memWrite_ram h u s, fun hlo hhi => ?_,
    fun hlo hhi hdma => memWrite_device hlo hhi hdma u s, fun hlo hhi => ?_, fun hlo => ⟨fun hfixed => ?_, ?_⟩⟩,
    fun addr u s hs hlo hhi => ?_⟩
  · obtain ⟨b, hb, -⟩ := Board.writeRegister_ok hs.board (GfxRegister.ofAddress addr) u
    exact ⟨b, memWrite_register hlo hhi hb, Board.writeRegister_frame hb⟩
  · rw [memWrite_mapper hlo, Mapper.write_saveRam hhi]
  · rw [memWrite_mapper (by omega), Mapper.write_register hlo, Mapper.writeRegister_fixed hfixed]
  · obtain ⟨hsave, hdata, -⟩ := Mapper.writeRegister_saveRam_data s.board.mapper addr u
    rw [memWrite_mapper (by omega), Mapper.write_register hlo]
    exact ⟨_, rfl, rfl, hsave, hdata⟩
  · intro g gives fill
    have register {r : GfxRegister} {b : Board} (hr : addr.toNat % 8 = r.number)
        (hb : s.board.writeRegister r u = .ok b) : memWrite addr u s = .ok ((), { s with board := b }) :=
      memWrite_register hlo hhi (GfxRegister.ofAddress_of_number hr ▸ hb)
    refine ⟨fun h => ?control, fun h => ?mask, fun h => ?status, fun h => ?oamAddress, fun h => ?oamData,
      fun h => ?scroll, fun h => ⟨fun hfirst => ?first, fun hsecond => ?second⟩, fun h => ?data⟩
    case control => exact register (r := .control) h rfl
    case mask => exact register (r := .mask) h rfl
    case status => exact register (r := .status) h rfl
    case oamAddress => exact register (r := .oamAddress) h rfl
    case oamData => exact register (r := .oamData) h rfl
    case scroll => exact register (r := .scroll) h rfl
    case first =>
      exact register (r := .address) h (Board.writeRegister_address (Gfx.writeAddress_first hfirst u))
    case second =>
      exact register (r := .address) h (Board.writeRegister_address (Gfx.writeAddress_second hsecond u))
    case data =>
      obtain ⟨b, hb, -⟩ := Board.graphicsWrite_ok hs.board g.portAddress_lt u
      refine ⟨b, hb, register (r := .data) h ?_⟩
      rw [Board.writeRegister, hb]
      rfl

end Sys2Proof
end

section
/-! Reads and writes of RAM and of the device rows, and OAM DMA (spec/20_memory.md R81, R84 to R88, R95, R96, R99). -/

namespace Sys2Proof

namespace Machine

variable {s t : State} {addr other : Word} {u : Byte}

/-- The rows of 0x4000 to 0x5FFF but for the audio status and the controller read as 0 (R85, R88; log 7). -/
theorem memRead_device (ha : 0x4000 ≤ addr.toNat) (hb : addr.toNat < 0x6000) (haudio : addr.toNat ≠ 0x4015)
    (hcontroller : addr.toNat ≠ 0x4016) (s : State) : memRead addr s = .ok (0#8, s) := by
  have hram : ¬ addr.toNat < 0x2000 := by omega
  have hreg : ¬ addr.toNat < 0x4000 := by omega
  by_cases hrow : addr.toNat < 0x4018 <;>
    simp only [memRead, Board.busRead, hram, hreg, haudio, hcontroller, hrow, hb, if_true, if_false,
      Config.unmappedRead]

/-! ### OAM DMA -/

/-- All that an OAM DMA may change on the board: OAM, and what bus reads may change (R99). -/
def Board.DmaTo (b b' : Board) : Prop :=
  ({ b with gfx := { b.gfx with oam := b'.gfx.oam } } : Board).ReadsTo b'

theorem Board.DmaTo.of_readsTo {b b' : Board} (h : b.ReadsTo b') (index u : Byte) : b.DmaTo (b'.writeOam index u) := by
  unfold Board.DmaTo
  rw [h]
  rfl

theorem Board.DmaTo.trans {b b' b'' : Board} (h : b.DmaTo b') (h' : b'.DmaTo b'') : b.DmaTo b'' := by
  unfold Board.DmaTo Board.ReadsTo at *
  rw [h', h]

theorem dmaCopy_dmaTo {oamAddr page : Byte} {k : Nat} (h : dmaCopy oamAddr page k s = .ok ((), t)) :
    s.board.DmaTo t.board := by
  induction k generalizing s with
  | zero => cases h; exact Board.ReadsTo.refl _
  | succ k ih =>
    obtain ⟨u, r, hread, hrest⟩ := Access.bind_ok_iff.1 h
    rw [Access.bind_modify] at hrest
    exact (Board.DmaTo.of_readsTo (memRead_readsTo hread).board _ u).trans
      (ih (s := { r with board := r.board.writeOam _ u }) hrest)

theorem Board.DmaTo.oamAddr {b b' : Board} (h : b.DmaTo b') : b'.gfx.oamAddr = b.gfx.oamAddr := by rw [h]

theorem Board.DmaTo.mapper {b b' : Board} (h : b.DmaTo b') : b'.mapper = b.mapper := by rw [h]

theorem Board.DmaTo.nametable {b b' : Board} (h : b.DmaTo b') : b'.gfx.nametable = b.gfx.nametable := by rw [h]

theorem Board.DmaTo.palette {b b' : Board} (h : b.DmaTo b') : b'.gfx.palette = b.gfx.palette := by rw [h]

/-- An OAM DMA leaves the board as its copy does: the copy has not moved the OAM address. -/
theorem oamDma_copies {page : Byte} (h : oamDma page s = .ok ((), t)) :
    ∃ r, dmaCopy s.board.gfx.oamAddr page 256 s = .ok ((), r) ∧ t.board = r.board := by
  rw [oamDma, Access.bind_get] at h
  obtain ⟨⟨⟩, r, hcopy, hrest⟩ := Access.bind_ok_iff.1 h
  cases hrest
  refine ⟨r, hcopy, ?_⟩
  show ({ r.board with gfx := { r.board.gfx with oamAddr := s.board.gfx.oamAddr } } : Board) = r.board
  rw [← (dmaCopy_dmaTo hcopy).oamAddr]

theorem oamDma_dmaTo {page : Byte} (h : oamDma page s = .ok ((), t)) : s.board.DmaTo t.board := by
  obtain ⟨r, hcopy, hboard⟩ := oamDma_copies h
  exact hboard ▸ dmaCopy_dmaTo hcopy

theorem toNat_wordOf (lo hi : Byte) : (wordOf lo hi).toNat = hi.toNat * 256 + lo.toNat := by
  have h : (hi ++ lo).toNat = hi.toNat <<< 8 ||| lo.toNat := BitVec.toNat_append _ _
  rw [Nat.shiftLeft_eq, Nat.mul_comm, ← Nat.two_pow_add_eq_or_of_lt lo.isLt, Nat.mul_comm] at h
  exact h

/-- Every byte of a page of RAM, of save RAM or of the program window is plain memory. -/
theorem plainAddress_page {page : Byte} (h : page.toNat < 0x20 ∨ 0x60 ≤ page.toNat) (index : Byte) :
    plainAddress (wordOf index page) = true := by
  have := index.isLt
  simp only [plainAddress, toNat_wordOf, Bool.or_eq_true, decide_eq_true_eq]
  omega

/-- The state after one byte of a copy from plain memory. -/
def State.copied (s : State) (oamAddr page index : Byte) : State :=
  { s with board := s.board.writeOam (oamAddr + index) (s.byteAt (wordOf index page)) }

theorem State.byteAt_copied (s : State) (oamAddr page index : Byte) (addr : Word) :
    (s.copied oamAddr page index).byteAt addr = s.byteAt addr := State.byteAt_congr rfl rfl addr

theorem State.Inv.copied (hs : s.Inv) (oamAddr page index : Byte) : (s.copied oamAddr page index).Inv :=
  ⟨hs.ram, hs.board.writeOam _ _, hs.loaded⟩

theorem State.read_oam_copied (hs : s.Inv) (oamAddr page index j : Byte) :
    Cells.read (s.copied oamAddr page index).board.gfx.oam (oamAddr + j).toNat =
      if j = index then s.byteAt (wordOf index page) else Cells.read s.board.gfx.oam (oamAddr + j).toNat := by
  have hiff : (oamAddr + j).toNat = (oamAddr + index).toNat ↔ j = index := by
    rw [← BitVec.toNat_eq, BitVec.add_right_inj]
  simp only [← hiff]
  exact Cells.read_write hs.board.gfx.oam.wf _ _ _

theorem dmaCopy_succ_plain {page : Byte} (hs : s.Inv) (hpage : page.toNat < 0x20 ∨ 0x60 ≤ page.toNat)
    (oamAddr : Byte) (k : Nat) :
    dmaCopy oamAddr page (k + 1) s = dmaCopy oamAddr page k (s.copied oamAddr page (BitVec.ofNat 8 (255 - k))) := by
  rw [dmaCopy]
  exact Access.bind_of_ok (memRead_plain hs (plainAddress_page hpage _))

/-- From a page of plain memory the last `k` bytes are stored and nothing else changes. -/
theorem dmaCopy_plain {oamAddr page : Byte} {k : Nat} (hs : s.Inv) (hk : k ≤ 256)
    (hpage : page.toNat < 0x20 ∨ 0x60 ≤ page.toNat) (h : dmaCopy oamAddr page k s = .ok ((), t)) :
    t.board = { s.board with gfx := { s.board.gfx with oam := t.board.gfx.oam } } ∧
      ∀ j : Byte, Cells.read t.board.gfx.oam (oamAddr + j).toNat =
        if 256 - k ≤ j.toNat then s.byteAt (wordOf j page) else Cells.read s.board.gfx.oam (oamAddr + j).toNat := by
  induction k generalizing s with
  | zero =>
    cases h
    refine ⟨rfl, fun j => (if_neg ?_).symm⟩
    have := j.isLt
    omega
  | succ k ih =>
    rw [dmaCopy_succ_plain hs hpage] at h
    obtain ⟨hboard, hread⟩ := ih (hs.copied _ _ _) (by omega) h
    refine ⟨hboard, fun j => ?_⟩
    have hindex : j = BitVec.ofNat 8 (255 - k) ↔ j.toNat = 255 - k := by
      rw [← BitVec.toNat_inj, BitVec.toNat_ofNat, Nat.mod_eq_of_lt (by omega)]
    rw [hread j, State.byteAt_copied, State.read_oam_copied hs]
    by_cases hj : j = BitVec.ofNat 8 (255 - k)
    · have hval := hindex.1 hj
      rw [if_neg (by omega), if_pos hj, if_pos (by omega), ← hj]
    · have hval := mt hindex.2 hj
      rw [if_neg hj]
      exact if_congr (by omega) rfl rfl

end Machine

open Machine

/-- Settles O47: `memRead_ram` on both states, with the read after the write in between. -/
theorem ramMirrors : Obligations.RamMirrors := by
  intro s a b u hs ha hb
  refine ⟨s.writeRam a u, Cells.read s.ram (ramOffset b), memWrite_ram ha u s, rfl, memRead_ram hb s, ?_⟩
  rw [memRead_ram hb, State.writeRam_ram, Cells.read_write hs.ram.wf]
  simp only [ramOffset, eq_comm]

/-- Settles O48: `memRead_device`, and the two rows that draw a free value. -/
theorem deviceReads : Obligations.DeviceReads := by
  refine ⟨fun s addr ha hb => memRead_device ha (by omega) (by omega) (by omega) s,
    fun s addr => ⟨fun h => ?_, fun h => ?_⟩⟩
  · rcases h with rfl | rfl | ⟨ha, hb⟩
    · exact memRead_device (by decide) (by decide) (by decide) (by decide) s
    · exact memRead_device (by decide) (by decide) (by decide) (by decide) s
    · exact memRead_device (by omega) hb (by omega) (by omega) s
  · rcases h with rfl | rfl <;> exact ⟨_, rfl⟩

/-- Settles O49. -/
theorem oamDma : Obligations.OamDma := by
  intro s page hs
  obtain ⟨t, ht, -⟩ := oamDma_ok hs page
  obtain ⟨hrest, hoamAddr⟩ := oamDma_spec ht
  obtain ⟨r, hcopy, hboard⟩ := oamDma_copies ht
  have hstall : s.stall + (if s.cycles % 2 = 1 then 514 else 513) = s.stall + 513 + s.cycles % 2 := by
    split <;> omega
  refine ⟨t, ht, hstall ▸ hrest, hoamAddr, oamDma_dmaTo ht, fun hpage => ?_⟩
  rw [hboard]
  obtain ⟨hkept, hread⟩ := dmaCopy_plain hs le_rfl hpage hcopy
  exact ⟨hkept, fun k => hread k⟩

end Sys2Proof
end

section
/-! The frame of a bus write, and so of an instruction that stores to its operand (spec/20_memory.md R81, R91, R100,
R106). -/

namespace Sys2Proof

namespace Machine

variable {s t : State} {addr other : Word} {u : Byte}

/-- What a write can do, by the row of its address. -/
theorem memWrite_cases (h : memWrite addr u s = .ok ((), t)) :
    (addr.toNat < 0x2000 ∧ t = s.writeRam addr u) ∨
    (0x2000 ≤ addr.toNat ∧ addr.toNat < 0x4000 ∧
      ∃ b, t = { s with board := b } ∧ b.mapper = { s.board.mapper with chr := b.mapper.chr }) ∨
    (addr = 0x4014#16 ∧ s.board.DmaTo t.board ∧ t.ram = s.ram) ∨
    (0x4000 ≤ addr.toNat ∧ addr ≠ 0x4014#16 ∧ t = s) ∨
    (0x6000 ≤ addr.toNat ∧
      t = { s with board := { s.board with mapper := s.board.mapper.write addr u } }) := by
  unfold memWrite at h
  split at h
  · rename_i hram
    cases h
    exact .inl ⟨hram, rfl⟩
  · split at h
    · rename_i hdma
      exact .inr (.inr (.inl ⟨toNat_eq_dma.1 hdma, oamDma_dmaTo h, by rw [(oamDma_spec h).1]⟩))
    · rename_i hram hdma
      rw [toNat_eq_dma] at hdma
      split at h <;> cases h
      rename_i b hb
      unfold Board.busWrite at hb
      split at hb
      · rename_i hreg
        exact .inr (.inl ⟨by omega, hreg, b, rfl, (Board.writeRegister_frame hb).1⟩)
      · split at hb <;> cases hb
        · exact .inr (.inr (.inr (.inl ⟨by omega, hdma, rfl⟩)))
        · exact .inr (.inr (.inr (.inr ⟨by omega, rfl⟩)))

theorem State.byteAt_congr_prog (hr : t.ram = s.ram) (hsave : t.board.mapper.saveRam = s.board.mapper.saveRam)
    (hprog : t.board.mapper.prog = s.board.mapper.prog) (addr : Word) : t.byteAt addr = s.byteAt addr := by
  simp only [State.byteAt, Mapper.read, hr, hsave, hprog]

/-- The bytes of the mapper's save RAM and program window after a write to the mapper. -/
theorem Mapper.read_write {m : Mapper} (hm : m.Ok) (ha : 0x6000 ≤ addr.toNat) (hb : 0x6000 ≤ other.toNat)
    (hne : addr ≠ other) (hwindow : other.toNat < 0x8000 ∨ addr.toNat < 0x8000 ∨ m.header.variant = .fixed) :
    (m.write addr u).read other = m.read other := by
  have hne' : addr.toNat ≠ other.toNat := fun h => hne (BitVec.eq_of_toNat_eq h)
  by_cases hsave : addr.toNat < 0x8000
  · rw [Mapper.write_saveRam hsave]
    by_cases hother : other.toNat < 0x8000
    · have hcell : ¬ other.toNat - 0x6000 = addr.toNat - 0x6000 := by omega
      simp only [Mapper.read, hother, if_true, Cells.read_write hm.saveRam.wf, hcell, if_false]
    · simp only [Mapper.read, hother, if_false]
  · rw [Mapper.write_register (Nat.le_of_not_lt hsave)]
    rcases hwindow with hother | hsave' | hfixed
    · simp only [Mapper.read, hother, if_true, (Mapper.writeRegister_saveRam_data m addr u).1]
    · exact absurd hsave' hsave
    · rw [Mapper.writeRegister_fixed hfixed]

/-- A write changes the cell it names and no other, but for what a mapper register shows in the program window. -/
theorem memWrite_byteAt (hs : s.Inv) (h : memWrite addr u s = .ok ((), t)) (hcell : sameCell addr other = false)
    (hwindow : other.toNat < 0x8000 ∨ addr.toNat < 0x8000 ∨ s.board.mapper.header.variant = .fixed) :
    t.byteAt other = s.byteAt other := by
  rcases memWrite_cases h with ⟨hram, rfl⟩ | ⟨-, -, b, rfl, hb⟩ | ⟨-, hdma, hram⟩ | ⟨-, -, rfl⟩ | ⟨ha, rfl⟩
  · rw [State.byteAt_writeRam hs hram, hcell]
    rfl
  · have hsave : b.mapper.saveRam = s.board.mapper.saveRam := by rw [hb]
    have hprog : b.mapper.prog = s.board.mapper.prog := by rw [hb]
    exact State.byteAt_congr_prog (s := s) (t := { s with board := b }) rfl hsave hprog other
  · exact State.byteAt_congr hram hdma.mapper other
  · rfl
  · have hne : addr ≠ other := by
      rintro rfl
      simp [sameCell] at hcell
    by_cases hother : other.toNat < 0x6000
    · simp only [State.byteAt, hother, if_true]
    · simp only [State.byteAt, Mapper.read_write hs.board.mapper ha (Nat.le_of_not_lt hother) hne hwindow]

theorem Mapper.write_data (m : Mapper) (addr : Word) (u : Byte) :
    (m.write addr u).prog.data = m.prog.data ∧ (m.write addr u).chr.data = m.chr.data := by
  unfold Mapper.write
  split
  · exact ⟨rfl, rfl⟩
  · exact (Mapper.writeRegister_saveRam_data m addr u).2

/-- No write changes the program bytes; the graphics bytes, nametables, palette and OAM change by the graphics
registers only, OAM and the stall counter also by an OAM DMA. -/
theorem memWrite_graphics (h : memWrite addr u s = .ok ((), t)) :
    t.board.mapper.prog.data = s.board.mapper.prog.data ∧
      ((addr.toNat < 0x2000 ∨ 0x4000 ≤ addr.toNat) →
        t.board.mapper.chr.data = s.board.mapper.chr.data ∧
        t.board.gfx.nametable = s.board.gfx.nametable ∧ t.board.gfx.palette = s.board.gfx.palette ∧
        (addr ≠ 0x4014#16 → t.board.gfx.oam = s.board.gfx.oam ∧ t.stall = s.stall)) := by
  rcases memWrite_cases h with ⟨-, rfl⟩ | ⟨hlo, hhi, b, rfl, hb⟩ | ⟨haddr, hdma, -⟩ | ⟨-, -, rfl⟩ | ⟨-, rfl⟩
  · exact ⟨rfl, fun _ => ⟨rfl, rfl, rfl, fun _ => ⟨rfl, rfl⟩⟩⟩
  · have hprog : b.mapper.prog = s.board.mapper.prog := by rw [hb]
    exact ⟨congrArg BankMemory.data hprog, fun hrange => by omega⟩
  · rw [hdma.mapper]
    exact ⟨rfl, fun _ => ⟨rfl, hdma.nametable, hdma.palette, fun hne => absurd haddr hne⟩⟩
  · exact ⟨rfl, fun _ => ⟨rfl, rfl, rfl, fun _ => ⟨rfl, rfl⟩⟩⟩
  · obtain ⟨hprog, hchr⟩ := Mapper.write_data s.board.mapper addr u
    exact ⟨hprog, fun _ => ⟨hchr, rfl, rfl, fun _ => ⟨rfl, rfl⟩⟩⟩

theorem Board.ReadsTo.memories {b b' : Board} (h : b.ReadsTo b') : b'.gfx.nametable = b.gfx.nametable ∧
    b'.gfx.palette = b.gfx.palette ∧ b'.gfx.oam = b.gfx.oam := by
  rw [h]
  exact ⟨rfl, rfl, rfl⟩

end Machine

open Machine

/-- Settles O21: `exec_stores` reduces it to the frame of one write, since the reads before it change no memory. -/
theorem storeFrame : Obligations.StoreFrame := by
  intro i m s hs hw hstore
  obtain ⟨addr, h, b, c, u, t, z, n, hreach, hb, hwrite, hexec, -⟩ := exec_stores hs hw hstore
  have hinv := hreach.inv hs
  have hinv' : ({ h with board := b, c := c } : State).Inv := ⟨hinv.ram, hb.ok hinv.board, hinv.loaded⟩
  obtain ⟨row, -, hboard, hh⟩ := hreach.spec
  have hread := hboard.trans hb
  have hram : h.ram = s.ram := by rw [hh]
  have hstall : h.stall = s.stall := by rw [hh]
  obtain ⟨hnametable, hpalette, hoam⟩ := hread.memories
  obtain ⟨hdata, hgraphics⟩ := memWrite_graphics hwrite
  refine ⟨addr, h, _, hreach, hexec, fun other hcell hwindow => ?_, ?_, fun hrange => ?_⟩
  · have hbyte := memWrite_byteAt hinv' hwrite hcell (hread.mapper ▸ hwindow)
    exact hbyte.trans (State.byteAt_congr (t := { h with board := b, c := c }) hram hread.mapper other)
  · rw [← hread.mapper]
    exact hdata
  · obtain ⟨hchr, hnametable', hpalette', hrest⟩ := hgraphics hrange
    rw [← hread.mapper, ← hnametable, ← hpalette, ← hoam, ← hstall]
    exact ⟨hchr, hnametable', hpalette', hrest⟩

end Sys2Proof
end

section
/-! The mapper's registers: variant B's serial protocol, variant D's registers and counter (spec/20_memory.md R108,
R109, R111). -/

namespace Sys2Proof

namespace Machine

variable {m : Mapper} {addr : Word} {u : Byte}

theorem msb_eq_getLsbD_seven (u : Byte) : u.msb = u.getLsbD 7 := rfl

/-! ### Variant B -/

theorem Mapper.write_shiftRegister (hv : m.header.variant = .shiftRegister) (ha : 0x8000 ≤ addr.toNat) (u : Byte) :
    m.write addr u = m.writeShift addr u := by
  rw [Mapper.write_register ha, Mapper.writeRegister, hv]

/-- A write with bit 7 clear accumulates one bit while fewer than four are held. -/
theorem Mapper.write_accumulates (hv : m.header.variant = .shiftRegister) (ha : 0x8000 ≤ addr.toNat)
    (hu : u.getLsbD 7 = false) {shift : BitVec 5} {n : Nat} (hn : n < 4) :
    ({ m with shift := shift, shiftCount := n } : Mapper).write addr u =
      { m with shift := shiftIn shift u, shiftCount := n + 1 } := by
  refine (Mapper.write_shiftRegister (m := { m with shift := shift, shiftCount := n }) hv ha u).trans ?_
  rw [Mapper.writeShift, msb_eq_getLsbD_seven, hu]
  exact (if_neg Bool.false_ne_true).trans (if_neg hn.ne)

/-- The fifth write dispatches and empties the register. -/
theorem Mapper.write_dispatches (hv : m.header.variant = .shiftRegister) (ha : 0x8000 ≤ addr.toNat)
    (hu : u.getLsbD 7 = false) (shift : BitVec 5) :
    ({ m with shift := shift, shiftCount := 4 } : Mapper).write addr u =
      ({ m with shift := 0#5, shiftCount := 0 } : Mapper).applyShift (Config.shiftTarget addr) (shiftIn shift u) := by
  refine (Mapper.write_shiftRegister (m := { m with shift := shift, shiftCount := 4 }) hv ha u).trans ?_
  rw [Mapper.writeShift, msb_eq_getLsbD_seven, hu]
  rfl

/-- The new bit is at the end where it enters, and the held ones have moved by one place. -/
theorem getLsbD_shiftIn (shift : BitVec 5) (u : Byte) {k : Nat} (hk : k < 5) :
    (shiftIn shift u).getLsbD k =
      if Config.shiftFromTop then (if k = 4 then u.getLsbD Config.shiftBit else shift.getLsbD (k + 1))
      else if k = 0 then u.getLsbD Config.shiftBit else shift.getLsbD (k - 1) := by
  unfold shiftIn
  dsimp only
  cases Config.shiftFromTop
  · rw [if_neg Bool.false_ne_true, if_neg Bool.false_ne_true,
      BitVec.getLsbD_append (x := shift.extractLsb' 0 4) (y := BitVec.ofBool _)]
    cases k with
    | zero => simp
    | succ k => simp [-BitVec.getLsbD_eq_getElem]; omega
  · rw [if_pos rfl, if_pos rfl, BitVec.getLsbD_append (x := BitVec.ofBool _) (y := shift.extractLsb' 1 4)]
    by_cases hk4 : k < 4
    · simp [-BitVec.getLsbD_eq_getElem, hk4, Nat.add_comm]; omega
    · obtain rfl : k = 4 := by omega
      simp

/-- The bits of five writes, in the order written, from the end away from where they enter. -/
theorem getLsbD_shiftIn_five (us : Fin 5 → Byte) (k : Fin 5) :
    (shiftIn (shiftIn (shiftIn (shiftIn (shiftIn 0#5 (us 0)) (us 1)) (us 2)) (us 3)) (us 4)).getLsbD
      (if Config.shiftFromTop then k else 4 - k.val) = (us k).getLsbD Config.shiftBit := by
  cases htop : Config.shiftFromTop <;> fin_cases k <;> simp [getLsbD_shiftIn, htop, -BitVec.getLsbD_eq_getElem]

/-! ### Variant D -/

theorem Mapper.write_scanline (hv : m.header.variant = .scanlineIrq) (ha : 0x8000 ≤ addr.toNat) (u : Byte) :
    m.write addr u = m.writeScanline addr u := by
  rw [Mapper.write_register ha, Mapper.writeRegister, hv]

theorem Mapper.tick_scanline (hv : m.header.variant = .scanlineIrq) (k : Nat) :
    m.tick k = ({ m with counter := m.nextCounter k, reload := false },
      m.irqEnable && m.nextCounter k == 0#8 && Config.scanlineFilter k) := by
  rw [Mapper.tick, hv]

theorem Mapper.nextCounter_counts (hr : m.reload = false) (hc : m.counter ≠ 0#8) (k : Nat) :
    (m.nextCounter k).toNat = m.counter.toNat - 1 := by
  have hpos : m.counter.toNat ≠ 0 := fun h => hc (BitVec.eq_of_toNat_eq h)
  have hlt := m.counter.isLt
  rw [Mapper.nextCounter, hr, if_neg Bool.false_ne_true, if_neg hc, BitVec.toNat_sub]
  show (2 ^ 8 - 1 + m.counter.toNat) % 2 ^ 8 = _
  omega

/-- Clocks without a reload request count down by 1 each. -/
theorem Mapper.counter_foldl_tick (hv : m.header.variant = .scanlineIrq) (hr : m.reload = false) (ks : List Nat)
    (hlen : ks.length ≤ m.counter.toNat) :
    (ks.foldl (fun m' j => (m'.tick j).1) m).counter.toNat = m.counter.toNat - ks.length := by
  induction ks generalizing m with
  | nil => rfl
  | cons k ks ih =>
    rw [List.length_cons] at hlen ⊢
    have hc : m.counter ≠ 0#8 := by
      intro h
      rw [h] at hlen
      exact absurd hlen (by simp)
    have hnext := Mapper.nextCounter_counts hr hc k
    rw [List.foldl_cons, Mapper.tick_scanline hv]
    rw [ih (m := { m with counter := m.nextCounter k, reload := false }) hv rfl (by rw [hnext]; omega)]
    show (m.nextCounter k).toNat - _ = _
    omega

end Machine

open Machine

/-- Settles O51: the reset write and the accumulating write by the protocol's branches; five writes are four that
accumulate and one that dispatches. -/
theorem shiftRegisterWrites : Obligations.ShiftRegisterWrites := by
  refine ⟨fun m addr u hv ha hu => ⟨?_, Mapper.tick_silent (by rw [hv]; exact Variant.noConfusion)⟩,
    fun m addr u hv ha hu hn => Mapper.write_accumulates hv ha hu hn, fun m addrs us hv hshift hcount ha hu => ?_⟩
  · rw [Mapper.write_shiftRegister hv ha, Mapper.writeShift, msb_eq_getLsbD_seven, hu]
    rfl
  · have hm : ({ m with shift := 0#5, shiftCount := 0 } : Mapper) = m := by rw [← hshift, ← hcount]
    refine ⟨_, getLsbD_shiftIn_five us, ?_⟩
    conv_lhs => rw [← hm]
    rw [Mapper.write_accumulates hv (ha 0) (hu 0) (by decide), Mapper.write_accumulates hv (ha 1) (hu 1) (by decide),
      Mapper.write_accumulates hv (ha 2) (hu 2) (by decide), Mapper.write_accumulates hv (ha 3) (hu 3) (by decide),
      Mapper.write_dispatches hv (ha 4) (hu 4), hm]

/-- Settles O53: each register by its arm of `writeScanline`, the clock by `tick_scanline` and `nextCounter_counts`. -/
theorem scanlineRegistersAndCounter : Obligations.ScanlineRegistersAndCounter := by
  refine ⟨fun m addr u hv ha => ?_, fun m k hv => ?_, fun m k ks hv hr hlen => ?_⟩
  · rw [Mapper.write_scanline hv ha, Mapper.writeScanline]
    cases Config.scanlineRegister addr
    case bankData =>
      refine ⟨(Config.scanlineBank m.bankSelect u).window, ?_⟩
      dsimp only
      rw [Mapper.writeScanlineBank]
      cases (Config.scanlineBank m.bankSelect u).onProgram
      · exact .inr rfl
      · exact .inl rfl
    all_goals rfl
  · rw [Mapper.tick_scanline hv]
    refine ⟨rfl, fun hr hc => Mapper.nextCounter_counts hr hc k, fun hirq => ?_, fun hen hzero => ?_⟩
    · simp only [Bool.and_eq_true, beq_iff_eq] at hirq
      exact hirq.1
    · dsimp only at hzero ⊢
      rw [hen, hzero]
      rfl
  · have hnext : m.nextCounter k = m.latch := by rw [Mapper.nextCounter, hr, if_pos rfl]
    rw [Mapper.tick_scanline hv, hnext]
    exact Mapper.counter_foldl_tick (m := { m with counter := m.latch, reload := false }) hv rfl ks hlen

end Sys2Proof
end

section
/-! The program window after a bank switch, a load and a reset (spec/20_memory.md R102, R107, R110, R114, R119;
spec/70_reset_and_hazards.md R400 to R405, R421). -/

namespace Sys2Proof

namespace Machine

variable {s t : State} {b : BankMemory}

/-! ### The program window -/

theorem toNat_program {k : Nat} (hk : k < 0x8000) : (BitVec.ofNat 16 (0x8000 + k)).toNat = 0x8000 + k := by
  rw [BitVec.toNat_ofNat]
  omega

/-- A byte of the program window is the program Bank Memory's byte (R105). -/
theorem State.byteAt_program {k : Nat} (hk : k < 0x8000) {u : Byte} (h : s.board.mapper.prog.read k = .ok u) :
    s.byteAt (BitVec.ofNat 16 (0x8000 + k)) = u := by
  have hram : ¬ 0x8000 + k < 0x2000 := by omega
  have hdevice : ¬ 0x8000 + k < 0x6000 := by omega
  have hsave : ¬ 0x8000 + k < 0x8000 := by omega
  simp only [State.byteAt, Mapper.read, toNat_program hk, hram, hdevice, hsave, if_false, Nat.add_sub_cancel_left, h]

theorem BankMemory.read_congr {b' : BankMemory} {addr : Nat} (hdata : b'.data = b.data) (hsize : b'.size = b.size)
    (hwindow : b'.windowSize = b.windowSize) (hpage : b'.pageSize = b.pageSize)
    (hptr : b'.pointers[addr / b.pageSize]? = b.pointers[addr / b.pageSize]?) : b'.read addr = b.read addr := by
  simp only [BankMemory.read, BankMemory.resolve, hdata, hsize, hwindow, hpage, hptr]

/-- A Bank Memory with the 32 page pointers of the program window. -/
structure BankMemory.IsProgram (b : BankMemory) : Prop where
  page     : b.pageSize = 0x400
  window   : b.windowSize = 0x8000
  pointers : b.pointers.length = 32

theorem BankMemory.Ok.isProgram (h : b.Ok 0x8000) : b.IsProgram := by
  have hcovered := h.covered
  rw [h.page] at hcovered
  exact ⟨h.page, h.size, Nat.eq_of_mul_eq_mul_right (by decide : 0 < 0x400) hcovered⟩

theorem BankMemory.IsProgram.switchBank (h : b.IsProgram) (w0 w1 n : Nat) : (b.switchBank w0 w1 n).IsProgram :=
  ⟨h.page, h.window, (BankMemory.switchPages_pointers_length ..).trans h.pointers⟩

section
variable (h : b.IsProgram) {half : Nat} (hhalf : half < 2) (n : Nat)
include h hhalf

/-- What `SwitchBank` says of a half of the program window. -/
theorem BankMemory.IsProgram.switchBank_half :
    (∀ j, j < half * 16 ∨ (half + 1) * 16 ≤ j →
      (b.switchBank (half * 0x4000) ((half + 1) * 0x4000) n).pointers[j]? = b.pointers[j]?) ∧
    ∀ k, k < 0x4000 → n * 0x4000 + k < b.size →
      (b.switchBank (half * 0x4000) ((half + 1) * 0x4000) n).read (half * 0x4000 + k) =
        .ok (Cells.read b.data (n * 0x4000 + k)) := by
  have hlen : (half + 1) * 0x4000 - half * 0x4000 = 0x4000 := by omega
  obtain ⟨-, -, -, -, houtside, hinside⟩ := Sys2Proof.switchBank b (half * 0x4000) ((half + 1) * 0x4000) n
    (by rw [h.page]; decide) ⟨half * 16, by rw [h.page]; omega⟩ ⟨(half + 1) * 16, by rw [h.page]; omega⟩ (by omega)
    (by rw [h.page, h.pointers]; omega)
  rw [h.page] at houtside
  rw [hlen, h.window] at hinside
  exact ⟨fun j hj => houtside j (by omega), fun k hk => hinside k hk (by omega)⟩

/-- A switched half of the program window shows the bank (R102). -/
theorem BankMemory.IsProgram.read_inside {k : Nat} (hk : k < 0x4000) (hn : n * 0x4000 + k < b.size) :
    (b.switchBank (half * 0x4000) ((half + 1) * 0x4000) n).read (half * 0x4000 + k) =
      .ok (Cells.read b.data (n * 0x4000 + k)) := (h.switchBank_half hhalf n).2 k hk hn

/-- The other half is as before (R102). -/
theorem BankMemory.IsProgram.read_outside {addr : Nat}
    (haddr : addr < half * 0x4000 ∨ (half + 1) * 0x4000 ≤ addr) :
    (b.switchBank (half * 0x4000) ((half + 1) * 0x4000) n).read addr = b.read addr := by
  refine BankMemory.read_congr rfl rfl rfl rfl ?_
  rw [h.page]
  exact (h.switchBank_half hhalf n).1 _ (by omega)

end

theorem BankMemory.IsProgram.read_low (h : b.IsProgram) (n : Nat) {k : Nat} (hk : k < 0x4000)
    (hn : n * 0x4000 + k < b.size) :
    (b.switchBank 0x0000 0x4000 n).read k = .ok (Cells.read b.data (n * 0x4000 + k)) := by
  have hread := h.read_inside (half := 0) (by decide) n hk hn
  simpa only [Nat.zero_mul, Nat.zero_add, Nat.one_mul] using hread

/-! ### A cartridge -/

theorem variantOfId_cases (id : Nat) :
    (id ∈ [0, 1, 2, 4] → ∃ v, variantOfId id = some v) ∧ (id ∉ [0, 1, 2, 4] → variantOfId id = none) := by
  refine ⟨fun h => ?_, fun h => ?_⟩
  · fin_cases h <;> exact ⟨_, rfl⟩
  · rw [variantOfId, List.find?_eq_none]
    rintro v - hid
    refine h ?_
    rw [← beq_iff_eq.1 hid]
    cases v <;> decide

/-- The program window of a mapper built from a header: bank 0 low, the last bank high (R404). -/
theorem buildMapper_read {h : Header} (hb : 0 < h.progBanks) (prog chr saveRam : Memory) {k : Nat} (hk : k < 0x4000) :
    (buildMapper h prog chr saveRam).prog.read k = .ok (Cells.read prog k) ∧
    (buildMapper h prog chr saveRam).prog.read (0x4000 + k) =
      .ok (Cells.read prog ((h.progBanks - 1) * 0x4000 + k)) := by
  let whole : BankMemory :=
    { data := prog, size := h.progBanks * 0x4000, windowSize := 0x8000, fixed := h.variant == .fixed,
      pageSize := Config.pageSize, pointers := List.range (0x8000 / Config.pageSize) }
  have hwhole : whole.IsProgram := ⟨rfl, rfl, rfl⟩
  have hlow : (whole.switchBank 0x0000 0x4000 0).IsProgram := hwhole.switchBank _ _ _
  refine ⟨?_, hlow.read_inside (half := 1) (by decide) (h.progBanks - 1) hk ?_⟩
  · refine (hlow.read_outside (half := 1) (by decide) (h.progBanks - 1) (by omega)).trans ?_
    have hread := hwhole.read_low 0 hk (show 0 * 0x4000 + k < h.progBanks * 0x4000 by omega)
    rwa [Nat.zero_mul, Nat.zero_add] at hread
  · show (h.progBanks - 1) * 0x4000 + k < h.progBanks * 0x4000
    omega

theorem Mapper.rebuilt_read {m : Mapper} (hb : 0 < m.header.progBanks) {k : Nat} (hk : k < 0x4000) :
    m.rebuilt.prog.read k = .ok (Cells.read m.prog.data k) ∧
    m.rebuilt.prog.read (0x4000 + k) = .ok (Cells.read m.prog.data ((m.header.progBanks - 1) * 0x4000 + k)) :=
  buildMapper_read hb _ _ _ hk

theorem imageMapper_ok {h : Header} (hb : 0 < h.progBanks) {image : Memory} (himage : Cells.wf image = true) :
    (imageMapper h image).Ok := by
  refine buildMapper_ok hb ((Cells.Ok.slice _ _ himage).mono ?_) ((Cells.Ok.slice _ _ himage).mono ?_) (Cells.Ok.nil _)
  · omega
  · omega

theorem parseHeader_ok {image : Memory} {v : Variant} (hv : variantOfId (imageMapperId image) = some v) :
    ∃ h, parseHeader image = .ok h ∧ h.progBanks = (Cells.read image 4).toNat :=
  ⟨_, by rw [parseHeader, hv], rfl⟩

/-- A load with a recognised header starts from the mapper of the image, built once more by the reset (R400, R404). -/
theorem loadImage_ok (hs : s.Inv) {image : Memory} (himage : Cells.wf image = true) {h : Header}
    (hparse : parseHeader image = .ok h) (hb : 0 < h.progBanks) :
    ∃ t, loadImage image s = .next t ∧ t.Inv ∧ t.board.mapper = (imageMapper h image).rebuilt := by
  let inserted : State := { s with board := { s.board with mapper := imageMapper h image }, loaded := true }
  have hrebuilt : inserted.board.mapper.rebuilt.Ok := (imageMapper_ok hb himage).rebuilt
  have hcleared := State.cleared_inv (s := inserted) rfl hs.ram hrebuilt
  refine ⟨{ inserted.cleared with pc := inserted.cleared.pointerAt Config.resetVector }, ?_,
    ⟨hcleared.ram, hcleared.board, hcleared.loaded⟩, rfl⟩
  rw [loadImage, hparse]
  exact resetMachine_apply (s := inserted) rfl hs.ram hrebuilt

theorem imageMapper_rebuilt_read {h : Header} (hb : 0 < h.progBanks) (image : Memory) {k : Nat} (hk : k < 0x4000) :
    (imageMapper h image).rebuilt.prog.read k = .ok (Cells.read image (16 + k)) ∧
    (imageMapper h image).rebuilt.prog.read (0x4000 + k) =
      .ok (Cells.read image (16 + (h.progBanks - 1) * 0x4000 + k)) := by
  have hslice : ∀ j, j < h.progBanks * 0x4000 →
      Cells.read (imageMapper h image).prog.data j = Cells.read image (16 + j) := fun j hj =>
    (Cells.read_slice ..).trans (if_pos (by omega))
  obtain ⟨hlow, hhigh⟩ := Mapper.rebuilt_read (m := imageMapper h image) hb hk
  rw [hslice _ (by omega)] at hlow
  rw [hslice _ (by show (h.progBanks - 1) * 0x4000 + k < h.progBanks * 0x4000; omega)] at hhigh
  exact ⟨hlow, by rw [Nat.add_assoc]; exact hhigh⟩

end Machine

open Machine

/-- Settles O52: the switched half reads the selected bank and the other half is outside the switch. -/
theorem switchableWrites : Obligations.SwitchableWrites := by
  intro addr u s hs hv ha
  have hok := hs.board.mapper
  have hprog := hok.prog.isProgram
  have hwrite : s.board.mapper.write addr u = s.board.mapper.writeSwitchable u := by
    rw [Mapper.write_register ha, Mapper.writeRegister, hv]
  have hbank : u.toNat % s.board.mapper.header.progBanks < s.board.mapper.header.progBanks :=
    Nat.mod_lt _ hok.progBanks
  refine ⟨_, s.board.mapper.prog.switchBank 0x0000 0x4000 (u.toNat % s.board.mapper.header.progBanks),
    memWrite_mapper (by omega) u s, ?_, ?_, rfl, fun k hk => ⟨?_, ?_⟩⟩
  · exact ⟨hs.ram, ⟨hs.board.gfx, hok.write (by omega) u⟩, hs.loaded⟩
  · rw [hwrite]
    rfl
  · rw [hwrite]
    exact State.byteAt_program (by omega) (hprog.read_low _ hk (by rw [hok.progSize]; omega))
  · obtain ⟨v, hv⟩ := BankMemory.read_ok hok.prog (show 0x4000 + k < 0x8000 by omega)
    have hhigh : 0xC000 + k = 0x8000 + (0x4000 + k) := by omega
    have hsame := hprog.read_outside (half := 0) (by decide) (u.toNat % s.board.mapper.header.progBanks)
      (addr := 0x4000 + k) (by omega)
    rw [hwrite, hhigh, State.byteAt_program (s := s) (by omega) hv]
    exact State.byteAt_program (by omega) (hsame.trans hv)

/-- Settles O3: the header decides the variant and the sizes, a reset keeps what the load built, and after an unload
only the mapper and the loaded flag differ. -/
theorem loadAndUnloadCartridge : Obligations.LoadAndUnloadCartridge := by
  refine ⟨fun image s hs himage hbanks => ⟨fun hid => ?_, fun hid => ?_⟩,
    fun s => ⟨fun _ => rfl, rfl, rfl, rfl, rfl, fun _ => rfl⟩⟩
  · rw [loadImage, parseHeader, (variantOfId_cases _).2 hid]
  · obtain ⟨v, hv⟩ := (variantOfId_cases _).1 hid
    obtain ⟨h, hparse, hcount⟩ := parseHeader_ok hv
    have hb : 0 < h.progBanks := by
      rw [hcount]
      exact Nat.pos_of_ne_zero fun hzero => hbanks (BitVec.eq_of_toNat_eq hzero)
    obtain ⟨t, ht, hinv, hmapper⟩ := loadImage_ok hs himage hparse hb
    refine ⟨t, ht, hinv, fun k hk => ?_⟩
    obtain ⟨hlow, hhigh⟩ := imageMapper_rebuilt_read hb image hk
    rw [← hmapper] at hlow hhigh
    have haddr : 0xC000 + k = 0x8000 + (0x4000 + k) := by omega
    rw [State.byteAt_program (by omega) hlow, haddr, State.byteAt_program (by omega) hhigh, hcount]
    exact ⟨rfl, rfl⟩

/-- Settles O1: the closed form of a reset, field by field. -/
theorem resetRegisters : Obligations.ResetRegisters := by
  intro s hs
  have hrebuilt := hs.board.mapper.rebuilt
  have hcleared := State.cleared_inv hs.loaded hs.ram hrebuilt
  refine ⟨_, resetMachine_apply hs.loaded hs.ram hrebuilt, ⟨hcleared.ram, hcleared.board, hcleared.loaded⟩,
    rfl, rfl, rfl, rfl, rfl, rfl, rfl, rfl, rfl, rfl, rfl, rfl, rfl, ?_, rfl, rfl, rfl⟩
  exact (State.pointerAt_setPc _ _ _).symm

/-- Settles O2: the blank cartridge's memories are empty and its pages are those of the window. -/
theorem resetInvariant : Obligations.ResetInvariant :=
  { ram := Cells.Ok.nil _
    board :=
      { gfx := Gfx.Ok.reset
        mapper :=
          { prog := ⟨rfl, rfl, by decide, by decide, Cells.Ok.nil _⟩
            chr := ⟨rfl, rfl, by decide, by decide, Cells.Ok.nil _⟩
            progSize := rfl, chrSize := rfl, progBanks := by decide, saveRam := Cells.Ok.nil _, shift := by decide } }
    loaded := rfl }

end Sys2Proof
end

section
/-! The tick and the step (spec/60_exceptions.md R313, R320 to R324, R340 to R342), and runs of steps
(spec/70_reset_and_hazards.md R420). -/

namespace Sys2Proof

namespace Machine

variable {s t u : State} {i : Instr} {k : Interrupt}

/-! ### The fetch from plain memory -/

/-- From plain memory the fetch gives what the bytes at PC decode to, and changes nothing. -/
theorem fetchInstr_plain (hs : s.Inv) (h0 : plainAddress s.pc = true) (h1 : plainAddress (s.pc + 1#16) = true)
    (h2 : plainAddress (s.pc + 2#16) = true) {rest : List Byte}
    (hdecode : decode [s.byteAt s.pc, s.byteAt (s.pc + 1#16), s.byteAt (s.pc + 2#16)] = .ok (i, rest)) :
    fetchInstr s = .ok (i, s) := by
  unfold fetchInstr
  rw [Access.bind_get, Access.bind_of_ok (memRead_plain hs h0)]
  rcases instrLength_cases (s.byteAt s.pc) with hlen | hlen | hlen <;> rw [hlen]
  · rw [decode_one hlen] at hdecode
    cases hdecode
    rfl
  · rw [decode_two hlen] at hdecode
    cases hdecode
    exact Access.bind_of_ok (memRead_plain hs h1)
  · rw [decode_three hlen] at hdecode
    cases hdecode
    exact (Access.bind_of_ok (memRead_plain hs h1)).trans (Access.bind_of_ok (memRead_plain hs h2))

theorem tick_of_fetch (hstall : s.stall = 0) (hpending : s.pending = none) (hfetch : fetchInstr s = .ok (i, t)) :
    tick s = exec i t := by
  rw [(tickOrder s).2.2 hstall hpending, instructionTick, hfetch]

/-- A step goes on as its processor tick does. -/
theorem step_of_tick (hl : s.loaded = true) {o : Host.Outcome State Fault Refusal} (h : tick s = o) :
    (∀ u, o = .next u → step s = .next (u.runPlatform (u.cycles - s.cycles))) ∧
    (∀ f, o = .fault f → step s = .fault f) ∧ ∀ r, o = .refused r → step s = .refused r := by
  rw [step_of_loaded hl, h]
  refine ⟨?_, ?_, ?_⟩ <;> rintro x rfl <;> rfl

/-! ### Forwarding -/

/-- Of `k + 1` graphics ticks the last one's request is forwarded last. -/
theorem Board.run_succ (b : Board) (k : Nat) (slot : Option Interrupt) :
    b.run (k + 1) slot = ((b.run k slot).1.tick.1,
      forwardRequest Config.intSlotPolicy (b.run k slot).2 (b.run k slot).1.tick.2) := by
  induction k generalizing b slot with
  | zero => rfl
  | succ k ih => exact ih b.tick.1 _

/-! ### Runs -/

theorem run_succ_of_step {n : Nat} (h : step s = .next t) : run (n + 1) s = run n t := by
  rw [run, h]

theorem run_add {m n : Nat} (h : run m s = .next t) : run (m + n) s = run n t := by
  induction m generalizing s with
  | zero =>
    cases h
    rw [Nat.zero_add]
  | succ m ih =>
    rw [Nat.add_right_comm]
    cases hstep : step s with
    | next u =>
      rw [run_succ_of_step hstep] at h ⊢
      exact ih h
    | fault f | refused r =>
      rw [run, hstep] at h
      cases h

/-- Under the invariant a run goes on to its budget or ends in the fault of an absent opcode byte. -/
theorem run_cases (hs : s.Inv) (n : Nat) :
    (∃ t, run n s = .next t ∧ t.Inv) ∨ ∃ opcode pc, run n s = .fault (.absentOpcode opcode pc) := by
  induction n generalizing s with
  | zero => exact .inl ⟨s, rfl, hs⟩
  | succ n ih =>
    rcases step_cases hs with ⟨t, ht, hinv⟩ | ⟨opcode, -, hfault⟩
    · rw [run_succ_of_step ht]
      exact ih hinv
    · exact .inr ⟨opcode, s.pc, by rw [run, hfault]⟩

theorem runUntil_next {done : State → Bool} {n : Nat} (h : runUntil done n s = .next t) :
    ∃ k, k ≤ n ∧ run k s = .next t ∧ (k = n ∨ done t = true) ∧
      ∀ j, j < k → ∃ u, run j s = .next u ∧ done u = false := by
  induction n generalizing s with
  | zero => exact ⟨0, le_rfl, h, .inl rfl, nofun⟩
  | succ n ih =>
    unfold runUntil at h
    split at h
    · rename_i hdone
      cases h
      exact ⟨0, Nat.zero_le _, rfl, .inr hdone, nofun⟩
    · rename_i hdone
      cases hstep : step s with
      | next u =>
        rw [hstep] at h
        obtain ⟨k, hk, hrun, hend, hbefore⟩ := ih h
        refine ⟨k + 1, Nat.succ_le_succ hk, (run_succ_of_step hstep).trans hrun, hend.imp_left (congrArg Nat.succ), ?_⟩
        rintro (_ | j) hj
        · exact ⟨s, rfl, Bool.eq_false_iff.2 hdone⟩
        · obtain ⟨v, hv, hnot⟩ := hbefore j (Nat.lt_of_succ_lt_succ hj)
          exact ⟨v, (run_succ_of_step hstep).trans hv, hnot⟩
      | fault f | refused r =>
        rw [hstep] at h
        cases h

end Machine

open Machine

/-- Settles O13: the fetch answers, from plain memory without effects, and the step follows the tick. -/
theorem stepRunsDecoded : Obligations.StepRunsDecoded := by
  intro s hs hstall hpending
  refine ⟨?_, fun i rest h0 h1 h2 hdecode => ?_⟩
  · obtain ⟨i, t, hfetch, -, hreads⟩ := fetchInstr_ok hs
    exact ⟨i, t, hfetch, hreads, step_of_tick hs.loaded (tick_of_fetch hstall hpending hfetch)⟩
  · exact step_of_tick hs.loaded (tick_of_fetch hstall hpending (fetchInstr_plain hs h0 h1 h2 hdecode))

/-- Settles O15: the closed form of the interrupt tick, not masked. -/
theorem interruptEntry : Obligations.InterruptEntry := by
  intro s k hs hstall hpending hi
  have hmask : s.masks k = false := by
    cases k
    · rfl
    · exact hi rfl
  rw [(tickOrder s).2.1 hstall k hpending]
  refine Access.outcome_of_ok ((interruptTick_apply hs k).trans ?_)
  rw [hmask]
  cases k <;> rfl

/-- Settles O16: a masked request closes the tick at once, or stays in the slot under the other policy. -/
theorem maskedIrq : Obligations.MaskedIrq := by
  intro s hstall hpending hi
  have hmask : s.masks .irq = true := hi
  constructor
  · rw [(tickOrder s).2.1 hstall .irq hpending]
    refine Access.outcome_of_ok ?_
    rw [interruptTick, Access.bind_get, if_pos hmask]
    show Except.ok ((), s.closeInterrupt) = _
    rw [State.closeInterrupt, ← hi]
  · refine tickUnder_of_none_due hstall ?_
    unfold dueInterrupt
    rw [hpending]
    exact if_pos hmask

/-- Settles O55: `run_succ` under the policy taken, and `runPlatform` for a step. -/
theorem forwarding : Obligations.Forwarding := by
  refine ⟨fun b slot k => ⟨rfl, ?_⟩, fun s t hs ht => ?_, fun r => ⟨rfl, rfl, rfl⟩⟩
  · rw [Board.run_succ]
    cases (b.run k slot).1.tick.2 <;> rfl
  · exact ⟨_, (step_of_tick hs.loaded ht).1 t rfl, rfl⟩

/-- Settles O60: the laws of runs; a jump to itself is fetched whole and leaves PC where it is. -/
theorem runs : Obligations.Runs := by
  refine ⟨fun m n s t h => run_add h, fun n s hs => run_cases hs n, fun done n s t h => runUntil_next h,
    fun s hs hstall hpending h0 h1 h2 hbytes => ?_⟩
  have hdecode : decode [s.byteAt s.pc, s.byteAt (s.pc + 1#16), s.byteAt (s.pc + 2#16)] =
      .ok (.jmp (.absolute s.pc), []) := by
    rw [hbytes, ← List.append_nil (encode _), decode_encode rfl]
  have htick := tick_of_fetch hstall hpending (fetchInstr_plain hs h0 h1 h2 hdecode)
  rw [jumps.2.1] at htick
  simp [State.jumpsToItself, hstall, hpending, htick]

end Sys2Proof
end

section
/-! Interrupt requests of a graphics tick, and the raster position with rendering disabled: O54 and O56. -/

namespace Sys2Proof.Machine

open Sys2Proof

/-! ### The request of a graphics tick -/

theorem scanlineType_vblankStart {n : Nat} : scanlineType n = .vblankStart ↔ n = 241 := by
  constructor
  · intro h
    unfold scanlineType at h
    split at h
    · cases h
    · split at h
      · assumption
      · split at h <;> cases h
  · rintro rfl
    rfl

/-- On scanline 241 the line work is vblank start. -/
theorem Gfx.lineWork_vblankStart {g : Gfx} (h : g.scanline = 241) (k : Nat) :
    g.lineWork k = g.vblankStart := by
  unfold Gfx.lineWork
  rw [scanlineType_vblankStart.2 h]

/-- The line work requests nothing but an NMI, at scanline 241, cycle 1 with NMI output enabled. -/
theorem Gfx.lineWork_request (g : Gfx) (k : Nat) :
    (g.lineWork k).2 =
      if g.scanline = 241 ∧ g.cycle = 1 ∧ g.nmiEnable = true then some .nmi else none := by
  by_cases hline : g.scanline = 241
  · rw [Gfx.lineWork_vblankStart hline, Gfx.vblankStart]
    by_cases hcycle : g.cycle = 1 <;> simp [hline, hcycle]
  · rw [if_neg (fun h => hline h.1)]
    unfold Gfx.lineWork
    split
    case h_1 h => exact absurd (scanlineType_vblankStart.1 h) hline
    all_goals rfl

/-- The advance moves the raster position and, at a frame's end, the frame parity. -/
theorem Gfx.advanceOnce_moves (g : Gfx) :
    ∃ cycle scanline parity,
      g.advanceOnce = { g with cycle := cycle, scanline := scanline, frameParity := parity } := by
  unfold Gfx.advanceOnce
  split
  · exact ⟨_, _, _, rfl⟩
  · split
    · exact ⟨_, _, _, rfl⟩
    · exact ⟨_, _, _, rfl⟩

@[simp] theorem Gfx.advanceOnce_nmiOccurred (g : Gfx) : g.advanceOnce.nmiOccurred = g.nmiOccurred := by
  obtain ⟨_, _, _, h⟩ := g.advanceOnce_moves
  rw [h]

@[simp] theorem Gfx.advance_nmiOccurred (g : Gfx) : g.advance.nmiOccurred = g.nmiOccurred := by
  unfold Gfx.advance
  split <;> simp

/-- NMI-occurred is set at scanline 241, cycle 1. -/
theorem Board.tick_nmiOccurred {b : Board} (hline : b.gfx.scanline = 241) (hcycle : b.gfx.cycle = 1) :
    b.tick.1.gfx.nmiOccurred = true := by
  show ((b.gfx.lineWork b.freeCount).1.advance).nmiOccurred = true
  rw [Gfx.advance_nmiOccurred, Gfx.lineWork_vblankStart hline, Gfx.vblankStart, if_pos hcycle]

theorem Board.mapperWork_at_340 {b : Board} (h : b.gfx.cycle = 340) :
    b.mapperWork = b.mapper.tick b.freeCount := if_pos h

theorem Board.mapperWork_elsewhere {b : Board} (h : b.gfx.cycle ≠ 340) :
    b.mapperWork = (b.mapper, false) := if_neg h

/-- What a graphics tick requests: at cycle 340 an IRQ when the mapper says so, elsewhere an NMI when the line
work says so. -/
theorem Board.tick_request (b : Board) :
    b.tick.2 =
      if b.gfx.cycle = 340 then (if (b.mapper.tick b.freeCount).2 = true then some .irq else none)
      else if b.gfx.scanline = 241 ∧ b.gfx.cycle = 1 ∧ b.gfx.nmiEnable = true then some .nmi else none := by
  show (if b.mapperWork.2 = true then some Interrupt.irq else (b.gfx.lineWork b.freeCount).2) = _
  rw [Gfx.lineWork_request]
  by_cases h : b.gfx.cycle = 340
  · rw [Board.mapperWork_at_340 h, if_pos h, if_neg (c := b.gfx.scanline = 241 ∧ _) (by omega)]
  · rw [Board.mapperWork_elsewhere h, if_neg h]
    rfl

/-! ### The raster with rendering disabled -/

/-- Nothing is shown, NMI output is off and the mapper is none that requests an interrupt. -/
structure Board.Quiet (b : Board) : Prop where
  background : b.gfx.flags.showBackground = false
  sprites : b.gfx.flags.showSprites = false
  nmi : b.gfx.nmiEnable = false
  mapper : b.mapper.header.variant ≠ .scanlineIrq

/-- The number of positions of the raster before this one in a frame. -/
def Gfx.position (g : Gfx) : Nat := g.scanline * 341 + g.cycle

/-- With rendering disabled the clear-vblank event leaves frame-ready alone. -/
theorem Gfx.clearVblank_disabled {g : Gfx} (h : g.renderingEnabled = false) :
    ∃ occurred, g.clearVblank = { g with nmiOccurred := occurred } := by
  unfold Gfx.clearVblank
  split
  · exact ⟨false, by rw [h, Bool.or_false]⟩
  · exact ⟨_, rfl⟩

/-- With rendering disabled the line work changes nothing but NMI-occurred. -/
theorem Gfx.lineWork_disabled {g : Gfx} (h : g.renderingEnabled = false) (k : Nat) :
    ∃ occurred, (g.lineWork k).1 = { g with nmiOccurred := occurred } := by
  unfold Gfx.lineWork
  split
  · unfold Gfx.vblankStart
    split <;> exact ⟨_, rfl⟩
  · rw [h]
    exact Gfx.clearVblank_disabled h
  · rw [h]
    exact ⟨_, rfl⟩
  · exact ⟨_, rfl⟩

/-- Without a background no cycle is skipped. -/
theorem Gfx.advance_of_no_background {g : Gfx} (h : g.flags.showBackground = false) :
    g.advance = g.advanceOnce := by
  simp [Gfx.advance, Gfx.skipsCycle, h]

/-- A tick of a quiet board moves the raster by one position and requests nothing. -/
theorem Board.Quiet.tick {b : Board} (h : b.Quiet) :
    ∃ occurred, b.tick =
      ({ b with gfx := Gfx.advanceOnce { b.gfx with nmiOccurred := occurred },
                freeCount := b.freeCount + 1 }, none) := by
  obtain ⟨occurred, hwork⟩ := Gfx.lineWork_disabled (g := b.gfx)
    (by simp [Gfx.renderingEnabled, h.background, h.sprites]) b.freeCount
  have hmapper : b.mapperWork = (b.mapper, false) := by
    unfold Board.mapperWork
    split
    · exact Mapper.tick_silent h.mapper _
    · rfl
  refine ⟨occurred, Prod.ext ?_ ?_⟩
  · show (⟨(b.gfx.lineWork b.freeCount).1.advance, b.mapperWork.1, _⟩ : Board) = _
    rw [hwork, hmapper]
    exact congrArg (Board.mk · b.mapper _) (Gfx.advance_of_no_background h.background)
  · show (if b.mapperWork.2 = true then some Interrupt.irq else (b.gfx.lineWork b.freeCount).2) = none
    rw [hmapper, Gfx.lineWork_request, h.nmi]
    simp

/-- One position further, mod the 341 x 262 positions of a frame. -/
theorem Gfx.position_advanceOnce {g : Gfx} (hc : g.cycle < 341) (hs : g.scanline < 262) :
    g.advanceOnce.cycle < 341 ∧ g.advanceOnce.scanline < 262 ∧
      g.advanceOnce.position = (g.position + 1) % (341 * 262) := by
  unfold Gfx.advanceOnce Gfx.position
  split
  · exact ⟨‹_›, hs, by simp only; omega⟩
  · split
    · exact ⟨by simp only; omega, ‹_›, by simp only; omega⟩
    · exact ⟨by simp only; omega, by simp only; omega, by simp only; omega⟩

/-- Any number of ticks of a quiet board: the slot and frame-ready stay, the raster moves on by as many positions. -/
theorem Board.Quiet.run {b : Board} (h : b.Quiet) (hc : b.gfx.cycle < 341) (hs : b.gfx.scanline < 262)
    (slot : Option Interrupt) (k : Nat) :
    (b.run k slot).2 = slot ∧ (b.run k slot).1.gfx.frameReady = b.gfx.frameReady ∧
      (b.run k slot).1.gfx.cycle < 341 ∧ (b.run k slot).1.gfx.scanline < 262 ∧
      (b.run k slot).1.gfx.position = (b.gfx.position + k) % (341 * 262) := by
  induction k generalizing b with
  | zero =>
    refine ⟨rfl, rfl, hc, hs, ?_⟩
    show b.gfx.position = _
    unfold Gfx.position
    omega
  | succ k ih =>
    obtain ⟨occurred, htick⟩ := h.tick
    obtain ⟨hc', hs', hposition⟩ := Gfx.position_advanceOnce (g := { b.gfx with nmiOccurred := occurred }) hc hs
    obtain ⟨_, _, _, hmoves⟩ := Gfx.advanceOnce_moves { b.gfx with nmiOccurred := occurred }
    have hquiet : b.tick.1.Quiet := by
      rw [htick, hmoves]
      exact ⟨h.background, h.sprites, h.nmi, h.mapper⟩
    have hready : b.tick.1.gfx.frameReady = b.gfx.frameReady := by rw [htick, hmoves]
    rw [htick] at hquiet hready
    have := ih hquiet hc' hs'
    rw [Board.run, htick]
    obtain ⟨hslot, hframe, hcycle, hline, hpos⟩ := this
    refine ⟨hslot, hframe.trans hready, hcycle, hline, hpos.trans ?_⟩
    rw [hposition]
    show ((b.gfx.position + 1) % (341 * 262) + k) % (341 * 262) = _
    omega

/-- Settles O54: `Board.tick_request`, and a bus write leaves the slot alone. -/
theorem interruptRequests : Obligations.InterruptRequests := by
  refine ⟨⟨fun b => ⟨?_, Board.tick_nmiOccurred⟩, fun s addr u hs => ?_⟩,
    fun b => ⟨fun h => ?_, fun h => ?_, ?_⟩, fun m k h => Mapper.tick_silent h k⟩
  · rw [Board.tick_request]
    by_cases h : b.gfx.cycle = 340
    · rw [if_pos h]
      split <;> simp [h]
    · simp [h]
  · obtain ⟨t, ht, _⟩ := memWrite_ok hs addr u
    exact ⟨t, ht, by rw [memWrite_writesTo ht]⟩
  · exact congrArg Prod.fst (Board.mapperWork_at_340 h)
  · exact congrArg Prod.fst (Board.mapperWork_elsewhere h)
  · rw [Board.tick_request]
    by_cases h : b.gfx.cycle = 340
    · simp [h]
    · rw [if_neg h]
      split <;> simp [h]

/-- Settles O56: a frame's positions bring a quiet board back to the position it started from. -/
theorem rasterReturns : Obligations.RasterReturns := by
  intro b slot hcycle hline hbackground hsprites hnmi hmapper
  have hquiet : b.Quiet := ⟨hbackground, hsprites, hnmi, hmapper⟩
  obtain ⟨hslot, hready, hc, hs, hpos⟩ :=
    hquiet.run (by omega) (by omega) slot (341 * 262)
  rw [Gfx.position, Gfx.position, hcycle, hline] at hpos
  exact ⟨hslot, by omega, by omega, hready⟩

end Sys2Proof.Machine
end

section
/-! The graphics address space and the reads of the graphics registers: O57, O58 and O59. -/

namespace Sys2Proof.Machine

open Sys2Proof

variable {b : Board} {g : Nat}

/-! ### The three ranges of the graphics address space -/

theorem BankMemory.read_of_write {m m' : BankMemory} {window addr : Nat} {u : Byte} (h : m.Ok window)
    (ha : addr < window) (hm : m.write addr u = .ok m') : m'.read addr = .ok u := by
  obtain ⟨k, hk, -⟩ := BankMemory.resolve_isSome h ha
  rw [BankMemory.write, hk] at hm
  cases hm
  have hresolve : BankMemory.resolve { m with data := Cells.write m.data k u } addr = some k := hk
  rw [BankMemory.read, hresolve]
  exact congrArg Except.ok ((Cells.read_write h.data.wf k k u).trans (if_pos rfl))

theorem Board.graphicsRead_pattern (hg : g < 0x2000) : b.graphicsRead g = b.mapper.chr.read g := if_pos hg

theorem Board.graphicsWrite_pattern_rom (hg : g < 0x2000) (hrom : b.mapper.header.chrBanks ≠ 0) (u : Byte) :
    b.graphicsWrite g u = .ok b := by
  rw [Board.graphicsWrite, if_pos hg, if_neg hrom]

theorem Board.graphicsWrite_pattern_ram (hg : g < 0x2000) (hram : b.mapper.header.chrBanks = 0) {u : Byte}
    {chr : BankMemory} (hchr : b.mapper.chr.write g u = .ok chr) :
    b.graphicsWrite g u = .ok { b with mapper := { b.mapper with chr := chr } } := by
  rw [Board.graphicsWrite, if_pos hg, if_pos hram, hchr]

theorem Board.graphicsRead_nametable (hlo : 0x2000 ≤ g) (hhi : g < 0x3F00) :
    b.graphicsRead g = .ok (Cells.read b.gfx.nametable (nametableIndex b.mapper.mirroring g)) := by
  rw [Board.graphicsRead, if_neg (by omega), if_pos hhi]

theorem Board.graphicsWrite_nametable (hlo : 0x2000 ≤ g) (hhi : g < 0x3F00) (u : Byte) :
    b.graphicsWrite g u = .ok { b with gfx := { b.gfx with
      nametable := Cells.write b.gfx.nametable (nametableIndex b.mapper.mirroring g) u } } := by
  rw [Board.graphicsWrite, if_neg (by omega), if_pos hhi]

theorem Board.graphicsRead_palette (hlo : 0x3F00 ≤ g) (hhi : g < 0x4000) :
    b.graphicsRead g = .ok (Cells.read b.gfx.palette (paletteIndex g)) := by
  rw [Board.graphicsRead, if_neg (by omega), if_neg (by omega), if_pos hhi]

theorem Board.graphicsWrite_palette (hlo : 0x3F00 ≤ g) (hhi : g < 0x4000) (u : Byte) :
    b.graphicsWrite g u = .ok { b with gfx := { b.gfx with
      palette := Cells.write b.gfx.palette (paletteIndex g) u } } := by
  rw [Board.graphicsWrite, if_neg (by omega), if_neg (by omega), if_pos hhi]

/-! ### Which addresses name one cell -/

/-- The physical 1 KiB region of the backing store that an address names. -/
def physicalRegion (m : Mirroring) (addr : Nat) : Nat :=
  match m with
  | .horizontal => addr / 0x800 % 2
  | .vertical => addr / 0x400 % 2
  | .singleLow => 0
  | .singleHigh => 1
  | .fourScreen => addr / 0x400 % 2

theorem nametableIndex_eq (m : Mirroring) (addr : Nat) :
    nametableIndex m addr = physicalRegion m addr * 0x400 + addr % 0x400 := by
  unfold nametableIndex
  cases m <;> simp only [nametableRegion, physicalRegion] <;> omega

theorem nametableIndex_eq_iff (m : Mirroring) (g h : Nat) :
    nametableIndex m h = nametableIndex m g ↔ physicalRegion m g = physicalRegion m h ∧ g % 0x400 = h % 0x400 := by
  rw [nametableIndex_eq, nametableIndex_eq]
  omega

/-- The palette entry an offset names, with its four aliases. -/
def paletteEntry (n : Nat) : Nat :=
  if n = 0x10 ∨ n = 0x14 ∨ n = 0x18 ∨ n = 0x1C then n - 0x10 else n

theorem paletteIndex_offset {n : Nat} (h : n < 0x20) : paletteIndex (0x3F00 + n) = paletteEntry n := by
  have hmod : (0x3F00 + n) % 0x20 = n := by omega
  have halias : (0x10 ≤ n ∧ n % 4 = 0) ↔ (n = 0x10 ∨ n = 0x14 ∨ n = 0x18 ∨ n = 0x1C) := by omega
  simp only [paletteIndex, paletteEntry, hmod, halias]

/-- A nametable write, as reads of the nametables see it. -/
theorem Board.graphicsRead_write_nametable (hb : b.Ok) {h : Nat} (hg : 0x2000 ≤ g) (hg' : g < 0x3F00)
    (hh : 0x2000 ≤ h) (hh' : h < 0x3F00) (u : Byte) :
    ∃ b', b.graphicsWrite g u = .ok b' ∧ b'.mapper = b.mapper ∧
      b'.graphicsRead h =
        if physicalRegion b.mapper.mirroring g = physicalRegion b.mapper.mirroring h ∧ g % 0x400 = h % 0x400 then .ok u
        else b.graphicsRead h := by
  refine ⟨_, Board.graphicsWrite_nametable hg hg' u, rfl, ?_⟩
  rw [Board.graphicsRead_nametable hh hh', Board.graphicsRead_nametable hh hh']
  simp only [Cells.read_write hb.gfx.nametable.wf, nametableIndex_eq_iff]
  exact apply_ite ..

/-- A palette write, as reads of the palette see it. -/
theorem Board.graphicsRead_write_palette (hb : b.Ok) {j k : Nat} (hj : j < 0x20) (hk : k < 0x20) (u : Byte) :
    ∃ b', b.graphicsWrite (0x3F00 + j) u = .ok b' ∧
      b'.graphicsRead (0x3F00 + k) =
        if paletteEntry j = paletteEntry k then .ok u else b.graphicsRead (0x3F00 + k) := by
  refine ⟨_, Board.graphicsWrite_palette (by omega) (by omega) u, ?_⟩
  rw [Board.graphicsRead_palette (by omega) (by omega), Board.graphicsRead_palette (by omega) (by omega),
    paletteIndex_offset hj, paletteIndex_offset hk]
  simp only [Cells.read_write hb.gfx.palette.wf, eq_comm (a := paletteEntry k)]
  exact apply_ite ..

/-- Settles O58: in each range the written byte is read back through the cells the address names. -/
theorem graphicsAddressSpace : Obligations.GraphicsAddressSpace := by
  refine ⟨fun b u hb => ⟨fun g hg => ⟨fun hrom => Board.graphicsWrite_pattern_rom hg hrom u, fun hram => ?_⟩,
    fun g h hg hg' hh hh' => Board.graphicsRead_write_nametable hb hg hg' hh hh' u⟩,
    fun b j k u hb hj hk => Board.graphicsRead_write_palette hb hj hk u⟩
  obtain ⟨chr, hchr, -⟩ := BankMemory.write_ok hb.mapper.chr hg u
  refine ⟨_, Board.graphicsWrite_pattern_ram hg hram hchr, ?_⟩
  rw [Board.graphicsRead_pattern hg]
  exact BankMemory.read_of_write hb.mapper.chr hg hchr

/-! ### Register reads -/

theorem getLsbD_flags (p q r : Bool) (rest : BitVec 5) :
    (BitVec.ofBool p ++ BitVec.ofBool q ++ BitVec.ofBool r ++ rest).getLsbD 7 = p ∧
      (BitVec.ofBool p ++ BitVec.ofBool q ++ BitVec.ofBool r ++ rest).getLsbD 6 = q ∧
      (BitVec.ofBool p ++ BitVec.ofBool q ++ BitVec.ofBool r ++ rest).getLsbD 5 = r := by
  refine ⟨?_, ?_, ?_⟩ <;> simp only [BitVec.getLsbD_append] <;> simp

/-- Bits 7, 6 and 5 of the status byte. -/
theorem Gfx.statusByte_flags (g : Gfx) (k : Nat) :
    (g.statusByte k).getLsbD 7 = (g.nmiOccurred && !decide (g.scanline = 241 ∧ g.cycle = 2)) ∧
      (g.statusByte k).getLsbD 6 = g.spriteZeroHit ∧ (g.statusByte k).getLsbD 5 = g.spriteOverflow := by
  have hsuppressed : (g.scanline == 241 && g.cycle == 2) = decide (g.scanline = 241 ∧ g.cycle = 2) :=
    (Bool.decide_and ..).symm
  rw [← hsuppressed]
  exact getLsbD_flags ..

/-- A read at 0x2000 to 0x3FFF is the read of the register with the address's number. -/
theorem memRead_number {addr : Word} {s : State} (hlo : 0x2000 ≤ addr.toNat) (hhi : addr.toNat < 0x4000)
    {r : GfxRegister} (hr : addr.toNat % 8 = r.number) {u : Byte} {b : Board}
    (hb : s.board.readRegister r = .ok (u, b)) : memRead addr s = .ok (u, { s with board := b }) :=
  memRead_register hlo hhi (GfxRegister.ofAddress_of_number hr ▸ hb)

/-- Settles O57: each number is its register's read. -/
theorem graphicsRegisterReads : Obligations.GraphicsRegisterReads := by
  refine ⟨fun b => ⟨_, _, rfl, rfl, rfl, Gfx.statusByte_flags b.gfx b.freeCount⟩, fun addr s hs hlo hhi =>
    ⟨fun h => ?_, fun h => memRead_number hlo hhi (r := .oamData) h rfl, fun h => ?_⟩⟩
  · rcases h with h | h
    · rw [if_pos h]
      obtain ⟨u, b, hb⟩ := Board.readRegister_ok hs.board .status
      exact ⟨u, b, hb, memRead_number hlo hhi (r := .status) h hb⟩
    · rw [if_neg (by omega)]
      obtain ⟨u, b, hb⟩ := Board.readRegister_ok hs.board .data
      exact ⟨u, b, hb, memRead_number hlo hhi (r := .data) h hb⟩
  · simp only [List.mem_cons, List.not_mem_nil, or_false] at h
    rcases h with h | h | h | h | h
    · exact ⟨_, memRead_number hlo hhi (r := .control) h rfl⟩
    · exact ⟨_, memRead_number hlo hhi (r := .mask) h rfl⟩
    · exact ⟨_, memRead_number hlo hhi (r := .oamAddress) h rfl⟩
    · exact ⟨_, memRead_number hlo hhi (r := .scroll) h rfl⟩
    · exact ⟨_, memRead_number hlo hhi (r := .address) h rfl⟩

/-- Settles O59: the two branches of the data port's read. -/
theorem dataPortReads : Obligations.DataPortReads := by
  intro b hb
  obtain ⟨v, hv⟩ := Board.graphicsRead_ok hb b.gfx.portAddress_lt
  have hport : b.gfx.portAddress = b.gfx.vramAddr.toNat % 0x4000 := rfl
  rw [← hport]
  simp only [Board.readRegister, Board.readDataPort, hv]
  by_cases h : b.gfx.portAddress < 0x3F00
  · rw [if_pos h]
    exact ⟨v, _, _, rfl, rfl, fun _ => ⟨rfl, rfl⟩, fun h' => absurd h (by omega), rfl, rfl⟩
  · rw [if_neg h]
    exact ⟨v, _, _, rfl, rfl, fun h' => absurd h' h, fun _ => rfl, rfl, rfl⟩

end Sys2Proof.Machine
end

section
/-! Effective addresses and operand reads (spec/30_encoding.md R144 to R158; spec/40_load_store.md R200): O22
and O23. -/

namespace Sys2Proof.Machine

open Sys2Proof

variable {i : Instr} {m : Operand} {s t : State} {u : Byte}

/-! ### Words written as masks and appended bytes -/

theorem setWidth_eq_zero_append (k : Byte) : k.setWidth 16 = 0#8 ++ k := by
  refine BitVec.eq_of_toNat_eq ?_
  have := k.isLt
  rw [BitVec.toNat_setWidth, BitVec.toNat_append]
  simp
  omega

theorem and_highMask (w : Word) : w &&& 0xFF00#16 = wordOf 0#8 (highByte w) := by
  have hmask : ∀ k < 16, (0xFF00#16).getLsbD k = decide (8 ≤ k) := by decide
  refine BitVec.eq_of_getLsbD_eq fun k hk => ?_
  rw [wordOf, highByte, BitVec.getLsbD_and, hmask k hk, BitVec.getLsbD_append, BitVec.getLsbD_extractLsb']
  by_cases hk8 : k < 8
  · simp [hk8]
  · have hsub : 8 + (k - 8) = k := by omega
    simp [hk8, hsub, show k - 8 < 8 by omega, show 8 ≤ k by omega]

/-- Two addresses lie in different pages when their high bytes, the bits of the mask 0xFF00, differ. -/
theorem pagesDiffer_eq_masks (v w : Word) :
    pagesDiffer v w = decide ((v &&& 0xFF00#16) ≠ (w &&& 0xFF00#16)) := by
  have hiff : (v &&& 0xFF00#16) = (w &&& 0xFF00#16) ↔ highByte v = highByte w := by
    rw [and_highMask, and_highMask]
    exact ⟨fun h => by simpa using congrArg highByte h, fun h => by rw [h]⟩
  rw [pagesDiffer, bne, decide_not, decide_eq_decide.2 hiff]
  rfl

/-! ### Addresses of page 0 -/

theorem State.byteAt_zeroPage (s : State) (k : Byte) : s.byteAt (0#8 ++ k) = Cells.read s.ram k.toNat := by
  have hk := k.isLt
  have hnat : ((0#8 ++ k : BitVec (8 + 8)) : Word).toNat = k.toNat := by
    rw [← setWidth_eq_zero_append, BitVec.toNat_setWidth]
    omega
  rw [State.byteAt, if_pos (by omega), ramOffset, hnat, Nat.mod_eq_of_lt (by omega)]

/-- The pointer at an address of page 0 is read inside page 0. -/
theorem memRead16Bug_zeroPage_byteAt (k : Byte) (s : State) :
    memRead16Bug (k.setWidth 16) s = .ok (s.byteAt (0#8 ++ (k + 1#8)) ++ s.byteAt (0#8 ++ k), s) := by
  rw [memRead16Bug_zeroPage, State.byteAt_zeroPage, State.byteAt_zeroPage]
  rfl

/-! ### The forms that read a pointer or add an index -/

theorem indexed_apply (base : Word) (index : Byte) (s : State) :
    indexed base index s = .ok (base + (0#8 ++ index),
      { s with extra := decide ((base &&& 0xFF00#16) ≠ ((base + (0#8 ++ index)) &&& 0xFF00#16)) }) := by
  rw [← pagesDiffer_eq_masks, ← setWidth_eq_zero_append]
  rfl

theorem resolve_indexedIndirectX (zp : Byte) (s : State) :
    resolve (.indexedIndirectX zp) s = .ok
      (s.byteAt (0#8 ++ (zp + s.x + 1#8)) ++ s.byteAt (0#8 ++ (zp + s.x)), { s with extra := false }) :=
  memRead16Bug_zeroPage_byteAt (zp + s.x) { s with extra := false }

theorem resolve_indirectIndexedY (zp : Byte) (s : State) :
    resolve (.indirectIndexedY zp) s =
      indexed (s.byteAt (0#8 ++ (zp + 1#8)) ++ s.byteAt (0#8 ++ zp)) s.y { s with extra := false } := by
  rw [resolve, Access.bind_modify, Access.bind_get]
  exact Access.bind_of_ok (memRead16Bug_zeroPage_byteAt zp _)

/-- The signed displacement, as a number added modulo 65536. -/
theorem toNat_relativeTarget (pc : Word) (d : Byte) : (relativeTarget pc d).toNat =
    (if d.toNat < 0x80 then pc.toNat + 2 + d.toNat else pc.toNat + 2 + d.toNat + (65536 - 256)) % 65536 := by
  have hd := d.isLt
  rw [relativeTarget, BitVec.toNat_add, BitVec.toNat_add, BitVec.toNat_signExtend, BitVec.toNat_setWidth,
    BitVec.msb_eq_decide]
  by_cases h : d.toNat < 0x80
  · have hmsb : ¬ 2 ^ (8 - 1) ≤ d.toNat := by omega
    simp only [h, hmsb, decide_false, BitVec.toNat_ofNat, if_true, Bool.false_eq_true, if_false]
    omega
  · have hmsb : 2 ^ (8 - 1) ≤ d.toNat := by omega
    simp only [h, hmsb, decide_true, BitVec.toNat_ofNat, if_true, if_false]
    omega

/-- Settles O22: each form's address in the terms of the spec. -/
theorem effectiveAddresses : Obligations.EffectiveAddresses := by
  refine fun s => ⟨rfl, fun u => rfl, fun zp => ?_, fun zp => ?_, fun zp => ?_, fun w => rfl,
    fun w => indexed_apply w s.x _, fun w => indexed_apply w s.y _, fun zp => resolve_indexedIndirectX zp s,
    fun zp => ?_, fun ptr lo hi s1 s2 hlo hhi => resolve_indirect hlo (nextInPage_eq_masks ptr ▸ hhi),
    toNat_relativeTarget⟩
  · rw [← setWidth_eq_zero_append]
    rfl
  · rw [← setWidth_eq_zero_append]
    rfl
  · rw [← setWidth_eq_zero_append]
    rfl
  · exact (resolve_indirectIndexedY zp s).trans (indexed_apply _ _ _)

/-! ### Operand reads -/

/-- An operand read is the resolution, the frame and one read. -/
theorem ReadsOperand.reaches (h : ReadsOperand i m s u t) :
    ∃ addr q, ReachesHandler i m s addr q ∧ readOperand m addr q = .ok (u, t) := by
  obtain ⟨addr, r, row, hr, hd, ht⟩ := h
  exact ⟨addr, _, ⟨r, row, hr, hd, rfl⟩, ht⟩

theorem ReachesHandler.extra_eq {addr addr' : Word} {q r : State} (h : ReachesHandler i m s addr q)
    (hr : resolve m s = .ok (addr', r)) : addr' = addr ∧ q.extra = r.extra := by
  obtain ⟨r', row, hr', -, rfl⟩ := h
  cases hr.symm.trans hr'
  exact ⟨rfl, rfl⟩

theorem ReachesHandler.a_eq {addr : Word} {q : State} (h : ReachesHandler i m s addr q) : q.a = s.a := by
  obtain ⟨row, extra, board, -, -, rfl⟩ := h.shape
  rfl

theorem ReachesHandler.byteAt_eq {addr : Word} {q : State} (h : ReachesHandler i m s addr q) (other : Word) :
    q.byteAt other = s.byteAt other := by
  obtain ⟨row, extra, board, -, hboard, rfl⟩ := h.shape
  exact State.byteAt_congr (s := s) (t := { s with pc := _, cycles := _, extra := extra, board := board }) rfl
    hboard.mapper other

/-- Settles O23: the operand read taken apart into resolution, frame and one read. -/
theorem operandReads : Obligations.OperandReads := by
  intro i m s t u h
  obtain ⟨row, hrow, hboard, hshape⟩ := h.spec
  obtain ⟨addr', q, hq, hread⟩ := h.reaches
  refine ⟨hboard, ⟨row, hrow, hshape⟩, ?_, ?_, fun addr r hr => ?_⟩
  · rintro rfl
    cases hread
    exact hq.a_eq
  · rintro value rfl
    cases hread
    rfl
  · obtain ⟨rfl, hextra⟩ := hq.extra_eq hr
    refine ⟨?_, fun hacc himm hplain hs => ?_⟩
    · rw [(readOperand_readsTo hread).processor]
      exact hextra
    · have hmemory : readOperand m addr = memRead addr :=
        readOperand_memory (fun h => hacc (by rw [h]; rfl)) (fun v h => himm (by rw [h]; rfl)) addr
      rw [hmemory, memRead_plain (hq.inv hs) hplain] at hread
      cases hread
      exact hq.byteAt_eq addr

end Sys2Proof.Machine
end

section
/-! Loads, stores, subtraction and comparisons (spec/40_load_store.md; spec/42_arithmetic.md): O24, O25, O31 and
O32. -/

namespace Sys2Proof.Machine

open Sys2Proof

variable {i : Instr} {m : Operand} {s t : State} {u : Byte} {addr : Word}

/-! ### Rows -/

theorem loads_takeRows :
    Instr.TakesRows .lda (Instr.lda .accumulator).descriptors ∧
    Instr.TakesRows .ldx (Instr.ldx .accumulator).descriptors ∧
    Instr.TakesRows .ldy (Instr.ldy .accumulator).descriptors := by
  refine ⟨?_, ?_, ?_⟩ <;>
    exact ⟨fun _ => rfl, fun _ => rfl, fun _ => rfl, fun _ => rfl, fun _ => rfl, by decide⟩

theorem stores_takeRows :
    Instr.TakesRows .sta (Instr.sta .accumulator).descriptors ∧
    Instr.TakesRows .stx (Instr.stx .accumulator).descriptors ∧
    Instr.TakesRows .sty (Instr.sty .accumulator).descriptors := by
  refine ⟨?_, ?_, ?_⟩ <;>
    exact ⟨fun _ => rfl, fun _ => rfl, fun _ => rfl, fun _ => rfl, fun _ => rfl, by decide⟩

theorem subtractions_takeRows :
    Instr.TakesRows .sbc (Instr.sbc .accumulator).descriptors ∧
    Instr.TakesRows .cmp (Instr.cmp .accumulator).descriptors ∧
    Instr.TakesRows .cpx (Instr.cpx .accumulator).descriptors ∧
    Instr.TakesRows .cpy (Instr.cpy .accumulator).descriptors := by
  refine ⟨?_, ?_, ?_, ?_⟩ <;>
    exact ⟨fun _ => rfl, fun _ => rfl, fun _ => rfl, fun _ => rfl, fun _ => rfl, by decide⟩

/-! ### The registers before a handler -/

theorem ReachesHandler.x_eq (h : ReachesHandler i m s addr t) : t.x = s.x := by
  obtain ⟨row, extra, board, -, -, rfl⟩ := h.shape
  rfl

theorem ReachesHandler.y_eq (h : ReachesHandler i m s addr t) : t.y = s.y := by
  obtain ⟨row, extra, board, -, -, rfl⟩ := h.shape
  rfl

theorem ReadsOperand.x_eq (h : ReadsOperand i m s u t) : t.x = s.x := by
  obtain ⟨row, extra, board, -, -, rfl⟩ := h.shape
  rfl

theorem ReadsOperand.y_eq (h : ReadsOperand i m s u t) : t.y = s.y := by
  obtain ⟨row, extra, board, -, -, rfl⟩ := h.shape
  rfl

/-- Under the invariant a store reaches its handler and its bus write answers. -/
theorem stores_ok (hs : s.Inv) (hw : i.wf = true) (hp : i.present = true) (m : Operand) (value : Byte) :
    ∃ addr h t, ReachesHandler i m s addr h ∧ memWrite addr value h = .ok ((), t) := by
  obtain ⟨addr, h, hh⟩ := reachesHandler_ok (m := m) hs hw hp
  obtain ⟨t, ht, -⟩ := memWrite_ok (hh.inv hs) addr value
  exact ⟨addr, h, t, hh, ht⟩

/-- Settles O24: each is its `exec` rule, with the flags of `setZN` and the latch's cycle written out. -/
theorem loads : Obligations.Loads := by
  obtain ⟨hlda, hldx, hldy⟩ := loads_takeRows
  refine ⟨hlda.encodes, hldx.encodes, hldy.encodes, fun m s hs => ⟨fun hw => ?_, fun hw => ?_, fun hw => ?_⟩⟩
  · obtain ⟨u, t, ht⟩ := readsOperand_ok hs hw rfl
    exact ⟨u, t, ht, exec_lda ht⟩
  · obtain ⟨u, t, ht⟩ := readsOperand_ok hs hw rfl
    exact ⟨u, t, ht, exec_ldx ht⟩
  · obtain ⟨u, t, ht⟩ := readsOperand_ok hs hw rfl
    exact ⟨u, t, ht, exec_ldy ht⟩

/-- Settles O25: each is its `exec` rule; the register at the handler is that of `s`. -/
theorem stores : Obligations.Stores := by
  obtain ⟨hsta, hstx, hsty⟩ := stores_takeRows
  refine ⟨hsta.encodes, hstx.encodes, hsty.encodes, fun m s hs => ⟨fun hw => ?_, fun hw => ?_, fun hw => ?_⟩⟩
  · obtain ⟨addr, h, t, hh, ht⟩ := stores_ok hs hw rfl m s.a
    exact ⟨addr, h, t, hh, ht, exec_sta hh (hh.a_eq ▸ ht)⟩
  · obtain ⟨addr, h, t, hh, ht⟩ := stores_ok hs hw rfl m s.x
    exact ⟨addr, h, t, hh, ht, exec_stx hh (hh.x_eq ▸ ht)⟩
  · obtain ⟨addr, h, t, hh, ht⟩ := stores_ok hs hw rfl m s.y
    exact ⟨addr, h, t, hh, ht, exec_sty hh (hh.y_eq ▸ ht)⟩

/-- A comparison sets Z when the two bytes are equal: only then is their difference 0. -/
theorem State.setCompare_eq (t : State) (register u : Byte) :
    t.setCompare register u =
      { t with c := decide (u.toNat ≤ register.toNat), z := decide (register = u), n := (register - u).msb } := by
  have hzero : (register - u == 0#8) = decide (register = u) :=
    decide_eq_decide.2 (by bv_omega : register - u = 0#8 ↔ register = u)
  rw [State.setCompare, State.setZN, hzero]

/-- Settles O32: each is its `exec` rule with `State.setCompare_eq`. -/
theorem compares : Obligations.Compares := by
  obtain ⟨-, hcmp, hcpx, hcpy⟩ := subtractions_takeRows
  refine ⟨hcmp.encodes, hcpx.encodes, hcpy.encodes, fun m s hs => ⟨fun hw => ?_, fun hw => ?_, fun hw => ?_⟩⟩
  · obtain ⟨u, t, ht⟩ := readsOperand_ok hs hw rfl
    refine ⟨u, t, ht, ?_⟩
    rw [exec_cmp ht, State.setCompare_eq, ← ht.a_eq]
    rfl
  · obtain ⟨u, t, ht⟩ := readsOperand_ok hs hw rfl
    exact ⟨u, t, ht, by rw [exec_cpx ht, State.setCompare_eq, ← ht.x_eq]⟩
  · obtain ⟨u, t, ht⟩ := readsOperand_ok hs hw rfl
    exact ⟨u, t, ht, by rw [exec_cpy ht, State.setCompare_eq, ← ht.y_eq]⟩

/-- An immediate operand is read in every state. -/
theorem readsOperand_immediate {row : Descriptor} (hd : i.descriptor? = some row) (value : Byte) (s : State) :
    ReadsOperand i (.immediate value) s value (({ s with extra := false } : State).advance i.size row.base) :=
  ⟨_, _, row, rfl, hd, rfl⟩

/-- Settles O31: SBC is its `exec` rule; the alias has the immediate form's size and cost, and the latch that
SBC immediate adds is clear. -/
theorem subtractWithCarry : Obligations.SubtractWithCarry := by
  refine ⟨subtractions_takeRows.1.encodes, fun m s hs hw => ?_, fun value s => ⟨rfl, ?_⟩⟩
  · obtain ⟨u, t, ht⟩ := readsOperand_ok hs hw rfl
    refine ⟨u, t, ht, ?_⟩
    rw [exec_sbc ht, ht.a_eq, ht.c_eq]
    rfl
  · exact ⟨_, exec_sbc (readsOperand_immediate (row := ⟨.immediate, 0xE9, 2⟩) rfl value s),
      exec_sbcAlias (readsOperand_immediate (row := ⟨.immediate, 0xEB, 2⟩) rfl value s)⟩

end Sys2Proof.Machine
end

section
/-! What ADC and SBC compute over the integers (spec/42_arithmetic.md R244 to R246): O35. -/

namespace Sys2Proof

open Machine

/-! ### Carry and overflow over the integers -/

/-- A byte as a signed number, by its sign bit. -/
theorem toInt_cases (u : Byte) :
    (u.msb = false ∧ u.toInt = u.toNat ∧ u.toNat < 128) ∨
      (u.msb = true ∧ u.toInt = (u.toNat : Int) - 256 ∧ 128 ≤ u.toNat) := by
  have hu := u.isLt
  rw [BitVec.toInt_eq_msb_cond, BitVec.msb_eq_decide]
  by_cases h : 2 ^ (8 - 1) ≤ u.toNat
  · simp only [h, decide_true, if_true]
    exact .inr ⟨trivial, rfl, h⟩
  · simp only [h, decide_false, Bool.false_eq_true, if_false]
    exact .inl ⟨trivial, trivial, by omega⟩

/-- The mask 0x80 leaves the sign bit. -/
theorem and_signMask (u : Byte) : (u &&& 0x80#8 != 0#8) = u.msb := by
  have hmask : 0x80#8 = BitVec.twoPow 8 7 := by decide
  rw [hmask, BitVec.and_twoPow, BitVec.msb_eq_getLsbD_last]
  cases u.getLsbD 7 <;> rfl

theorem addWithCarry_value (a m : Byte) (carry : Bool) :
    (addWithCarry a m carry).value.toNat = (a.toNat + m.toNat + carry.toNat) % 256 :=
  BitVec.toNat_ofNat ..

theorem addWithCarry_carry (a m : Byte) (carry : Bool) :
    (addWithCarry a m carry).carry = true ↔ 256 ≤ a.toNat + m.toNat + carry.toNat := decide_eq_true_iff

/-- Overflow: both operands have one sign and the result the other. -/
theorem addWithCarry_overflow (a m : Byte) (carry : Bool) :
    (addWithCarry a m carry).overflow =
      (!(a.msb ^^ m.msb) && (a.msb ^^ (addWithCarry a m carry).value.msb)) := by
  refine (and_signMask _).trans ?_
  rw [BitVec.msb_and, BitVec.msb_not, BitVec.msb_xor, BitVec.msb_xor]
  rfl

/-- One case for each choice of the signs of both operands and of the result. -/
theorem addWithCarry_overflow_iff (a m : Byte) (carry : Bool) :
    (addWithCarry a m carry).overflow = true ↔
      a.toInt + m.toInt + carry.toNat < -128 ∨ 127 < a.toInt + m.toInt + carry.toNat := by
  have hvalue := addWithCarry_value a m carry
  have hcarry : carry.toNat ≤ 1 := Bool.toNat_le carry
  rw [addWithCarry_overflow]
  rcases toInt_cases a with ⟨ha, ha', ha''⟩ | ⟨ha, ha', ha''⟩ <;>
    rcases toInt_cases m with ⟨hm, hm', hm''⟩ | ⟨hm, hm', hm''⟩ <;>
    rcases toInt_cases (addWithCarry a m carry).value with ⟨hr, -, hr'⟩ | ⟨hr, -, hr'⟩ <;>
    simp [ha, hm, hr] <;> omega

/-- Subtracting a byte is adding its complement. -/
theorem subWithCarry_eq_add (a m : Byte) (carry : Bool) :
    subWithCarry a m carry = addWithCarry a (~~~m) carry := by
  have hm := m.isLt
  have hcarry : carry.toNat ≤ 1 := Bool.toNat_le carry
  have hnot : (~~~m).toNat = 255 - m.toNat := BitVec.toNat_not
  have hvalue : (subWithCarry a m carry).value = (addWithCarry a (~~~m) carry).value := by
    refine BitVec.eq_of_toNat_eq ?_
    rw [addWithCarry_value]
    refine (BitVec.toNat_ofInt ..).trans ?_
    omega
  have hcarry' : (subWithCarry a m carry).carry = (addWithCarry a (~~~m) carry).carry :=
    decide_eq_decide.2 (by omega)
  have hoverflow : (subWithCarry a m carry).overflow = (addWithCarry a (~~~m) carry).overflow := by
    rw [addWithCarry_overflow, ← hvalue]
    refine (and_signMask _).trans ?_
    rw [BitVec.msb_and, BitVec.msb_not, BitVec.msb_xor, BitVec.msb_xor]
    show _ = (!(a.msb ^^ !m.msb) && (a.msb ^^ (subWithCarry a m carry).value.msb))
    rw [Bool.xor_not, Bool.not_not]
    rfl
  calc subWithCarry a m carry
      = ⟨(subWithCarry a m carry).value, (subWithCarry a m carry).carry, (subWithCarry a m carry).overflow⟩ := rfl
    _ = addWithCarry a (~~~m) carry := by rw [hvalue, hcarry', hoverflow]

/-- The complement of a byte, as a signed number. -/
theorem toInt_not_byte (m : Byte) : (~~~m).toInt = -1 - m.toInt := by
  have hnot : (~~~m).toNat = 255 - m.toNat := BitVec.toNat_not
  rcases toInt_cases m with ⟨-, hm, hm'⟩ | ⟨-, hm, hm'⟩ <;>
    rcases toInt_cases (~~~m) with ⟨-, hn, hn'⟩ | ⟨-, hn, hn'⟩ <;> omega

/-- Settles O35: the sum by its parts, the difference as the sum with the complement. -/
theorem arithmeticLaws : Obligations.ArithmeticLaws := by
  refine ⟨fun a m carry => ⟨⟨addWithCarry_value a m carry, addWithCarry_carry a m carry,
    addWithCarry_overflow_iff a m carry⟩, ?_⟩, fun a m carry => ⟨?_, ?_⟩⟩
  · have hcarry : carry.toNat ≤ 1 := Bool.toNat_le carry
    have hm := m.isLt
    have hnot : (~~~m).toNat = 255 - m.toNat := BitVec.toNat_not
    have hvalue := addWithCarry_value a (~~~m) carry
    have hnotInt := toInt_not_byte m
    refine ⟨?_, ?_, ?_⟩
    · rw [subWithCarry_eq_add, hvalue]
      omega
    · rw [subWithCarry_eq_add, addWithCarry_carry]
      omega
    · rw [subWithCarry_eq_add, addWithCarry_overflow_iff]
      omega
  · rw [subWithCarry_eq_add, ← BitVec.xor_allOnes]
    rfl
  · have hm := m.isLt
    have ha := a.isLt
    have hnot : (~~~m).toNat = 255 - m.toNat := BitVec.toNat_not
    have hvalue := addWithCarry_value a m carry
    have hcarry : carry.toNat ≤ 1 := Bool.toNat_le carry
    have hopposite : (!carry).toNat = 1 - carry.toNat := by cases carry <;> rfl
    refine ⟨BitVec.eq_of_toNat_eq ?_, Bool.eq_iff_iff.2 ?_⟩
    · rw [subWithCarry_eq_add, addWithCarry_value]
      omega
    · rw [subWithCarry_eq_add, addWithCarry_carry, Bool.not_eq_true', ← Bool.not_eq_true, addWithCarry_carry]
      omega

end Sys2Proof
end

section
/-! Stack, control transfer and flag instructions as the statements write them (spec/41_transfer_stack.md R216 to
R220; spec/44_control.md R275 to R285; spec/45_flags_system.md): O28, O40, O41, O42 and O44. -/

namespace Sys2Proof.Machine

open Sys2Proof

/-- The byte the k-th pull from here reads is the byte at 0x0100 | (SP + k). -/
theorem State.stackByte_eq_byteAt (s : State) (k : Nat) :
    s.stackByte k = s.byteAt (0x01#8 ++ (s.sp + BitVec.ofNat 8 k)) := by
  show _ = s.byteAt (stackAddress (s.sp + BitVec.ofNat 8 k))
  rw [State.byteAt, if_pos (stackAddress_lt _), ramOffset_stackAddress]
  rfl

/-- A branch in the terms of its handler is the branch in the terms of the spec. -/
theorem State.afterBranch_eq_branched (s : State) (d : Byte) (taken : Bool) :
    s.afterBranch d taken = s.branched d taken := by
  cases taken with
  | false => rfl
  | true =>
    have hcost : s.cycles + 2 + 1 + (pagesDiffer (s.pc + 2#16) (relativeTarget s.pc d)).toNat =
        s.cycles + (if highByte (s.pc + 2#16) = highByte (relativeTarget s.pc d) then 3 else 4) := by
      by_cases h : highByte (s.pc + 2#16) = highByte (relativeTarget s.pc d)
      · simp [pagesDiffer, h]
      · simp [pagesDiffer, h, bne_iff_ne.2 h]
    rw [State.afterBranch, if_pos rfl, hcost]
    rfl

/-- Settles O28: each is its `exec` rule; a pulled byte is the one at 0x0100 | (SP + 1). -/
theorem stackInstructions : Obligations.StackInstructions := by
  refine ⟨rfl, rfl, rfl, rfl, rfl, fun s => ⟨exec_txs s, exec_pha s, exec_php s, ?_, ?_⟩⟩
  · rw [exec_pla, State.stackByte_eq_byteAt]
    rfl
  · rw [exec_plp, State.stackByte_eq_byteAt]
    rfl

/-- Settles O40: JSR pushes the address of its own last byte, PC + 3 - 1. -/
theorem subroutineCallAndReturn : Obligations.SubroutineCallAndReturn := by
  intro s
  have hlast : s.pc + 3#16 - 1#16 = s.pc + 2#16 := by bv_omega
  refine ⟨fun w => ⟨rfl, ?_⟩, rfl, ?_⟩
  · rw [exec_jsr, hlast]
    rfl
  · rw [exec_rts, State.stackByte_eq_byteAt, State.stackByte_eq_byteAt]
    rfl

/-- Settles O41: each is its `exec` rule with `State.afterBranch_eq_branched`. -/
theorem branches : Obligations.Branches := by
  intro d s
  simp only [exec_bcc, exec_bcs, exec_beq, exec_bmi, exec_bne, exec_bpl, exec_bvc, exec_bvs,
    State.afterBranch_eq_branched, beq_false, beq_true, and_true]
  exact ⟨rfl, rfl, rfl, rfl, rfl, rfl, rfl, rfl⟩

/-- Settles O42: BRK's return address is PC + 1 + 1; RTI pulls at SP + 1, SP + 2 and SP + 3. -/
theorem softwareInterruptAndReturn : Obligations.SoftwareInterruptAndReturn := by
  refine ⟨rfl, rfl, fun s hs => ?_, fun s => ?_⟩
  · have hback : s.pc + 1#16 + 1#16 = s.pc + 2#16 := by bv_omega
    rw [exec_brk hs, hback]
    rfl
  · rw [exec_rti, State.stackByte_eq_byteAt, State.stackByte_eq_byteAt, State.stackByte_eq_byteAt]
    rfl

/-- Settles O44: each is its `exec` rule, with the frame `past 2` written out. -/
theorem interruptDecimalAndNop : Obligations.InterruptDecimalAndNop := by
  refine ⟨rfl, rfl, rfl, rfl, rfl, fun s => ?_⟩
  simp only [exec_cli, exec_sei, exec_cld, exec_sed, exec_nop, State.past_eq, and_self]

end Sys2Proof.Machine
end

section
/-! Laws of the stack and of returns (spec/41_transfer_stack.md R221, R222; spec/44_control.md R288): O45 and O46. -/

namespace Sys2Proof.Machine

open Sys2Proof

variable {s t : State}

/-- The flags of one state are those of the other. -/
def State.SameFlags (s u : State) : Prop :=
  u.n = s.n ∧ u.v = s.v ∧ u.d = s.d ∧ u.i = s.i ∧ u.z = s.z ∧ u.c = s.c

theorem getLsbD_packed (n v b5 b4 d i z c : Bool) :
    let u : Byte := BitVec.ofBool n ++ BitVec.ofBool v ++ BitVec.ofBool b5 ++ BitVec.ofBool b4 ++ BitVec.ofBool d
      ++ BitVec.ofBool i ++ BitVec.ofBool z ++ BitVec.ofBool c
    u.getLsbD 7 = n ∧ u.getLsbD 6 = v ∧ u.getLsbD 3 = d ∧ u.getLsbD 2 = i ∧ u.getLsbD 1 = z ∧ u.getLsbD 0 = c := by
  refine ⟨?_, ?_, ?_, ?_, ?_, ?_⟩ <;> simp only [BitVec.getLsbD_append] <;> simp

/-- Unpacking the packed flag byte gives the flags back, whatever its bits 5 and 4. -/
theorem State.unpackP_packP (s t : State) (b4 b5 : Bool) : s.SameFlags (t.unpackP (s.packP b4 b5)) :=
  getLsbD_packed s.n s.v b5 b4 s.d s.i s.z s.c

/-! ### What lies above SP after pushes -/

theorem State.stackByte_pushed_one (hs : s.Inv) (u : Byte) : (s.pushed u).stackByte 1 = u :=
  (State.stackByte_pushed hs.ram.wf u (by decide)).trans (if_pos rfl)

theorem State.stackByte_pushed_succ (hs : s.Inv) (u : Byte) {k : Nat} (hk : k + 1 < 255) :
    (s.pushed u).stackByte (k + 2) = s.stackByte (k + 1) :=
  (State.stackByte_pushed hs.ram.wf u hk).trans (if_neg (Nat.succ_ne_zero k))

/-- The state with a return address on the stack, high byte first. -/
def State.pushedWord (s : State) (w : Word) : State := (s.pushed (highByte w)).pushed (lowByte w)

theorem State.Inv.pushedWord (hs : s.Inv) (w : Word) : (s.pushedWord w).Inv :=
  (hs.pushed (highByte w)).pushed (lowByte w)

/-- The two bytes above SP after a word was pushed are that word. -/
theorem State.wordOf_pushedWord (hs : s.Inv) (w : Word) :
    wordOf ((s.pushedWord w).stackByte 1) ((s.pushedWord w).stackByte 2) = w := by
  have hlow : (s.pushedWord w).stackByte 1 = lowByte w := State.stackByte_pushed_one (hs.pushed _) _
  have hhigh : (s.pushedWord w).stackByte 2 = highByte w :=
    (State.stackByte_pushed_succ (hs.pushed _) _ (k := 0) (by decide)).trans (State.stackByte_pushed_one hs _)
  rw [hlow, hhigh, wordOf_low_high]

/-- RTI after an exception's entry, which leaves a return address and the flag byte on the stack, returns to that
address, with SP and the flags of the state before the entry. -/
theorem rti_of_entered {o : Host.Outcome State Fault Refusal} (ho : o = .next t) (hs : s.Inv) (w : Word) (b4 b5 : Bool)
    (hram : t.ram = ((s.pushedWord w).pushed (s.packP b4 b5)).ram)
    (hsp : t.sp = ((s.pushedWord w).pushed (s.packP b4 b5)).sp) :
    ∃ t u, o = .next t ∧ exec .rti t = .next u ∧ u.pc = w ∧ u.sp = s.sp ∧ s.SameFlags u := by
  have hword := hs.pushedWord w
  have hflags : t.stackByte 1 = s.packP b4 b5 :=
    (State.stackByte_congr hram hsp 1).trans (State.stackByte_pushed_one hword _)
  have hlow : t.stackByte 2 = (s.pushedWord w).stackByte 1 :=
    (State.stackByte_congr hram hsp 2).trans (State.stackByte_pushed_succ hword _ (k := 0) (by decide))
  have hhigh : t.stackByte 3 = (s.pushedWord w).stackByte 2 :=
    (State.stackByte_congr hram hsp 3).trans (State.stackByte_pushed_succ hword _ (k := 1) (by decide))
  refine ⟨t, _, ho, exec_rti t, ?_, ?_, ?_⟩
  · show wordOf (t.stackByte 2) (t.stackByte 3) = w
    rw [hlow, hhigh, State.wordOf_pushedWord hs]
  · show t.sp + 3#8 = s.sp
    rw [hsp]
    show s.sp - 1#8 - 1#8 - 1#8 + 3#8 = s.sp
    bv_omega
  · rw [hflags]
    exact State.unpackP_packP s t b4 b5

/-- Settles O45: the byte above SP after a push is the one pushed. -/
theorem stackLaws : Obligations.StackLaws := by
  refine fun s hs => ⟨fun u addr => State.byteAt_pushed hs u addr, ?_, ?_⟩
  · have hpast : (s.past 3).Inv := ⟨hs.ram, hs.board, hs.loaded⟩
    have hbyte : ((s.past 3).pushed s.a).stackByte 1 = s.a := State.stackByte_pushed_one hpast s.a
    refine ⟨_, _, exec_pha s, exec_pla _, ?_⟩
    rw [hbyte]
    exact ⟨rfl, BitVec.sub_add_cancel .., rfl, rfl⟩
  · have hpast : (s.past 3).Inv := ⟨hs.ram, hs.board, hs.loaded⟩
    have hbyte := State.stackByte_pushed_one hpast (s.packP true true)
    refine ⟨_, _, exec_php s, exec_plp _, ?_⟩
    rw [hbyte]
    exact ⟨BitVec.sub_add_cancel .., State.unpackP_packP s _ true true⟩

/-- Settles O46: the pushed address is pulled again; an exception's return by `rti_of_entered`. -/
theorem returnLaws : Obligations.ReturnLaws := by
  refine fun s hs => ⟨fun w => ?_, ?_, fun k hk => ?_⟩
  · refine ⟨_, _, exec_jsr w s, exec_rts _, ?_, ?_⟩
    · show wordOf ((s.pushedWord (s.pc + 3#16 - 1#16)).stackByte 1)
        ((s.pushedWord (s.pc + 3#16 - 1#16)).stackByte 2) + 1#16 = _
      rw [State.wordOf_pushedWord hs, BitVec.sub_add_cancel]
    · show s.sp - 1#8 - 1#8 + 2#8 = s.sp
      bv_omega
  · have hback : s.pc + 1#16 + 1#16 = s.pc + 2#16 := by bv_omega
    have hbrk := exec_brk hs
    rw [hback] at hbrk
    exact rti_of_entered hbrk hs (s.pc + 2#16) true true rfl rfl
  · have htick := Access.outcome_of_ok (interruptTick_apply hs k)
    rw [if_neg (by rw [hk]; exact Bool.false_ne_true)] at htick
    exact rti_of_entered htick hs s.pc false true rfl rfl

end Sys2Proof.Machine
end
